-- ==== Sys2Proof/Word.lean ====
section
/-! DEFINITION. The word types of 00_scope.md R11: u8, u16, u32, u64. Every value is unsigned. -/

namespace Sys2Proof

/-- `u8` of R11, also one byte of a byte-addressed mapping of host memory (R82). -/
abbrev Word8 := BitVec 8

/-- `u16` of R11. -/
abbrev Word16 := BitVec 16

/-- `u32` of R11: one PulseInterval in microseconds, a code, a handle, a response value. -/
abbrev Word32 := BitVec 32

/-- `u64` of R11: one clock sample, one command word. -/
abbrev Word64 := BitVec 64

end Sys2Proof
end

