-- ==== Sys2Proof/Syntax.lean ====
section
/-! DEFINITION. The instructions (one constructor per row of the opcode table), the raw command word
by its fields, the values on the block's input ports, and the inputs of a run. -/

namespace Sys2Proof

/-- One constructor per row of the opcode table (R106), with the operands R112 assembles, and the two
inputs that are no command words: EDGE (R102) and TEARDOWN (R103). The clock samples and the block
addressed come with the input (`Input`), not with the instruction. -/
inductive Instr
  | rxStart
  | rxStop
  | rxStartPeriodic (h : Word32)
  | rxStopPeriodic
  | rxUpdate
  | rxIsReceiving
  | rxIsDetected
  | rxGetCode
  | rxGetProtocol
  | rxGetRawLen
  | rxGetRaw (i : Word32)
  | rxSetCallback (h : Word32)
  | rxSetTimeout (ms : Word32)
  | rxSetMinPw (us : Word32)
  | rxSetMaxPw (us : Word32)
  | txNec (c : Word32)
  | txRc5 (c : Word16)
  | txSony (c : Word16)
  | txRaw (base len : Word16)
  | txUpdate
  | txIsTransmitting
  | txIsComplete
  | txSetCallback (h : Word32)
  | txSetCarrier (f : Word32)
  | txSetPower (p : Word8)
  | txSetRepeat (n : Word8)
  | edge
  | teardown
  deriving DecidableEq, Repr

/-- The operand classes of R105. -/
inductive OperandClass
  | none | u32 | u16 | u8 | handle | index | rawref
  deriving DecidableEq, Repr

/-- A command word by its three fields, the one format CMD of R100. -/
structure Command where
  /-- `w[7:0]` -/
  opc : BitVec 8
  /-- `w[31:8]`, reserved, must be 0 -/
  rsv : BitVec 24
  /-- `w[63:32]` -/
  arg : Word32
  deriving DecidableEq, Repr

/-- A value on one of the three input ports: a command word (R100), the 1-bit strobe of the edge port
(R102), the 1-bit lifecycle strobe (R103). -/
inductive PortWord
  | command (w : Word64)
  | edgePort (strobe : BitVec 1)
  | lifecycle (strobe : BitVec 1)
  deriving DecidableEq, Repr

/-- One input of a run (R8), with the block it addresses (R322) or the pin it happens on (R58) and the
clock samples it carries (R312); and the host's own write of a word of its sequence memory between two
inputs (R93, R95). -/
inductive Input
  | cmd (block : Nat) (w : Word64) (tUs tMs : Word64)
  | edge (pin : Nat) (tUs : Word64)
  | teardown (block : Nat) (tUs : Word64)
  | hostWrite (addr : Nat) (v : Word32)
  deriving DecidableEq, Repr

/-- The mnemonic of the opcode table (R106, R113). -/
def Instr.mnemonic : Instr → String
  | .rxStart => "RX_START"
  | .rxStop => "RX_STOP"
  | .rxStartPeriodic _ => "RX_START_PERIODIC"
  | .rxStopPeriodic => "RX_STOP_PERIODIC"
  | .rxUpdate => "RX_UPDATE"
  | .rxIsReceiving => "RX_IS_RECEIVING"
  | .rxIsDetected => "RX_IS_DETECTED"
  | .rxGetCode => "RX_GET_CODE"
  | .rxGetProtocol => "RX_GET_PROTOCOL"
  | .rxGetRawLen => "RX_GET_RAW_LEN"
  | .rxGetRaw _ => "RX_GET_RAW"
  | .rxSetCallback _ => "RX_SET_CALLBACK"
  | .rxSetTimeout _ => "RX_SET_TIMEOUT"
  | .rxSetMinPw _ => "RX_SET_MIN_PW"
  | .rxSetMaxPw _ => "RX_SET_MAX_PW"
  | .txNec _ => "TX_NEC"
  | .txRc5 _ => "TX_RC5"
  | .txSony _ => "TX_SONY"
  | .txRaw _ _ => "TX_RAW"
  | .txUpdate => "TX_UPDATE"
  | .txIsTransmitting => "TX_IS_TRANSMITTING"
  | .txIsComplete => "TX_IS_COMPLETE"
  | .txSetCallback _ => "TX_SET_CALLBACK"
  | .txSetCarrier _ => "TX_SET_CARRIER"
  | .txSetPower _ => "TX_SET_POWER"
  | .txSetRepeat _ => "TX_SET_REPEAT"
  | .edge => "EDGE"
  | .teardown => "TEARDOWN"

end Sys2Proof
end

