-- ==== Sys2Proof/Machine/Operands.lean ====
section
/-! DEFINITION. The operand classes of 30_encoding.md R105, the opcode map's class column (R106) and the
operand assembly of R112. -/

namespace Sys2Proof.Machine

/-- The ARG bits that R105 requires to be 0 in a class. -/
def mustBeZero : OperandClass → Word32
  | .none => 0xFFFFFFFF#32
  | .u32 => 0#32
  | .u16 => 0xFFFF0000#32
  | .u8 => 0xFFFFFF00#32
  | .handle => 0#32
  | .index => 0#32
  | .rawref => 0#32

/-- The opcode map of R106, opcode to class; an opcode not listed is unassigned. -/
def opcodeClass (opc : BitVec 8) : Option OperandClass :=
  match opc.toNat with
  | 0x10 => some .none
  | 0x11 => some .none
  | 0x12 => some .handle
  | 0x13 => some .none
  | 0x14 => some .none
  | 0x15 => some .none
  | 0x16 => some .none
  | 0x17 => some .none
  | 0x18 => some .none
  | 0x19 => some .none
  | 0x1A => some .index
  | 0x1B => some .handle
  | 0x1C => some .u32
  | 0x1D => some .u32
  | 0x1E => some .u32
  | 0x20 => some .u32
  | 0x21 => some .u16
  | 0x22 => some .u16
  | 0x23 => some .rawref
  | 0x24 => some .none
  | 0x25 => some .none
  | 0x26 => some .none
  | 0x27 => some .handle
  | 0x28 => some .u32
  | 0x29 => some .u8
  | 0x2A => some .u8
  | _ => none

/-- Class U16: `ARG[15:0]` (R112). -/
def operandU16 (arg : Word32) : Word16 := arg.extractLsb' 0 16

/-- Class U8: `ARG[7:0]` (R112). -/
def operandU8 (arg : Word32) : Word8 := arg.extractLsb' 0 8

/-- Class RAWREF: `BASE = ARG[15:0]` (R112). -/
def operandBase (arg : Word32) : Word16 := arg.extractLsb' 0 16

/-- Class RAWREF: `LEN = ARG[31:16]` (R112). -/
def operandLen (arg : Word32) : Word16 := arg.extractLsb' 16 16

end Sys2Proof.Machine
end

