-- ==== Sys2Proof/WellFormed.lean ====
section
/-! DEFINITION. Well-formed command words and inputs. Every `Instr` is well formed by the types of its
operands (u32, u16, u8 of R112); what can be ill formed is a raw command word and an input. -/

namespace Sys2Proof

/-- R107's first check: the opcode is in the map of R106. -/
def Command.opcodeAssigned (c : Command) : Bool := (Machine.opcodeClass c.opc).isSome

/-- R107's second check: `RSV` is 0. -/
def Command.reservedZero (c : Command) : Bool := c.rsv == 0#24

/-- R107's third check: the operand bits the class does not use are 0 (R105). -/
def Command.operandBitsZero (c : Command) : Bool :=
  match Machine.opcodeClass c.opc with
  | none => true
  | some cls => c.arg &&& Machine.mustBeZero cls == 0#32

/-- A legal command word (R107, R108). -/
def Command.wellFormed (c : Command) : Bool :=
  c.opcodeAssigned && c.reservedZero && c.operandBitsZero

/-- An input that addresses what exists: one of `nBlocks` blocks (R322), a word below `hostWords` of the
host sequence memory (R80). A pin may be any: an edge on an unbound pin changes nothing (R151). -/
def Input.wellFormed (nBlocks hostWords : Nat) : Input → Bool
  | .cmd k _ _ _ => k < nBlocks
  | .edge _ _ => true
  | .teardown k _ => k < nBlocks
  | .hostWrite a _ => a < hostWords

end Sys2Proof
end

