-- ==== Sys2Proof/Decode.lean ====
section
/-! DEFINITION. The decoder of 30_encoding.md R107, total on every port value and refusing by name, and
the encoder beside it, written from the same map (R106) and operand classes (R105, R112). -/

namespace Sys2Proof

/-- Why a port value is no input (R108): an unassigned opcode, a reserved bit set, an operand bit set
that the class requires to be 0, or a strobe that is not raised. -/
inductive IllegalReason
  | unassignedOpcode
  | reservedBits
  | operandBits
  | strobeLow
  deriving DecidableEq, Repr

/-- The result of R107's `decode`. -/
inductive Decoded
  | instr (i : Instr)
  | illegal (why : IllegalReason)
  deriving DecidableEq, Repr

/-- The fields of R100: `OPC = w[7:0]`, `RSV = w[31:8]`, `ARG = w[63:32]`. -/
def commandOfWord (w : Word64) : Command :=
  { opc := w.extractLsb' 0 8, rsv := w.extractLsb' 8 24, arg := w.extractLsb' 32 32 }

/-- The word of three fields, `ARG : RSV : OPC` from the most significant end (R100). -/
def wordOfCommand (c : Command) : Word64 := c.arg ++ c.rsv ++ c.opc

/-- The instruction of an opcode of R106 with its operands assembled (R112). -/
def instrOf (opc : BitVec 8) (arg : Word32) : Option Instr :=
  match opc.toNat with
  | 0x10 => some .rxStart
  | 0x11 => some .rxStop
  | 0x12 => some (.rxStartPeriodic arg)
  | 0x13 => some .rxStopPeriodic
  | 0x14 => some .rxUpdate
  | 0x15 => some .rxIsReceiving
  | 0x16 => some .rxIsDetected
  | 0x17 => some .rxGetCode
  | 0x18 => some .rxGetProtocol
  | 0x19 => some .rxGetRawLen
  | 0x1A => some (.rxGetRaw arg)
  | 0x1B => some (.rxSetCallback arg)
  | 0x1C => some (.rxSetTimeout arg)
  | 0x1D => some (.rxSetMinPw arg)
  | 0x1E => some (.rxSetMaxPw arg)
  | 0x20 => some (.txNec arg)
  | 0x21 => some (.txRc5 (Machine.operandU16 arg))
  | 0x22 => some (.txSony (Machine.operandU16 arg))
  | 0x23 => some (.txRaw (Machine.operandBase arg) (Machine.operandLen arg))
  | 0x24 => some .txUpdate
  | 0x25 => some .txIsTransmitting
  | 0x26 => some .txIsComplete
  | 0x27 => some (.txSetCallback arg)
  | 0x28 => some (.txSetCarrier arg)
  | 0x29 => some (.txSetPower (Machine.operandU8 arg))
  | 0x2A => some (.txSetRepeat (Machine.operandU8 arg))
  | _ => none

/-- R107 on the fields of a word: opcode, then `RSV`, then the class's operand bits. -/
def decodeCommand (c : Command) : Decoded :=
  match instrOf c.opc c.arg with
  | none => .illegal .unassignedOpcode
  | some i =>
    if !c.reservedZero then .illegal .reservedBits
    else if !c.operandBitsZero then .illegal .operandBits
    else .instr i

/-- The decoder of the three input ports (R102, R103, R107). -/
def decode : PortWord → Decoded
  | .command w => decodeCommand (commandOfWord w)
  | .edgePort b => if b = 1#1 then .instr .edge else .illegal .strobeLow
  | .lifecycle b => if b = 1#1 then .instr .teardown else .illegal .strobeLow

/-- The command word of an opcode and an operand: `w = (ARG << 32) | OPC` (R106). -/
def commandWord (opc : BitVec 8) (arg : Word32) : PortWord :=
  .command (wordOfCommand { opc := opc, rsv := 0#24, arg := arg })

/-- The port value of an instruction (R106, R112, R102, R103). -/
def encode : Instr → PortWord
  | .rxStart => commandWord 0x10#8 0#32
  | .rxStop => commandWord 0x11#8 0#32
  | .rxStartPeriodic h => commandWord 0x12#8 h
  | .rxStopPeriodic => commandWord 0x13#8 0#32
  | .rxUpdate => commandWord 0x14#8 0#32
  | .rxIsReceiving => commandWord 0x15#8 0#32
  | .rxIsDetected => commandWord 0x16#8 0#32
  | .rxGetCode => commandWord 0x17#8 0#32
  | .rxGetProtocol => commandWord 0x18#8 0#32
  | .rxGetRawLen => commandWord 0x19#8 0#32
  | .rxGetRaw i => commandWord 0x1A#8 i
  | .rxSetCallback h => commandWord 0x1B#8 h
  | .rxSetTimeout ms => commandWord 0x1C#8 ms
  | .rxSetMinPw us => commandWord 0x1D#8 us
  | .rxSetMaxPw us => commandWord 0x1E#8 us
  | .txNec c => commandWord 0x20#8 c
  | .txRc5 c => commandWord 0x21#8 (0#16 ++ c)
  | .txSony c => commandWord 0x22#8 (0#16 ++ c)
  | .txRaw base len => commandWord 0x23#8 (len ++ base)
  | .txUpdate => commandWord 0x24#8 0#32
  | .txIsTransmitting => commandWord 0x25#8 0#32
  | .txIsComplete => commandWord 0x26#8 0#32
  | .txSetCallback h => commandWord 0x27#8 h
  | .txSetCarrier f => commandWord 0x28#8 f
  | .txSetPower p => commandWord 0x29#8 (0#24 ++ p)
  | .txSetRepeat n => commandWord 0x2A#8 (0#24 ++ n)
  | .edge => .edgePort 1#1
  | .teardown => .lifecycle 1#1

/-- The assembler text of a command (R113): the mnemonic, then the operand, decimal; TX_RAW writes
`base, len`. -/
def assembly (i : Instr) : String :=
  match i with
  | .rxStartPeriodic v | .rxGetRaw v | .rxSetCallback v | .rxSetTimeout v | .rxSetMinPw v
  | .rxSetMaxPw v | .txNec v | .txSetCallback v | .txSetCarrier v =>
    i.mnemonic ++ " " ++ toString v.toNat
  | .txRc5 v | .txSony v => i.mnemonic ++ " " ++ toString v.toNat
  | .txSetPower v | .txSetRepeat v => i.mnemonic ++ " " ++ toString v.toNat
  | .txRaw base len => i.mnemonic ++ " " ++ toString base.toNat ++ ", " ++ toString len.toNat
  | .rxStart | .rxStop | .rxStopPeriodic | .rxUpdate | .rxIsReceiving | .rxIsDetected | .rxGetCode
  | .rxGetProtocol | .rxGetRawLen | .txUpdate | .txIsTransmitting | .txIsComplete | .edge
  | .teardown => i.mnemonic

/-- The port value the opcode table numbers as `w` in `nbits` bits. The table's two strobe rows both
have the encoding "1" and name no port in their bits; such a value is read as the edge port's strobe
(log entry 16). Every longer row is a command word, the bits above `nbits` 0. -/
def tableWord (nbits w : Nat) : PortWord :=
  if nbits ≤ 8 ∧ w = 1 then .edgePort 1#1 else .command (BitVec.ofNat 64 (w % 2 ^ nbits))

/-- The instruction the decoder reads from a row's word. -/
def decodeTableWord (nbits w : Nat) : Option Instr :=
  match decode (tableWord nbits w) with
  | .instr i => some i
  | .illegal _ => none

end Sys2Proof
end

