-- ==== Sys2Proof/Config.lean ====
section
/-! DEFINITION. What an implementation or the environment fixes and the spec leaves open: opaque
constants without a body, so that no proof can see their values. State holds the parameters in use
as plain fields that no step writes; `State.reset` takes them from here. -/

namespace Sys2Proof.Config

/-- `HOSTSEQ_WORDS` (R9, OPEN): words of the host sequence memory; any number (DESIGN CHOICE, log
entry 28). Log entry 4. -/
opaque hostseqWords : Nat

/-- `SAFETY_TIMEOUT_MS` (R9, OPEN): limit of the blocking host macros. Log entry 4. -/
opaque safetyTimeoutMs : Nat

/-- `N_INST - 1` (R9, OPEN, N_INST at least 1). Log entry 4. -/
opaque moreBlocks : Nat

/-- `RX_PIN` of the numbered block (R9, OPEN). Log entry 4. -/
opaque rxPin : Nat → Nat

/-- `TX_PIN` of the numbered block (R9, OPEN). Log entry 4. -/
opaque txPin : Nat → Nat

/-- The value at reset of a timestamp register whose reset value R70 calls unspecified: block number,
then 0 `lastEdgeUs`, 1 `rxStartMs`, 2 `idxStartUs`, 3 `gapStartUs`, 4 `lastToggleUs`. Log entry 7. -/
opaque unspecifiedU64 : Nat → Nat → Word64

/-- The draw that a read of a host memory word gives when the host's program has not written the
word (R95); the argument is the number of draws taken before. Log entry 6. -/
opaque drawWord : Nat → Word32

end Sys2Proof.Config
end

