-- ==== Sys2Proof/Machine/Constants.lean ====
section
/-! DEFINITION. The fixed parameters of 00_scope.md R9. -/

namespace Sys2Proof.Machine

/-- `SEQ_MAX`: entries of each stored sequence. -/
def seqMax : Nat := 128

/-- `CAP_FULL`: entries at which capture stops. -/
def capFull : Nat := 127

/-- `PW_DEFAULT_MIN`, µs. -/
def pwDefaultMin : Word32 := 50#32

/-- `PW_DEFAULT_MAX`, µs. -/
def pwDefaultMax : Word32 := 10000#32

/-- `TIMEOUT_DEFAULT`, ms. -/
def timeoutDefault : Word32 := 1000#32

/-- Lower end of the range of `TIMEOUT`, ms. -/
def timeoutMin : Nat := 100

/-- Upper end of the range of `TIMEOUT`, ms. -/
def timeoutMax : Nat := 10000

/-- `IFG_US`: the inter-frame gap, µs. -/
def ifgUs : Nat := 45000

/-- `CARRIER_DEFAULT`, Hz. -/
def carrierDefault : Word32 := 38000#32

/-- Lower end of the range of `CARRIER`, Hz. -/
def carrierMin : Nat := 30000

/-- Upper end of the range of `CARRIER`, Hz. -/
def carrierMax : Nat := 60000

/-- Default of `POWER`. -/
def powerDefault : Word8 := 255#8

/-- Default of `REPEAT`. -/
def repeatDefault : Word8 := 0#8

/-- `NEC_LEN`: encoder output length. -/
def necLen : Nat := 68

/-- `SONY_LEN`. -/
def sonyLen : Nat := 26

/-- `RC5_LEN`. -/
def rc5Len : Nat := 28

/-- `NEC_MIN`: decoder length gate. -/
def necMin : Nat := 34

/-- `SONY_MIN`. -/
def sonyMin : Nat := 24

/-- `RC5_MIN`. -/
def rc5Min : Nat := 28

end Sys2Proof.Machine
end

