-- ==== Sys2Proof/Machine/State.lean ====
section
/-! DEFINITION. The architectural state of 10_state.md: one `Block` for each instance, the shared pin
binding table, the host sequence memory, the parameters, and the model's own input port and queue. -/

namespace Sys2Proof.Machine

/-- Storage by index: pairs of an index and a value, indices strictly rising. An index that is not
listed is an unwritten cell (R70, R342), or, in the binding table, `none` (R56). -/
abbrev Cells (α : Type) := List (Nat × α)

/-- `RxState` (R32). -/
inductive RxState
  | idle | receiving | signalDetected | timeout | decoding
  deriving DecidableEq, Repr

/-- `Protocol` (R39). -/
inductive Protocol
  | nec | sony | rc5 | raw | unknown
  deriving DecidableEq, Repr

/-- `TxState` (R45). -/
inductive TxState
  | idle | transmitting | complete | error
  deriving DecidableEq, Repr

/-- `seqSrc` (R47): no sequence, the encoder buffer, or host memory words from `base`. -/
inductive SeqSrc
  | none
  | internal
  | host (base : Word16)
  deriving DecidableEq, Repr

/-- `STAT` (R300). -/
inductive Status
  | ok | busy | invalidConfig | illegal
  deriving DecidableEq, Repr

/-- The response `(RES, STAT)` of a command (R13, R101). -/
structure Response where
  res : Word32
  stat : Status
  deriving DecidableEq, Repr

/-- A notification event (R57, R308). -/
inductive Notification
  | rx (h : Word32) (code : Word32) (proto : Protocol) (valid : Bool)
  | tx (h : Word32) (success : Bool)
  deriving DecidableEq, Repr

/-- One entry of the pin trace (R17, R57). -/
structure PinChange where
  tUs : Word64
  level : Bool
  deriving DecidableEq, Repr

/-- Receiver state: capture buffer, receiver machine, results and configuration (R32 to R44). -/
structure Receiver where
  rxState : RxState
  capBuf : Cells Word32
  capLen : Word8
  capReady : Bool
  capEn : Bool
  haveLast : Bool
  lastEdgeUs : Word64
  rawBuf : Cells Word32
  rawLen : Word8
  rxCode : Word32
  rxProto : Protocol
  rxValid : Bool
  rxStartMs : Word64
  periodic : Bool
  rxCb : Word32
  bound : Bool
  timeoutMs : Word32
  pwMin : Word32
  pwMax : Word32
  deriving DecidableEq, Repr

/-- Transmitter state: machine, encoder buffer, modulation engine and configuration (R45 to R55), with
the trace of its pin (R57). -/
structure Transmitter where
  txState : TxState
  txBuf : Cells Word32
  seqSrc : SeqSrc
  seqLen : Word8
  txIdx : Word8
  idxStartUs : Word64
  repeatsDone : Word8
  inGap : Bool
  gapStartUs : Word64
  lastToggleUs : Word64
  txPin : Bool
  txCb : Word32
  carrierHz : Word32
  power : Word8
  repeatCount : Word8
  pinTrace : List PinChange
  deriving DecidableEq, Repr

/-- The pins an instance is wired to, `RX_PIN` and `TX_PIN` (R9, R321). -/
structure Wiring where
  rxPin : Nat
  txPin : Nat
  deriving DecidableEq, Repr

/-- One instance of the block (R322): its wiring, its receiver and transmitter, its lifecycle bit (R62)
and its outputs (R57). -/
structure Block where
  wiring : Wiring
  rx : Receiver
  tx : Transmitter
  dead : Bool
  notifs : List Notification
  responses : List Response
  deriving DecidableEq, Repr

/-- `BYTE_ORDER` (R9, R82). -/
inductive ByteOrder
  | little | big
  deriving DecidableEq, Repr

/-- The platform's parameters, fixed for a run (R9, R345). `hostseqWords` may be any number: R81 makes a
word address 16 bits wide, but no rule bounds HOSTSEQ_WORDS by 65536 (DESIGN CHOICE, log entry 28). -/
structure Params where
  hostseqWords : Nat
  byteOrder : ByteOrder
  safetyTimeoutMs : Nat
  deriving DecidableEq, Repr

/-- The model's own: what the input being taken carries, the block it addresses or the pin it happens
on and its clock samples (R8, R312). Log entry 1. -/
structure Port where
  block : Nat
  pin : Nat
  tUs : Word64
  tMs : Word64
  deriving DecidableEq, Repr

/-- The whole machine: the instances (R322) and all they share, which by R56 and R322 is the binding
table. `hostMem` holds the bytes of the host sequence memory (R82, log entry 6) and `drawCount` counts the
draws of R95 (log entry 6); that all instances see one host memory, and draw by one count, is a DESIGN
CHOICE (unsafe, log entry 27), for the spec leaves open whether each has its own. `inputs` are the inputs
still to come, oldest first (R360, log entry 1). -/
structure State where
  params : Params
  blocks : List Block
  pinOwner : Cells Nat
  hostMem : List Host.Cell
  port : Port
  inputs : List Input
  drawCount : Nat
  deriving DecidableEq, Repr

/-- Why the machine stops. Each reason is safe: the model stops in states that no run of the block
reaches, or on an address that does not exist. -/
inductive Fault
  /-- `RX_UPDATE` found `rxState = Decoding` (R187). Safe; no run reaches it (R61 item 5). -/
  | decodingHeld
  /-- A buffer cell that nothing has written was read (R342): the snapshot, `RX_GET_RAW`, `TX_UPDATE`.
  Safe; no run reaches it. -/
  | unwrittenCell
  /-- EDGE would append past the 128 entries of `capBuf` (R33). Safe; no run reaches it (R160). -/
  | bufferIndex
  /-- A word at or above `HOSTSEQ_WORDS` was named: by a host write, or by `TX_UPDATE` in a state that
  no run reaches (R81). Safe. -/
  | hostAddress
  deriving DecidableEq, Repr

/-- Why an input has no move. -/
inductive Refusal
  /-- An instruction without a meaning in this model. Safe. -/
  | notModelled (mnemonic : String)
  /-- An input names a block number at or above `N_INST` (R322). Safe: there is no such port. -/
  | noSuchBlock
  /-- A command or TEARDOWN to an instance after TEARDOWN: a host duty, no move (R62, R347). Safe. -/
  | deadBlock
  deriving DecidableEq, Repr

/-- The receiver at reset (R70). -/
def Receiver.reset (k : Nat) : Receiver where
  rxState := .idle
  capBuf := []
  capLen := 0#8
  capReady := false
  capEn := false
  haveLast := false
  lastEdgeUs := Config.unspecifiedU64 k 0
  rawBuf := []
  rawLen := 0#8
  rxCode := 0#32
  rxProto := .unknown
  rxValid := false
  rxStartMs := Config.unspecifiedU64 k 1
  periodic := false
  rxCb := 0#32
  bound := false
  timeoutMs := timeoutDefault
  pwMin := pwDefaultMin
  pwMax := pwDefaultMax

/-- The transmitter at reset (R70). -/
def Transmitter.reset (k : Nat) : Transmitter where
  txState := .idle
  txBuf := []
  seqSrc := .none
  seqLen := 0#8
  txIdx := 0#8
  idxStartUs := Config.unspecifiedU64 k 2
  repeatsDone := 0#8
  inGap := false
  gapStartUs := Config.unspecifiedU64 k 3
  lastToggleUs := Config.unspecifiedU64 k 4
  txPin := false
  txCb := 0#32
  carrierHz := carrierDefault
  power := powerDefault
  repeatCount := repeatDefault
  pinTrace := []

/-- Instance number `k` at reset, with its wiring (R70, R340). -/
def Block.reset (k : Nat) (w : Wiring) : Block where
  wiring := w
  rx := Receiver.reset k
  tx := Transmitter.reset k
  dead := false
  notifs := []
  responses := []

/-- One instance at reset for each wiring, numbered from `k` (R322). -/
def Block.resetFrom (k : Nat) : List Wiring → List Block
  | [] => []
  | w :: ws => Block.reset k w :: Block.resetFrom (k + 1) ws

/-- The platform after reset for given parameters and wiring (R9: a model takes every OPEN parameter as
an argument): one instance for each wiring, the binding table empty (R340), no input taken. -/
def State.boot (p : Params) (ws : List Wiring) : State where
  params := p
  blocks := Block.resetFrom 0 ws
  pinOwner := []
  hostMem := []
  port := { block := 0, pin := 0, tUs := 0#64, tMs := 0#64 }
  inputs := []
  drawCount := 0

/-- The wiring that `Config` gives instance `k`. -/
def wiringOf (k : Nat) : Wiring := { rxPin := Config.rxPin k, txPin := Config.txPin k }

/-- The machine right after reset, its OPEN parameters those of `Config` and BYTE_ORDER at the spec's
default (R9); N_INST is at least 1. -/
def State.reset : State :=
  State.boot
    { hostseqWords := Config.hostseqWords, byteOrder := .little,
      safetyTimeoutMs := Config.safetyTimeoutMs }
    (wiringOf 0 :: (List.range Config.moreBlocks).map (fun k => wiringOf (k + 1)))

end Sys2Proof.Machine
end

