-- ==== Sys2Proof/Machine/Ops.lean ====
section
/-! DEFINITION. The named operations the meanings share: indexed storage, host sequence memory, time
differences and windows, responses, notifications, the transmit pin, the binding table, and access to
the instance an input addresses. There is no exception entry and no return from one: R305. -/

namespace Sys2Proof.Machine

/-- `buf[i]` (R16), `none` for an unwritten cell. -/
def readCell? {α : Type} : Cells α → Nat → Option α
  | [], _ => none
  | (k, v) :: rest, i => if i = k then some v else if i < k then none else readCell? rest i

/-- `buf[i] <- v` (R16). -/
def writeCell {α : Type} : Cells α → Nat → α → Cells α
  | [], i, v => [(i, v)]
  | (k, u) :: rest, i, v =>
    if i = k then (i, v) :: rest
    else if i < k then (i, v) :: (k, u) :: rest
    else (k, u) :: writeCell rest i v

/-- Makes entry `i` unlisted: `pinOwner(p) <- none` (R171). -/
def eraseCell {α : Type} : Cells α → Nat → Cells α
  | [], _ => []
  | (k, u) :: rest, i =>
    if i = k then rest else if i < k then (k, u) :: rest else (k, u) :: eraseCell rest i

/-- Writes consecutive entries from `base`. -/
def writeCells {α : Type} (st : Cells α) (base : Nat) : List α → Cells α
  | [] => st
  | v :: vs => writeCells (writeCell st base v) (base + 1) vs

/-- Entries `base .. base+n-1` in order, `none` if one of them is unwritten. -/
def readCells? {α : Type} (st : Cells α) (base : Nat) : Nat → Option (List α)
  | 0 => some []
  | n + 1 =>
    match readCell? st base, readCells? st (base + 1) n with
    | some v, some vs => some (v :: vs)
    | _, _ => none

/-- The canonical form: indices strictly rise. -/
def Cells.wf {α : Type} : Cells α → Bool
  | [] => true
  | [_] => true
  | (i, _) :: (j, v) :: rest => decide (i < j) && Cells.wf ((j, v) :: rest)

/-- The canonical form of the host sequence memory's bytes. A byte nothing has written has no value,
so no listed entry can equal what an unlisted one reads as. -/
abbrev Memory.wf (m : List Host.Cell) : Bool := Cells.wf m

/-- The bytes of a word from its lowest address on (R82). -/
def bytesOfWord (o : ByteOrder) (v : Word32) : List Word8 :=
  let low := [v.extractLsb' 0 8, v.extractLsb' 8 8, v.extractLsb' 16 8, v.extractLsb' 24 8]
  match o with
  | .little => low
  | .big => low.reverse

/-- The word whose bytes, from the lowest address on, are given (R82). -/
def wordOfBytes (o : ByteOrder) : List Word8 → Option Word32
  | [b0, b1, b2, b3] =>
    match o with
    | .little => some (b3 ++ b2 ++ b1 ++ b0)
    | .big => some (b0 ++ b1 ++ b2 ++ b3)
  | _ => none

/-- Word `i` of host memory, bytes `4i .. 4i+3` (R82); `none` where a byte has not been written. -/
def hostWord? (o : ByteOrder) (m : List Host.Cell) (i : Nat) : Option Word32 :=
  match readCells? m (4 * i) 4 with
  | some bs => wordOfBytes o bs
  | none => none

/-- Host memory with word `i` set to `v`. -/
def writeHostWord (o : ByteOrder) (m : List Host.Cell) (i : Nat) (v : Word32) : List Host.Cell :=
  writeCells m (4 * i) (bytesOfWord o v)

/-- `delta(a, b) = (a - b) mod 2^64` (R14). -/
def delta (a b : Word64) : Word64 := a - b

/-- `win(d, nom, tol)`, a closed window (R15). -/
def win (d : Word32) (nom tol : Nat) : Bool :=
  decide (nom - tol ≤ d.toNat) && decide (d.toNat ≤ nom + tol)

/-- `MemRead(addr, 1)` (R16): the word and the state after the read, which differs only in the count of
draws (R95). The address is exact, not cut to 16 bits (R81; DESIGN CHOICE, log entry 28). -/
def memRead (s : State) (addr : Nat) : Except Fault (Word32 × State) :=
  if addr < s.params.hostseqWords then
    match hostWord? s.params.byteOrder s.hostMem addr with
    | some v => .ok (v, s)
    | none => .ok (Config.drawWord s.drawCount, { s with drawCount := s.drawCount + 1 })
  else .error .hostAddress

/-- `respond(RES, STAT)` (R13) on the outputs of an instance. -/
def respond (b : Block) (res : Word32) (stat : Status) : Block :=
  { b with responses := b.responses ++ [{ res := res, stat := stat }] }

/-- `if rxCb != 0: notify_rx(rxCb, code, proto, valid)` (R17, R308). -/
def notifyRx (b : Block) (code : Word32) (proto : Protocol) (valid : Bool) : Block :=
  if b.rx.rxCb = 0#32 then b
  else { b with notifs := b.notifs ++ [.rx b.rx.rxCb code proto valid] }

/-- `if txCb != 0: notify_tx(txCb, success)` (R17, R308). -/
def notifyTx (b : Block) (success : Bool) : Block :=
  if b.tx.txCb = 0#32 then b
  else { b with notifs := b.notifs ++ [.tx b.tx.txCb success] }

/-- `pin_out(level)` at `tUs` (R17): sets the pin, and adds to its trace when the level changes. -/
def pinOut (t : Transmitter) (tUs : Word64) (level : Bool) : Transmitter :=
  { t with
    txPin := level
    pinTrace := if t.txPin = level then t.pinTrace else t.pinTrace ++ [{ tUs := tUs, level := level }] }

/-- Instance `k` replaced. -/
def putBlock (s : State) (k : Nat) (b : Block) : State := { s with blocks := s.blocks.set k b }

/-- The instance that the input being taken addresses. -/
def self? (s : State) : Option Block := s.blocks[s.port.block]?

/-- That instance replaced. -/
def putSelf (s : State) (b : Block) : State := putBlock s s.port.block b

/-- The end of a command transition (R13): the instance with its response. -/
def answer (s : State) (b : Block) (res : Word32) (stat : Status) :
    Host.Outcome State Fault Refusal :=
  .next (putSelf s (respond b res stat))

/-- Runs an input of the addressed instance. An instance number that does not exist has no port; to a
dead instance no input has a move (R62, R347). -/
def onSelf (s : State) (f : Block → Host.Outcome State Fault Refusal) :
    Host.Outcome State Fault Refusal :=
  match self? s with
  | none => .refused .noSuchBlock
  | some b => if b.dead then .refused .deadBlock else f b

/-- `pinOwner(RX_PIN) = some j and j != self` (R172). -/
def heldByOther (s : State) (b : Block) : Bool :=
  match readCell? s.pinOwner b.wiring.rxPin with
  | none => false
  | some j => decide (j ≠ s.port.block)

/-- `pinOwner(RX_PIN) <- some self` (R172). -/
def bindPin (s : State) (b : Block) : State :=
  { s with pinOwner := writeCell s.pinOwner b.wiring.rxPin s.port.block }

/-- The table half of `release()` (R171). -/
def unbindPin (s : State) (b : Block) : State :=
  if b.rx.bound then { s with pinOwner := eraseCell s.pinOwner b.wiring.rxPin } else s

/-- Goes on after a next state, and stops where the first part stopped. -/
def andThen {α β : Type} (o : Host.Outcome α Fault Refusal) (f : α → Host.Outcome β Fault Refusal) :
    Host.Outcome β Fault Refusal :=
  match o with
  | .next a => f a
  | .fault r => .fault r
  | .refused r => .refused r

/-- The response to a word that is no command (R108, R302): nothing else changes. -/
def illegalWord (s : State) : Host.Outcome State Fault Refusal :=
  onSelf s fun b => answer s b 0#32 .illegal

/-- The host's own write of word `addr` of its sequence memory (R93); the address is exact, not cut to 16
bits (R81; DESIGN CHOICE, log entry 28). -/
def hostWrite (s : State) (addr : Nat) (v : Word32) : Host.Outcome State Fault Refusal :=
  if addr < s.params.hostseqWords then
    .next { s with hostMem := writeHostWord s.params.byteOrder s.hostMem addr v }
  else .fault .hostAddress

end Sys2Proof.Machine
end

