-- ==== Sys2Proof/Machine/Flags.lean ====
section
/-! DEFINITION. The status flags of 10_state.md R59 and how arm, disarm, bind and release set and clear
them, the enumeration codes (R32, R39, R45, R300), and the 0/1 results of the queries. The block has no
condition codes. -/

namespace Sys2Proof.Machine

/-- `arm()` (R156); `capEn` is written last (R91). -/
def arm (r : Receiver) : Receiver :=
  { r with capLen := 0#8, capReady := false, haveLast := false, capEn := true }

/-- `disarm()` (R159): buffer and length are kept. -/
def disarm (r : Receiver) : Receiver := { r with capEn := false }

/-- The flag half of `release()` (R171): `bound <- 0`. -/
def unbound (r : Receiver) : Receiver := { r with bound := false }

/-- An accepted start's entry into Receiving (R172, R174): bound, armed, the start time taken. -/
def enterBound (r : Receiver) (tMs : Word64) : Receiver :=
  { arm { r with bound := true } with rxStartMs := tMs, rxState := .receiving }

/-- The periodic re-entry into Receiving (R186): armed, the start time taken, the binding kept. -/
def reenter (r : Receiver) (tMs : Word64) : Receiver :=
  { arm r with rxStartMs := tMs, rxState := .receiving }

/-- A stop (R173, R175), all but its response: disarmed, not periodic, released, Idle. -/
def stopped (r : Receiver) : Receiver :=
  { unbound { disarm r with periodic := false } with rxState := .idle }

/-- 1 or 0 for a `bool` result (R101). -/
def boolWord (b : Bool) : Word32 := if b then 1#32 else 0#32

/-- The code of `RxState` (R32). -/
def rxStateCode : RxState → BitVec 3
  | .idle => 0#3
  | .receiving => 1#3
  | .signalDetected => 2#3
  | .timeout => 3#3
  | .decoding => 4#3

/-- The code of `Protocol` (R39). -/
def protocolCode : Protocol → BitVec 3
  | .nec => 0#3
  | .sony => 1#3
  | .rc5 => 2#3
  | .raw => 3#3
  | .unknown => 4#3

/-- The code of `TxState` (R45). -/
def txStateCode : TxState → BitVec 2
  | .idle => 0#2
  | .transmitting => 1#2
  | .complete => 2#2
  | .error => 3#2

/-- The code of `STAT` (R300). -/
def statusCode : Status → BitVec 2
  | .ok => 0#2
  | .busy => 1#2
  | .invalidConfig => 2#2
  | .illegal => 3#2

end Sys2Proof.Machine
end

