-- ==== Sys2Proof/Machine/Lifecycle.lean ====
section
/-! DEFINITION. TEARDOWN, the lifecycle strobe of 70_reset_and_hazards.md. -/

namespace Sys2Proof.Machine

/-- TEARDOWN (R347): no response and no notification; `rxState` and `txState` are left as they are. -/
def execTeardown (s : State) : Host.Outcome State Fault Refusal :=
  onSelf s fun b =>
    let r := unbound { disarm b.rx with periodic := false }
    let t := pinOut b.tx s.port.tUs false
    .next (putSelf (unbindPin s b) { b with rx := r, tx := t, dead := true })

end Sys2Proof.Machine
end

