-- ==== Sys2Proof/Machine/Capture.lean ====
section
/-! DEFINITION. The pulse capture buffer of 40_capture.md: the EDGE input and the snapshot. -/

namespace Sys2Proof.Machine

/-- Appends an interval to the live buffer, and stops capture at 127 entries (R154). -/
def appendInterval (r : Receiver) (d : Word32) : Except Fault Receiver :=
  if r.capLen.toNat < seqMax then
    let r' := { r with
      capBuf := writeCell r.capBuf r.capLen.toNat d
      capLen := r.capLen + 1#8 }
    if r'.capLen.toNat = capFull then .ok { r' with capEn := false, capReady := true }
    else .ok r'
  else .error .bufferIndex

/-- An edge at `tUs` on the pin bound to this receiver (R150 to R155). -/
def edgeStep (r : Receiver) (tUs : Word64) : Except Fault Receiver :=
  if !r.capEn then .ok r
  else if !r.haveLast then .ok { r with lastEdgeUs := tUs, haveLast := true }
  else
    let d := delta tUs r.lastEdgeUs
    let r := { r with lastEdgeUs := tUs }
    if r.pwMin.toNat ≤ d.toNat ∧ d.toNat ≤ r.pwMax.toNat then appendInterval r (d.setWidth 32)
    else .ok r

/-- EDGE (R150): delivered to the live instance that the pin is bound to (R58, R62), else without effect
(R151). -/
def execEdge (s : State) : Host.Outcome State Fault Refusal :=
  match readCell? s.pinOwner s.port.pin with
  | none => .next s
  | some k =>
    match s.blocks[k]? with
    | none => .next s
    | some b =>
      if b.dead then .next s
      else
        match edgeStep b.rx s.port.tUs with
        | .error f => .fault f
        | .ok r => .next (putBlock s k { b with rx := r })

/-- `snapshot()` (R157): the live buffer's entries are copied to the frozen copy and the live buffer is
reset. Entries of the frozen copy past the new length keep their values. -/
def snapshot (r : Receiver) : Except Fault Receiver :=
  match readCells? r.capBuf 0 r.capLen.toNat with
  | none => .error .unwrittenCell
  | some xs =>
    .ok { r with
      rawBuf := writeCells r.rawBuf 0 xs
      rawLen := r.capLen
      capLen := 0#8
      capReady := false }

end Sys2Proof.Machine
end

