-- ==== Sys2Proof/Machine/Classifier.lean ====
section
/-! DEFINITION. The protocol classifier of 42_decoder.md: a pure function of a frozen sequence. A
sequence is the list of its present intervals, so an index at or past its length is absent (R201). -/

namespace Sys2Proof.Machine

/-- A classified result `(protocol, value, valid)` (R200). -/
structure Classified where
  proto : Protocol
  value : Word32
  valid : Bool
  deriving DecidableEq, Repr

/-- The bit a mark and a space of an NEC bit position stand for (R202, R203). -/
def necBit (mark space : Word32) : Option Bool :=
  if !win mark 562 200 then none
  else if win space 562 200 then some false
  else if win space 1687 300 then some true
  else none

/-- The first `k` bit positions of an NEC frame, first bit most significant (R203, R204). -/
def necBits (s : List Word32) : Nat → Option Word32
  | 0 => some 0#32
  | k + 1 =>
    match necBits s k, s[2 + 2 * k]?, s[3 + 2 * k]? with
    | some v, some mark, some space =>
      match necBit mark space with
      | some b => some ((v <<< 1) ||| (if b then 1#32 else 0#32))
      | none => none
    | _, _, _ => none

/-- `matchNEC` (R203). -/
def matchNec (s : List Word32) : Option Word32 :=
  if s.length < necMin then none
  else match s[0]?, s[1]? with
    | some m, some sp => if win m 9000 1000 && win sp 4500 500 then necBits s 32 else none
    | _, _ => none

/-- The bit a mark and a space of a Sony bit position stand for (R202, R205). -/
def sonyBit (mark space : Word32) : Option Bool :=
  if !win space 600 200 then none
  else if win mark 1200 300 then some true
  else if win mark 600 200 then some false
  else none

/-- The first `k` bit positions of a Sony frame, first bit least significant; a position whose space is
absent ends the frame, which is then accepted in part (R205). -/
def sonyBits (s : List Word32) : Nat → Option Word16
  | 0 => some 0#16
  | k + 1 =>
    match sonyBits s k with
    | none => none
    | some v =>
      match s[2 + 2 * k]?, s[3 + 2 * k]? with
      | some mark, some space =>
        match sonyBit mark space with
        | some b => some (v ||| ((if b then 1#16 else 0#16) <<< k))
        | none => none
      | _, _ => some v

/-- `matchSony` (R205). -/
def matchSony (s : List Word32) : Option Word32 :=
  if s.length < sonyMin then none
  else match s[0]?, s[1]? with
    | some m, some sp =>
      if win m 2400 300 && win sp 600 200 then (sonyBits s 12).map (BitVec.setWidth 32) else none
    | _, _ => none

/-- The first `k` pairs of an RC5 frame, each good pair a 1 (R207, R208). -/
def rc5Bits (s : List Word32) : Nat → Option Word32
  | 0 => some 0#32
  | k + 1 =>
    match rc5Bits s k, s[2 * k]?, s[2 * k + 1]? with
    | some v, some a, some b =>
      if win a 889 222 && win b 889 222 then some ((v <<< 1) ||| 1#32) else none
    | _, _, _ => none

/-- `matchRC5` (R207). -/
def matchRc5 (s : List Word32) : Option Word32 :=
  if s.length < rc5Min then none else rc5Bits s 14

/-- `Decode(s, n)` (R200): NEC, then Sony, then RC5, else Raw. -/
def classify (s : List Word32) : Classified :=
  match matchNec s with
  | some v => { proto := .nec, value := v, valid := true }
  | none =>
    match matchSony s with
    | some v => { proto := .sony, value := v, valid := true }
    | none =>
      match matchRc5 s with
      | some v => { proto := .rc5, value := v, valid := true }
      | none => { proto := .raw, value := 0#32, valid := false }

end Sys2Proof.Machine
end

