-- ==== Sys2Proof/Machine/Receiver.lean ====
section
/-! DEFINITION. The receiver commands of 41_receiver.md. -/

namespace Sys2Proof.Machine

/-- RX_START (R172). -/
def execRxStart (s : State) : Host.Outcome State Fault Refusal :=
  onSelf s fun b =>
    if b.rx.rxState = .receiving then answer s b 0#32 .busy
    else if heldByOther s b then answer s b 0#32 .busy
    else answer (bindPin s b) { b with rx := enterBound b.rx s.port.tMs } 1#32 .ok

/-- RX_STOP (R173). -/
def execRxStop (s : State) : Host.Outcome State Fault Refusal :=
  onSelf s fun b => answer (unbindPin s b) { b with rx := stopped b.rx } 1#32 .ok

/-- RX_START_PERIODIC (R174). -/
def execRxStartPeriodic (h : Word32) (s : State) : Host.Outcome State Fault Refusal :=
  onSelf s fun b =>
    if b.rx.rxState = .receiving then answer s b 0#32 .busy
    else if heldByOther s b then answer s b 0#32 .busy
    else
      let r := { b.rx with rxCb := h, periodic := true }
      answer (bindPin s b) { b with rx := enterBound r s.port.tMs } 1#32 .ok

/-- RX_STOP_PERIODIC (R175). -/
def execRxStopPeriodic (s : State) : Host.Outcome State Fault Refusal :=
  onSelf s fun b => answer (unbindPin s b) { b with rx := stopped b.rx } 0#32 .ok

/-- RX_IS_RECEIVING (R176). -/
def execRxIsReceiving (s : State) : Host.Outcome State Fault Refusal :=
  onSelf s fun b => answer s b (boolWord (decide (b.rx.rxState = .receiving))) .ok

/-- RX_IS_DETECTED (R177). -/
def execRxIsDetected (s : State) : Host.Outcome State Fault Refusal :=
  onSelf s fun b => answer s b (boolWord (decide (b.rx.rxState = .signalDetected))) .ok

/-- RX_GET_CODE (R178). -/
def execRxGetCode (s : State) : Host.Outcome State Fault Refusal :=
  onSelf s fun b => answer s b b.rx.rxCode .ok

/-- RX_GET_PROTOCOL (R179): the code, zero-extended. -/
def execRxGetProtocol (s : State) : Host.Outcome State Fault Refusal :=
  onSelf s fun b => answer s b ((protocolCode b.rx.rxProto).setWidth 32) .ok

/-- RX_GET_RAW_LEN (R180). -/
def execRxGetRawLen (s : State) : Host.Outcome State Fault Refusal :=
  onSelf s fun b => answer s b (b.rx.rawLen.setWidth 32) .ok

/-- RX_GET_RAW (R181). -/
def execRxGetRaw (i : Word32) (s : State) : Host.Outcome State Fault Refusal :=
  onSelf s fun b =>
    if i.toNat < b.rx.rawLen.toNat then
      match readCell? b.rx.rawBuf i.toNat with
      | some v => answer s b v .ok
      | none => .fault .unwrittenCell
    else answer s b 0#32 .invalidConfig

/-- RX_SET_CALLBACK (R182). -/
def execRxSetCallback (h : Word32) (s : State) : Host.Outcome State Fault Refusal :=
  onSelf s fun b => answer s { b with rx := { b.rx with rxCb := h } } 0#32 .ok

/-- RX_SET_TIMEOUT (R188). -/
def execRxSetTimeout (ms : Word32) (s : State) : Host.Outcome State Fault Refusal :=
  onSelf s fun b =>
    if timeoutMin ≤ ms.toNat ∧ ms.toNat ≤ timeoutMax then
      answer s { b with rx := { b.rx with timeoutMs := ms } } 0#32 .ok
    else answer s b 0#32 .invalidConfig

/-- RX_SET_MIN_PW (R189). -/
def execRxSetMinPw (us : Word32) (s : State) : Host.Outcome State Fault Refusal :=
  onSelf s fun b => answer s { b with rx := { b.rx with pwMin := us } } 0#32 .ok

/-- RX_SET_MAX_PW (R190). -/
def execRxSetMaxPw (us : Word32) (s : State) : Host.Outcome State Fault Refusal :=
  onSelf s fun b => answer s { b with rx := { b.rx with pwMax := us } } 0#32 .ok

/-- The decode step (R184), from Decoding to SignalDetected in one transition. -/
def decodeStep (b : Block) : Except Fault Block :=
  match snapshot { b.rx with rxState := .decoding } with
  | .error f => .error f
  | .ok r =>
    match readCells? r.rawBuf 0 r.rawLen.toNat with
    | none => .error .unwrittenCell
    | some xs =>
      let c := classify xs
      let r := { r with rxCode := c.value, rxProto := c.proto, rxValid := c.valid }
      let b := notifyRx { b with rx := r } c.value c.proto c.valid
      .ok { b with rx := { b.rx with rxState := .signalDetected } }

/-- The timeout step (R185). -/
def timeoutStep (b : Block) : Block :=
  let r := { disarm b.rx with rxCode := 0#32, rxProto := .unknown, rxValid := false }
  let b := notifyRx { b with rx := r } 0#32 .unknown false
  { b with rx := { b.rx with rxState := .timeout } }

/-- `delta(t_ms, rxStartMs) > timeoutMs` (R183, R313). -/
def timedOut (r : Receiver) (tMs : Word64) : Bool :=
  decide (r.timeoutMs.toNat < (delta tMs r.rxStartMs).toNat)

/-- The exit step (R186): re-armed when periodic, else released and Idle. -/
def exitStep (s : State) (b : Block) : State × Block :=
  if b.rx.periodic then (s, { b with rx := reenter b.rx s.port.tMs })
  else (unbindPin s b, { b with rx := { unbound b.rx with rxState := .idle } })

/-- RX_UPDATE (R183 to R187). -/
def execRxUpdate (s : State) : Host.Outcome State Fault Refusal :=
  onSelf s fun b =>
    match b.rx.rxState with
    | .idle => answer s b 0#32 .ok
    | .receiving =>
      if b.rx.capReady then
        match decodeStep b with
        | .error f => .fault f
        | .ok b' => answer s b' 0#32 .ok
      else if timedOut b.rx s.port.tMs then answer s (timeoutStep b) 0#32 .ok
      else answer s b 0#32 .ok
    | .signalDetected | .timeout => answer (exitStep s b).1 (exitStep s b).2 0#32 .ok
    | .decoding => .fault .decodingHeld

end Sys2Proof.Machine
end

