-- ==== Sys2Proof/Machine/Encoder.lean ====
section
/-! DEFINITION. The protocol encoder of 44_encoder.md: pure functions from a code to a fixed-length
sequence of durations in µs. -/

namespace Sys2Proof.Machine

/-- Mark and space of one NEC bit (R261). -/
def necPair (b : Bool) : List Word32 := [562#32, if b then 1687#32 else 562#32]

/-- The pairs of the `n` low bits of `c`, most significant first (R261). -/
def necPairs (c : Word32) : Nat → List Word32
  | 0 => []
  | n + 1 => necPair (c.getLsbD n) ++ necPairs c n

/-- `EncodeNEC(c)` (R261): preamble, 32 bits MSB first, trailing mark, and the 0 µs entry 67 (R262). -/
def encodeNec (c : Word32) : List Word32 :=
  [9000#32, 4500#32] ++ necPairs c 32 ++ [562#32, 0#32]

/-- Mark and space of one Sony bit (R263). -/
def sonyPair (b : Bool) : List Word32 := [if b then 1200#32 else 600#32, 600#32]

/-- The pairs of bits `k .. k+n-1` of `c`, least significant first (R263). -/
def sonyPairs (c : Word16) (k : Nat) : Nat → List Word32
  | 0 => []
  | n + 1 => sonyPair (c.getLsbD k) ++ sonyPairs c (k + 1) n

/-- `EncodeSony(c)` (R263): preamble, then `c[11:0]` LSB first. -/
def encodeSony (c : Word16) : List Word32 := [2400#32, 600#32] ++ sonyPairs c 0 12

/-- The frame word `F = 0x3000 | c[11:0]` (R264): two start bits, then 12 payload bits. -/
def rc5Frame (c : Word16) : Word16 := 0x3000#16 ||| (c &&& 0x0FFF#16)

/-- The two half-bits of one RC5 bit: 0 is mark then space, 1 is space then mark; the order cannot be
represented by durations, and both halves last 889 µs (R264). -/
def rc5Pair (b : Bool) : List Word32 := if b then [889#32, 889#32] else [889#32, 889#32]

/-- The pairs of the `n` low bits of `f`, most significant first (R264). -/
def rc5Pairs (f : Word16) : Nat → List Word32
  | 0 => []
  | n + 1 => rc5Pair (f.getLsbD n) ++ rc5Pairs f n

/-- `EncodeRC5(c)` (R264). -/
def encodeRc5 (c : Word16) : List Word32 := rc5Pairs (rc5Frame c) 14

end Sys2Proof.Machine
end

