-- ==== Sys2Proof/Machine/Transmitter.lean ====
section
/-! DEFINITION. The transmitter commands and the modulation engine of 43_transmitter.md. -/

namespace Sys2Proof.Machine

/-- `startTx(src, len, t_us)` (R230). -/
def startTx (t : Transmitter) (src : SeqSrc) (len : Word8) (tUs : Word64) : Transmitter :=
  let t := { t with
    seqSrc := src, seqLen := len, txIdx := 0#8, idxStartUs := tUs, repeatsDone := 0#8,
    inGap := false }
  { pinOut t tUs false with lastToggleUs := tUs, txState := .transmitting }

/-- The encoder's output of length `len` written to `txBuf` from entry 0 (R265), and the transmission
started. -/
def startEncoded (b : Block) (xs : List Word32) (len : Nat) (tUs : Word64) : Block :=
  let t := { b.tx with txBuf := writeCells b.tx.txBuf 0 xs }
  { b with tx := startTx t .internal (BitVec.ofNat 8 len) tUs }

/-- TX_NEC (R231). -/
def execTxNec (c : Word32) (s : State) : Host.Outcome State Fault Refusal :=
  onSelf s fun b =>
    if b.tx.txState = .transmitting then answer s b 0#32 .busy
    else answer s (startEncoded b (encodeNec c) necLen s.port.tUs) 1#32 .ok

/-- TX_RC5 (R232). -/
def execTxRc5 (c : Word16) (s : State) : Host.Outcome State Fault Refusal :=
  onSelf s fun b =>
    if b.tx.txState = .transmitting then answer s b 0#32 .busy
    else answer s (startEncoded b (encodeRc5 c) rc5Len s.port.tUs) 1#32 .ok

/-- TX_SONY (R233). -/
def execTxSony (c : Word16) (s : State) : Host.Outcome State Fault Refusal :=
  onSelf s fun b =>
    if b.tx.txState = .transmitting then answer s b 0#32 .busy
    else answer s (startEncoded b (encodeSony c) sonyLen s.port.tUs) 1#32 .ok

/-- The operand check of TX_RAW (R234), `BASE + LEN` without wrap. Above 65536 words of host memory it lets
a reference pass word 0xFFFF, which R81's 16-bit address leaves open (DESIGN CHOICE, log entry 28). -/
def rawRefused (p : Params) (base len : Word16) : Bool :=
  decide (len.toNat = 0) || decide (seqMax < len.toNat) ||
    decide (p.hostseqWords < base.toNat + len.toNat)

/-- TX_RAW (R234): nothing is copied. -/
def execTxRaw (base len : Word16) (s : State) : Host.Outcome State Fault Refusal :=
  onSelf s fun b =>
    if b.tx.txState = .transmitting then answer s b 0#32 .busy
    else if rawRefused s.params base len then answer s b 0#32 .invalidConfig
    else
      let t := startTx b.tx (.host base) (len.setWidth 8) s.port.tUs
      answer s { b with tx := t } 1#32 .ok

/-- `half = 1000000 div (2 * carrierHz)` (R242). -/
def halfPeriod (carrierHz : Word32) : Nat := 1000000 / (2 * carrierHz.toNat)

/-- `carrier(t_us)` (R242). -/
def carrier (t : Transmitter) (tUs : Word64) : Transmitter :=
  if halfPeriod t.carrierHz ≤ (delta tUs t.lastToggleUs).toNat then
    { pinOut t tUs (!t.txPin) with lastToggleUs := tUs }
  else t

/-- `endOfFrame(t_us)` (R239): the gap before a repeat, or Complete and its notification. -/
def endOfFrame (b : Block) (tUs : Word64) : Block :=
  if b.tx.repeatsDone.toNat < b.tx.repeatCount.toNat then
    let t := { b.tx with repeatsDone := b.tx.repeatsDone + 1#8, inGap := true, gapStartUs := tUs }
    { b with tx := pinOut t tUs false }
  else
    notifyTx { b with tx := pinOut { b.tx with txState := .complete } tUs false } true

/-- `cur(i)` (R238): entry `i` of the current sequence, and the state after the read. -/
def curInterval (s : State) (t : Transmitter) : Except Fault (Word32 × State) :=
  match t.seqSrc with
  | .none => .error .unwrittenCell
  | .internal =>
    match readCell? t.txBuf t.txIdx.toNat with
    | some d => .ok (d, s)
    | none => .error .unwrittenCell
  | .host base => memRead s (base.toNat + t.txIdx.toNat)

/-- The step within the current interval of duration `d` (R238): carrier in a mark, low in a space, or
on to the next index, without touching the pin unless the frame ends. -/
def intervalStep (b : Block) (d : Word32) (tUs : Word64) : Block :=
  if (delta tUs b.tx.idxStartUs).toNat < d.toNat then
    if b.tx.txIdx.toNat % 2 = 0 then { b with tx := carrier b.tx tUs }
    else { b with tx := pinOut b.tx tUs false }
  else
    let b := { b with tx := { b.tx with txIdx := b.tx.txIdx + 1#8, idxStartUs := tUs } }
    if b.tx.txIdx = b.tx.seqLen then endOfFrame b tUs else b

/-- `gapStep(t_us)` (R240). -/
def gapStep (t : Transmitter) (tUs : Word64) : Transmitter :=
  let t := pinOut t tUs false
  if ifgUs ≤ (delta tUs t.gapStartUs).toNat then
    { t with inGap := false, txIdx := 0#8, idxStartUs := tUs }
  else t

/-- `errorStep()` (R241). -/
def errorStep (b : Block) (tUs : Word64) : Block :=
  notifyTx { b with tx := pinOut { b.tx with txState := .error } tUs false } false

/-- TX_UPDATE (R235 to R242). -/
def execTxUpdate (s : State) : Host.Outcome State Fault Refusal :=
  onSelf s fun b =>
    match b.tx.txState with
    | .idle => answer s b 0#32 .ok
    | .complete | .error => answer s { b with tx := { b.tx with txState := .idle } } 0#32 .ok
    | .transmitting =>
      if b.tx.seqSrc = .none then answer s (errorStep b s.port.tUs) 0#32 .ok
      else if b.tx.inGap then answer s { b with tx := gapStep b.tx s.port.tUs } 0#32 .ok
      else
        match curInterval s b.tx with
        | .error f => .fault f
        | .ok (d, s') => answer s' (intervalStep b d s.port.tUs) 0#32 .ok

/-- TX_IS_TRANSMITTING (R243). -/
def execTxIsTransmitting (s : State) : Host.Outcome State Fault Refusal :=
  onSelf s fun b => answer s b (boolWord (decide (b.tx.txState = .transmitting))) .ok

/-- TX_IS_COMPLETE (R244). -/
def execTxIsComplete (s : State) : Host.Outcome State Fault Refusal :=
  onSelf s fun b => answer s b (boolWord (decide (b.tx.txState = .complete))) .ok

/-- TX_SET_CALLBACK (R245). -/
def execTxSetCallback (h : Word32) (s : State) : Host.Outcome State Fault Refusal :=
  onSelf s fun b => answer s { b with tx := { b.tx with txCb := h } } 0#32 .ok

/-- TX_SET_CARRIER (R246). -/
def execTxSetCarrier (f : Word32) (s : State) : Host.Outcome State Fault Refusal :=
  onSelf s fun b =>
    if f.toNat < carrierMin ∨ carrierMax < f.toNat then answer s b 0#32 .invalidConfig
    else answer s { b with tx := { b.tx with carrierHz := f } } 0#32 .ok

/-- TX_SET_POWER (R247): stored, read by no rule. -/
def execTxSetPower (p : Word8) (s : State) : Host.Outcome State Fault Refusal :=
  onSelf s fun b => answer s { b with tx := { b.tx with power := p } } 0#32 .ok

/-- TX_SET_REPEAT (R248). -/
def execTxSetRepeat (n : Word8) (s : State) : Host.Outcome State Fault Refusal :=
  onSelf s fun b => answer s { b with tx := { b.tx with repeatCount := n } } 0#32 .ok

end Sys2Proof.Machine
end

