-- ==== Sys2Proof/Machine/Dispatch.lean ====
section
/-! DEFINITION. One arm for each instruction. -/

namespace Sys2Proof.Machine

def exec (i : Instr) (s : State) : Host.Outcome State Fault Refusal :=
  match i with
  | .rxStart => Sys2Proof.Machine.execRxStart s
  | .rxStop => Sys2Proof.Machine.execRxStop s
  | .rxStartPeriodic h => Sys2Proof.Machine.execRxStartPeriodic h s
  | .rxStopPeriodic => Sys2Proof.Machine.execRxStopPeriodic s
  | .rxUpdate => Sys2Proof.Machine.execRxUpdate s
  | .rxIsReceiving => Sys2Proof.Machine.execRxIsReceiving s
  | .rxIsDetected => Sys2Proof.Machine.execRxIsDetected s
  | .rxGetCode => Sys2Proof.Machine.execRxGetCode s
  | .rxGetProtocol => Sys2Proof.Machine.execRxGetProtocol s
  | .rxGetRawLen => Sys2Proof.Machine.execRxGetRawLen s
  | .rxGetRaw j => Sys2Proof.Machine.execRxGetRaw j s
  | .rxSetCallback h => Sys2Proof.Machine.execRxSetCallback h s
  | .rxSetTimeout ms => Sys2Proof.Machine.execRxSetTimeout ms s
  | .rxSetMinPw us => Sys2Proof.Machine.execRxSetMinPw us s
  | .rxSetMaxPw us => Sys2Proof.Machine.execRxSetMaxPw us s
  | .txNec c => Sys2Proof.Machine.execTxNec c s
  | .txRc5 c => Sys2Proof.Machine.execTxRc5 c s
  | .txSony c => Sys2Proof.Machine.execTxSony c s
  | .txRaw base len => Sys2Proof.Machine.execTxRaw base len s
  | .txUpdate => Sys2Proof.Machine.execTxUpdate s
  | .txIsTransmitting => Sys2Proof.Machine.execTxIsTransmitting s
  | .txIsComplete => Sys2Proof.Machine.execTxIsComplete s
  | .txSetCallback h => Sys2Proof.Machine.execTxSetCallback h s
  | .txSetCarrier f => Sys2Proof.Machine.execTxSetCarrier f s
  | .txSetPower p => Sys2Proof.Machine.execTxSetPower p s
  | .txSetRepeat n => Sys2Proof.Machine.execTxSetRepeat n s
  | .edge => Sys2Proof.Machine.execEdge s
  | .teardown => Sys2Proof.Machine.execTeardown s

end Sys2Proof.Machine
end

