-- ==== Sys2Proof/Machine/Fetch.lean ====
section
/-! DEFINITION. Taking one input: what the port latch takes from it, the port value it carries, and the
transition it makes. -/

namespace Sys2Proof.Machine

/-- The value an input puts on its port (R100, R102, R103); a host write is no port input. -/
def portWord? : Input → Option PortWord
  | .cmd _ w _ _ => some (.command w)
  | .edge _ _ => some (.edgePort 1#1)
  | .teardown _ _ => some (.lifecycle 1#1)
  | .hostWrite _ _ => none

/-- The port latch after an input: the block or pin, and the clock samples it carries (R312). -/
def latched (p : Port) : Input → Port
  | .cmd k _ tUs tMs => { p with block := k, tUs := tUs, tMs := tMs }
  | .edge pin tUs => { p with pin := pin, tUs := tUs }
  | .teardown k tUs => { p with block := k, tUs := tUs }
  | .hostWrite _ _ => p

/-- An input latched in the port. -/
def deliver (i : Input) (s : State) : State := { s with port := latched s.port i }

/-- One input as one atomic transition (R8): decode first (R107), then the instruction, or the response
to an illegal word (R108). Only the command port carries words that decode can refuse. -/
def runInput (i : Input) (s : State) : Host.Outcome State Fault Refusal :=
  match i with
  | .hostWrite addr v => hostWrite s addr v
  | .cmd _ w _ _ =>
    match decode (.command w) with
    | .instr ins => exec ins (deliver i s)
    | .illegal _ => illegalWord (deliver i s)
  | .edge _ _ => exec .edge (deliver i s)
  | .teardown _ _ => exec .teardown (deliver i s)

/-- The oldest input is taken; without one nothing moves (R7, R324). -/
def takeInput (s : State) : Host.Outcome State Fault Refusal :=
  match s.inputs with
  | [] => .next s
  | i :: rest => runInput i { s with inputs := rest }

/-- The input that carries a row's port value to the block and pin of the port latch, with its clock
samples. -/
def inputOf (p : Port) : PortWord → Input
  | .command w => .cmd p.block w p.tUs p.tMs
  | .edgePort _ => .edge p.pin p.tUs
  | .lifecycle _ => .teardown p.block p.tUs

/-- An instruction placed as the next input (log entry 2). -/
def placeNext (s : State) (pw : PortWord) : State :=
  { s with inputs := inputOf s.port pw :: s.inputs }

end Sys2Proof.Machine
end

