-- ==== Sys2Proof/Machine/Step.lean ====
section
/-! DEFINITION. One step: one input, as one atomic transition (00_scope.md R8). -/

namespace Sys2Proof.Machine

/-- One step of the machine. -/
def step (s : State) : Host.Outcome State Fault Refusal := takeInput s

/-- `s` with the row's instruction as the next input, so that `step` takes and runs exactly it. -/
def State.withFetchWord (s : State) (nbits w : Nat) : State := placeNext s (tableWord nbits w)

end Sys2Proof.Machine
end

