-- ==== Sys2Proof/Machine/Macros.lean ====
section
/-! DEFINITION. The host macros of 30_encoding.md (R114, R120, R121): sequences of commands that the
host issues, no commands themselves and no part of `step`. The host's clock readings, and the inputs
that other agents make while the host waits (R359), are arguments (log entry 22). -/

namespace Sys2Proof.Machine

/-- One round of a waiting loop: the inputs made before it, and the clock samples of its commands. -/
structure Tick where
  before : List Input
  tUs : Word64
  tMs : Word64
  deriving DecidableEq, Repr

/-- Inputs in order. -/
def runInputs : List Input → State → Host.Outcome State Fault Refusal
  | [], s => .next s
  | i :: rest, s => andThen (runInput i s) (runInputs rest)

/-- `issue(op arg)` to instance `k`: the state after it and the `RES` of its response. -/
def issue (k : Nat) (i : Instr) (tUs tMs : Word64) (s : State) :
    Host.Outcome (State × Word32) Fault Refusal :=
  andThen (exec i { s with port := { s.port with block := k, tUs := tUs, tMs := tMs } }) fun t =>
    match t.blocks[k]? with
    | none => .refused .noSuchBlock
    | some b => .next (t, match b.responses.getLast? with | some r => r.res | none => 0#32)

/-- `delta(t_ms, t0) > SAFETY_TIMEOUT_MS` (R120). -/
def safetyElapsed (s : State) (tMs t0 : Word64) : Bool :=
  decide (s.params.safetyTimeoutMs < (delta tMs t0).toNat)

/-- The loop of TX_SEND_BLOCKING (R120); `none` when the rounds given end before the loop does. -/
def txSendLoop (k : Nat) (t0 : Word64) :
    List Tick → State → Host.Outcome (State × Option Word32) Fault Refusal
  | [], s => .next (s, none)
  | t :: rest, s =>
    andThen (runInputs t.before s) fun s =>
    andThen (issue k .txUpdate t.tUs t.tMs s) fun p =>
    andThen (issue k .txIsTransmitting t.tUs t.tMs p.1) fun p =>
    if p.2 = 0#32 then
      andThen (issue k .txIsComplete t.tUs t.tMs p.1) fun p => .next (p.1, some p.2)
    else if safetyElapsed p.1 t.tMs t0 then .next (p.1, some 0#32)
    else txSendLoop k t0 rest p.1

/-- TX_SEND_BLOCKING (R120). -/
def txSendBlocking (k : Nat) (op : Instr) (tUs tMs : Word64) (ticks : List Tick) (s : State) :
    Host.Outcome (State × Option Word32) Fault Refusal :=
  andThen (issue k op tUs tMs s) fun p =>
  if p.2 = 0#32 then .next (p.1, some 0#32) else txSendLoop k tMs ticks p.1

/-- The loop of RX_RECEIVE_BLOCKING (R121). -/
def rxReceiveLoop (k : Nat) (t0 : Word64) :
    List Tick → State → Host.Outcome (State × Option Word32) Fault Refusal
  | [], s => .next (s, none)
  | t :: rest, s =>
    andThen (runInputs t.before s) fun s =>
    andThen (issue k .rxUpdate t.tUs t.tMs s) fun p =>
    andThen (issue k .rxIsReceiving t.tUs t.tMs p.1) fun p =>
    if p.2 = 0#32 ∨ safetyElapsed p.1 t.tMs t0 then
      andThen (issue k .rxIsDetected t.tUs t.tMs p.1) fun p => .next (p.1, some p.2)
    else rxReceiveLoop k t0 rest p.1

/-- RX_RECEIVE_BLOCKING (R121). -/
def rxReceiveBlocking (k : Nat) (tUs tMs : Word64) (ticks : List Tick) (s : State) :
    Host.Outcome (State × Option Word32) Fault Refusal :=
  andThen (issue k .rxStart tUs tMs s) fun p =>
  if p.2 = 0#32 then .next (p.1, some 0#32) else rxReceiveLoop k tMs ticks p.1

/-- RX_GET_RAW i for `n` indices from `i` on (R114). -/
def getRawFrom (k : Nat) (tUs tMs : Word64) :
    Nat → Nat → State → Host.Outcome (State × List Word32) Fault Refusal
  | _, 0, s => .next (s, [])
  | i, n + 1, s =>
    andThen (issue k (.rxGetRaw (BitVec.ofNat 32 i)) tUs tMs s) fun p =>
    andThen (getRawFrom k tUs tMs (i + 1) n p.1) fun q => .next (q.1, p.2 :: q.2)

/-- `GetRawData() -> (buffer, length)` (R114): RX_GET_RAW_LEN, then RX_GET_RAW for each index below it. -/
def getRawData (k : Nat) (tUs tMs : Word64) (s : State) :
    Host.Outcome (State × List Word32) Fault Refusal :=
  andThen (issue k .rxGetRawLen tUs tMs s) fun p => getRawFrom k tUs tMs 0 p.2.toNat p.1

end Sys2Proof.Machine
end

