-- ==== Sys2Proof/Safety.lean ====
section
/-! DEFINITION. The terms the statements use: an instance that takes inputs, what changes when only it
changes, the invariants of 10_state.md R61, the launch predicate and the pending work of
70_reset_and_hazards.md, an interval in its window (42_decoder.md R202), and the registers whose values a
rule may read. -/

namespace Sys2Proof.Machine

/-- `b` is the addressed instance and has not been torn down (R62). -/
def Live (s : State) (b : Block) : Prop := s.blocks[s.port.block]? = some b ∧ b.dead = false

/-- `s` with the addressed instance replaced and nothing else changed. -/
def withSelf (s : State) (b : Block) : State := { s with blocks := s.blocks.set s.port.block b }

/-- `b` with one more response and nothing else changed (R101). -/
def replied (b : Block) (res : Word32) (stat : Status) : Block :=
  { b with responses := b.responses ++ [⟨res, stat⟩] }

/-- Which side of the block an instruction belongs to: opcodes 0x10 to 0x1E, opcodes 0x20 to 0x2A (R106),
or neither, the inputs that are no commands (R102, R103). -/
inductive Side
  | receiver | transmitter | neither
  deriving DecidableEq, Repr

/-- The side of an instruction. -/
def sideOf : Instr → Side
  | .rxStart => .receiver
  | .rxStop => .receiver
  | .rxStartPeriodic _ => .receiver
  | .rxStopPeriodic => .receiver
  | .rxUpdate => .receiver
  | .rxIsReceiving => .receiver
  | .rxIsDetected => .receiver
  | .rxGetCode => .receiver
  | .rxGetProtocol => .receiver
  | .rxGetRawLen => .receiver
  | .rxGetRaw _ => .receiver
  | .rxSetCallback _ => .receiver
  | .rxSetTimeout _ => .receiver
  | .rxSetMinPw _ => .receiver
  | .rxSetMaxPw _ => .receiver
  | .txNec _ => .transmitter
  | .txRc5 _ => .transmitter
  | .txSony _ => .transmitter
  | .txRaw _ _ => .transmitter
  | .txUpdate => .transmitter
  | .txIsTransmitting => .transmitter
  | .txIsComplete => .transmitter
  | .txSetCallback _ => .transmitter
  | .txSetCarrier _ => .transmitter
  | .txSetPower _ => .transmitter
  | .txSetRepeat _ => .transmitter
  | .edge => .neither
  | .teardown => .neither

/-- `d` is the current interval `cur(txIdx)` (R238), whose read takes `draws` draws: an entry of the
encoder buffer, a host word that has been written, or the draw for one that has not (R95). -/
def CurrentInterval (s : State) (t : Transmitter) (d : Word32) (draws : Nat) : Prop :=
  (t.seqSrc = .internal ∧ readCell? t.txBuf t.txIdx.toNat = some d ∧ draws = 0) ∨
  ∃ base, t.seqSrc = .host base ∧ base.toNat + t.txIdx.toNat < s.params.hostseqWords ∧
    ((hostWord? s.params.byteOrder s.hostMem (base.toNat + t.txIdx.toNat) = some d ∧ draws = 0) ∨
     (hostWord? s.params.byteOrder s.hostMem (base.toNat + t.txIdx.toNat) = none ∧
      d = Config.drawWord s.drawCount ∧ draws = 1))

/-- A step within a frame: Transmitting, a sequence, no gap (R235, R238). -/
def InFrame (t : Transmitter) : Prop :=
  t.txState = .transmitting ∧ t.seqSrc ≠ .none ∧ t.inGap = false

/-- Time since the current index began (R238). -/
def indexElapsed (s : State) (t : Transmitter) : Nat := (s.port.tUs - t.idxStartUs).toNat

/-- The pin trace after the pin is driven to `l` at `tUs` (R17). -/
def tracedTo (t : Transmitter) (tUs : Word64) (l : Bool) : List PinChange :=
  if t.txPin = l then t.pinTrace else t.pinTrace ++ [⟨tUs, l⟩]

/-- `table` is the binding table of `s` with the entry of `pin` put to `owner` and no other changed. -/
def Rebound (s : State) (table : Cells Nat) (pin : Nat) (owner : Option Nat) : Prop :=
  readCell? table pin = owner ∧ ∀ p, p ≠ pin → readCell? table p = readCell? s.pinOwner p

/-- What `release()` makes of the binding table (R171): the entry of the instance's pin is emptied when
the instance is bound, and nothing changes when it is not. The table is taken in its canonical form. -/
def Released (s : State) (b : Block) (table : Cells Nat) : Prop :=
  (b.rx.bound = false → table = s.pinOwner) ∧
  (b.rx.bound = true → Cells.wf s.pinOwner = true → Rebound s table b.wiring.rxPin none)

/-- The pin is free or the addressed instance's own (R172). -/
def PinFreeOrOwn (s : State) (b : Block) : Prop :=
  readCell? s.pinOwner b.wiring.rxPin = none ∨
    readCell? s.pinOwner b.wiring.rxPin = some s.port.block

/-- Every entry below `n` has been written (R342). -/
def written (st : Cells Word32) (n : Nat) : Prop := ∀ i < n, (readCell? st i).isSome = true

/-- Every entry lies within the 128 of a buffer (R80). -/
def withinBuffer (st : Cells Word32) : Prop := ∀ e ∈ st, e.1 < 128

/-- The receiver's invariants (R61 items 1, 2, 4, 5; R33, R44, R342). -/
structure ReceiverInv (r : Receiver) : Prop where
  capLen_le : r.capLen.toNat ≤ 127
  ready_full : r.capReady = true → r.capLen.toNat = 127 ∧ r.capEn = false
  enabled_room : r.capEn = true → r.capLen.toNat < 127
  enabled_receiving : r.capEn = true → r.rxState = .receiving
  rawLen_cases : r.rawLen.toNat = 0 ∨ r.rawLen.toNat = 127
  not_decoding : r.rxState ≠ .decoding
  cap_written : written r.capBuf r.capLen.toNat
  raw_written : written r.rawBuf r.rawLen.toNat
  cap_wf : Cells.wf r.capBuf = true
  raw_wf : Cells.wf r.rawBuf = true
  cap_within : withinBuffer r.capBuf
  raw_within : withinBuffer r.rawBuf
  timeout_range : 100 ≤ r.timeoutMs.toNat ∧ r.timeoutMs.toNat ≤ 10000

/-- The level at the end of a pin trace that starts low (R17, R70). -/
def traceLevel (tr : List PinChange) : Bool :=
  match tr.getLast? with
  | some c => c.level
  | none => false

/-- Each entry of a pin trace that starts low changes the level (R17). -/
def alternates : Bool → List PinChange → Bool
  | _, [] => true
  | l, c :: rest => (c.level != l) && alternates c.level rest

/-- The transmitter's invariants (R61 items 6 to 9; R17, R55, R81, R342) for a host sequence memory of
`hostWords` words. -/
structure TransmitterInv (hostWords : Nat) (t : Transmitter) : Prop where
  running : t.txState = .transmitting →
    t.seqSrc ≠ .none ∧ 1 ≤ t.seqLen.toNat ∧ t.seqLen.toNat ≤ 128 ∧
      (t.inGap = false → t.txIdx.toNat < t.seqLen.toNat) ∧ (t.inGap = true → t.txIdx = t.seqLen)
  gap_transmitting : t.inGap = true → t.txState = .transmitting
  resting_low : t.txState ≠ .transmitting → t.txPin = false
  high_in_frame : t.txPin = true → t.txState = .transmitting ∧ t.inGap = false
  internal_written : t.seqSrc = .internal → written t.txBuf t.seqLen.toNat
  host_within : ∀ base, t.seqSrc = .host base → base.toNat + t.seqLen.toNat ≤ hostWords
  buf_wf : Cells.wf t.txBuf = true
  buf_within : withinBuffer t.txBuf
  carrier_range : 30000 ≤ t.carrierHz.toNat ∧ t.carrierHz.toNat ≤ 60000
  trace_level : traceLevel t.pinTrace = t.txPin
  trace_alternates : alternates false t.pinTrace = true

/-- The invariants of one instance. R61 item 3 holds of an instance that has not been torn down:
TEARDOWN releases the binding and keeps `rxState` (R347, log entry 11). -/
structure BlockInv (hostWords : Nat) (b : Block) : Prop where
  rx : ReceiverInv b.rx
  tx : TransmitterInv hostWords b.tx
  bound_iff : b.dead = false → (b.rx.bound = true ↔ b.rx.rxState ≠ .idle)
  dead_released : b.dead = true → b.rx.bound = false ∧ b.rx.capEn = false ∧ b.tx.txPin = false

/-- The binding table and the `bound` bits say the same (R43, R56, R321). -/
structure TableInv (s : State) : Prop where
  table_wf : Cells.wf s.pinOwner = true
  entry_bound : ∀ p k, readCell? s.pinOwner p = some k →
    ∃ b, s.blocks[k]? = some b ∧ b.rx.bound = true ∧ b.wiring.rxPin = p
  bound_entry : ∀ (k : Nat) (b : Block), s.blocks[k]? = some b → b.rx.bound = true →
    readCell? s.pinOwner b.wiring.rxPin = some k

/-- The invariants of every reachable state (R61). -/
structure Inv (s : State) : Prop where
  blocks : ∀ (k : Nat) (b : Block), s.blocks[k]? = some b → BlockInv s.params.hostseqWords b
  table : TableInv s
  mem_wf : Memory.wf s.hostMem = true

/-- An input that has a move: it addresses an instance that exists and has not been torn down, or is an
edge, or a host write of a word that exists (R58, R62, R81, R322). -/
def HasMove (s : State) (i : Input) : Prop :=
  i.wellFormed s.blocks.length s.params.hostseqWords = true ∧
    match i with
    | .cmd k _ _ _ => ∃ b, s.blocks[k]? = some b ∧ b.dead = false
    | .teardown k _ => ∃ b, s.blocks[k]? = some b ∧ b.dead = false
    | .edge _ _ => True
    | .hostWrite _ _ => True

/-- The values of the reset table R70 that the spec states, for one instance. -/
structure AtReset (b : Block) : Prop where
  rxState : b.rx.rxState = .idle
  lengths : b.rx.capLen = 0#8 ∧ b.rx.rawLen = 0#8
  flags : b.rx.capReady = false ∧ b.rx.capEn = false ∧ b.rx.haveLast = false
  result : b.rx.rxCode = 0#32 ∧ b.rx.rxProto = .unknown ∧ b.rx.rxValid = false
  session : b.rx.periodic = false ∧ b.rx.bound = false
  callbacks : b.rx.rxCb = 0#32 ∧ b.tx.txCb = 0#32
  rxConfig : b.rx.timeoutMs = 1000#32 ∧ b.rx.pwMin = 50#32 ∧ b.rx.pwMax = 10000#32
  txState : b.tx.txState = .idle
  sequence : b.tx.seqSrc = .none ∧ b.tx.seqLen = 0#8
  progress : b.tx.txIdx = 0#8 ∧ b.tx.repeatsDone = 0#8 ∧ b.tx.inGap = false
  pin : b.tx.txPin = false
  txConfig : b.tx.carrierHz = 38000#32 ∧ b.tx.power = 255#8 ∧ b.tx.repeatCount = 0#8
  alive : b.dead = false

/-- Its buffers hold no written cell (R70, R342). -/
def BuffersUnwritten (b : Block) : Prop :=
  ∀ i, readCell? b.rx.capBuf i = none ∧ readCell? b.rx.rawBuf i = none ∧
    readCell? b.tx.txBuf i = none

/-- `CleanEntry(k)` (R343): the reset table, and no entry of the binding table for its receive pin. -/
def CleanEntry (s : State) (k : Nat) : Prop :=
  ∃ b, s.blocks[k]? = some b ∧ AtReset b ∧ BuffersUnwritten b ∧
    readCell? s.pinOwner b.wiring.rxPin = none

/-- The boot premises that are values of the machine (R345 items 2 and 3, R321): the binding table is
empty, and the transmit pins are pairwise distinct. -/
def BootPremises (s : State) : Prop :=
  s.pinOwner = [] ∧ (s.blocks.map (fun b => b.wiring.txPin)).Nodup

/-- Work still pending at the end of a run (R360). -/
def Pending (b : Block) : Prop :=
  b.tx.txState = .transmitting ∨ b.rx.rxState = .receiving ∨ b.rx.rxState = .signalDetected ∨
    b.rx.rxState = .timeout

/-- Interval `i` of a sequence is present and lies in the closed window `[lo, hi]` (R201, R202). -/
def InWindow (s : List Word32) (i lo hi : Nat) : Prop :=
  ∃ d, s[i]? = some d ∧ lo ≤ d.toNat ∧ d.toNat ≤ hi

/-- A receiver with the timestamps that no rule may read put to 0: `lastEdgeUs` while `haveLast` is 0,
`rxStartMs` outside Receiving (R37, R40, R342). -/
def maskRx (r : Receiver) : Receiver :=
  { r with
    lastEdgeUs := if r.haveLast then r.lastEdgeUs else 0#64
    rxStartMs := if r.rxState = .receiving then r.rxStartMs else 0#64 }

/-- A transmitter with the timestamps that no rule may read put to 0: `idxStartUs` and `lastToggleUs`
outside Transmitting, `gapStartUs` while `inGap` is 0 (R49, R51, R52, R342). -/
def maskTx (t : Transmitter) : Transmitter :=
  { t with
    idxStartUs := if t.txState = .transmitting then t.idxStartUs else 0#64
    lastToggleUs := if t.txState = .transmitting then t.lastToggleUs else 0#64
    gapStartUs := if t.inGap then t.gapStartUs else 0#64 }

/-- A state with the timestamps of every instance that no rule may read put to 0 (R342). -/
def maskState (s : State) : State :=
  { s with blocks := s.blocks.map fun b => { b with rx := maskRx b.rx, tx := maskTx b.tx } }

/-- An outcome with its next state masked. -/
def maskOutcome (o : Host.Outcome State Fault Refusal) : Host.Outcome State Fault Refusal :=
  match o with
  | .next t => .next (maskState t)
  | .fault f => .fault f
  | .refused r => .refused r

end Sys2Proof.Machine
end

