-- ==== Sys2Proof/Certificates/Slice0/Obligations.lean ====
section
/-! DEFINITION. The statements for the provers, in the order of the spec's files. -/

open Sys2Proof Sys2Proof.Machine

/-! 30_encoding.md -/

/-- Decoding the port value of an instruction gives the instruction back, with every operand at every
value: no bit of an operand is dropped (R105, R106, R107, R112). -/
def Obligations.DecodeInvertsEncode : Prop :=
  ∀ i : Instr, decode (encode i) = .instr i

/-- Each port value has at most one meaning, and the encoder gives it back (R106, R107). -/
def Obligations.EncodeInvertsDecode : Prop :=
  ∀ (pw : PortWord) (i : Instr), decode pw = .instr i → encode i = pw

/-- Words written out from R100, R106 and R112, each with the instruction it stands for. -/
def Obligations.SampleWordsDecode : Prop :=
  decode (.command 0x0000000000000010#64) = .instr .rxStart ∧
  decode (.command 0x0000000700000012#64) = .instr (.rxStartPeriodic 7#32) ∧
  decode (.command 0x0000007E0000001A#64) = .instr (.rxGetRaw 126#32) ∧
  decode (.command 0x000003E80000001C#64) = .instr (.rxSetTimeout 1000#32) ∧
  decode (.command 0x00FF00FF00000020#64) = .instr (.txNec 0x00FF00FF#32) ∧
  decode (.command 0x0000012300000021#64) = .instr (.txRc5 0x0123#16) ∧
  decode (.command 0x0003001000000023#64) = .instr (.txRaw 0x10#16 3#16) ∧
  decode (.command 0x000000FF00000029#64) = .instr (.txSetPower 255#8) ∧
  decode (.edgePort 1#1) = .instr .edge ∧ decode (.lifecycle 1#1) = .instr .teardown

/-- R108: a word is illegal exactly when its opcode is unassigned, a reserved bit is set, or an operand
bit is set that its class requires to be 0; an illegal word leaves its instance one response
`(0, ILLEGAL)` and changes nothing else. -/
def Obligations.IllegalWordsAndTheirEffect : Prop :=
  ∀ w : Word64,
    ((∃ why, decode (.command w) = .illegal why) ↔
      let opc := (w.extractLsb' 0 8).toNat
      (opc < 0x10 ∨ opc = 0x1F ∨ 0x2A < opc) ∨ w.extractLsb' 8 24 ≠ 0#24 ∨
      (opc ∈ [0x10, 0x11, 0x13, 0x14, 0x15, 0x16, 0x17, 0x18, 0x19, 0x24, 0x25, 0x26] ∧
        w.extractLsb' 32 32 ≠ 0#32) ∨
      (opc ∈ [0x21, 0x22] ∧ w.extractLsb' 48 16 ≠ 0#16) ∨
      (opc ∈ [0x29, 0x2A] ∧ w.extractLsb' 40 24 ≠ 0#24)) ∧
    ∀ (why : IllegalReason) (s : State) (k : Nat) (b : Block) (tUs tMs : Word64) (rest : List Input),
      decode (.command w) = .illegal why → s.inputs = .cmd k w tUs tMs :: rest →
      s.blocks[k]? = some b → b.dead = false →
      step s = .next { s with
        inputs := rest
        port := { s.port with block := k, tUs := tUs, tMs := tMs }
        blocks := s.blocks.set k (replied b 0#32 .illegal) }

/-! The step (00_scope.md, 20_memory.md). -/

/-- A step takes the oldest input, latches what it carries, and is `exec` of the instruction decoded;
without an input nothing changes. -/
def Obligations.StepRunsDecodedInstruction : Prop :=
  ∀ (s : State) (rest : List Input),
    (∀ k w tUs tMs ins, s.inputs = .cmd k w tUs tMs :: rest → decode (.command w) = .instr ins →
      step s = exec ins { s with
        inputs := rest, port := { s.port with block := k, tUs := tUs, tMs := tMs } }) ∧
    (∀ pin tUs, s.inputs = .edge pin tUs :: rest →
      step s = exec .edge { s with inputs := rest, port := { s.port with pin := pin, tUs := tUs } }) ∧
    (∀ k tUs, s.inputs = .teardown k tUs :: rest →
      step s = exec .teardown { s with
        inputs := rest, port := { s.port with block := k, tUs := tUs } }) ∧
    (s.inputs = [] → step s = .next s)

/-- A row of the opcode table placed as the next input runs as its instruction in the state it was
placed in (log entry 2). -/
def Obligations.PlacedRowRunsAsItsInstruction : Prop :=
  ∀ (s : State) (nbits w : Nat) (i : Instr), decodeTableWord nbits w = some i →
    step (s.withFetchWord nbits w) = exec i s

/-- R93, R82: the host's write of a word is seen by every later read of that word, byte by byte in the
byte order, every other byte and word is unchanged, and nothing but host memory changes (that it is one
memory for all instances is the model's choice, log entry 27); a word past
the end of host memory does not exist (R81). -/
def Obligations.HostWriteIsSeenByReads : Prop :=
  ∀ (s : State) (a : Nat) (v : Word32) (rest : List Input), s.inputs = .hostWrite a v :: rest →
    (s.params.hostseqWords ≤ a → step s = .fault .hostAddress) ∧
    (a < s.params.hostseqWords → ∃ m, step s = .next { s with inputs := rest, hostMem := m } ∧
      hostWord? s.params.byteOrder m a = some v ∧
      (∀ j, j ≠ a → hostWord? s.params.byteOrder m j = hostWord? s.params.byteOrder s.hostMem j) ∧
      (∀ n, n < 4 → readCell? m (4 * a + n) = some (v.extractLsb'
        (8 * match s.params.byteOrder with | .little => n | .big => 3 - n) 8)) ∧
      ∀ x, x < 4 * a ∨ 4 * a + 4 ≤ x → readCell? m x = readCell? s.hostMem x)

/-- No instruction writes host memory, a parameter, the wiring, the number of instances, the input port
or the inputs still to come (R9, R16, R345). -/
def Obligations.FixedByEveryInstruction : Prop :=
  ∀ (i : Instr) (s t : State), exec i s = .next t →
    t.hostMem = s.hostMem ∧ t.params = s.params ∧ t.port = s.port ∧ t.inputs = s.inputs ∧
    t.blocks.map Block.wiring = s.blocks.map Block.wiring

/-- In canonical form, memories that read alike are equal, and every write keeps the form. -/
def Obligations.CanonicalMemoriesAreEqualData : Prop :=
  (∀ m m' : List Host.Cell, Memory.wf m = true → Memory.wf m' = true →
    (∀ x, readCell? m x = readCell? m' x) → m = m') ∧
  ∀ (m : List Host.Cell) (o : ByteOrder) (a : Nat) (v : Word32), Memory.wf m = true →
    Memory.wf (writeHostWord o m a v) = true

/-- R14: the difference of two samples of one clock, modulo 2^64, and so the time that has passed since
`b` whether or not the clock has wrapped in between (R314). -/
def Obligations.ClockDifferenceSurvivesWrap : Prop :=
  (∀ a b : Word64, (delta a b).toNat = (a.toNat + 2 ^ 64 - b.toNat) % 2 ^ 64) ∧
  ∀ (b : Word64) (n : Nat), n < 2 ^ 64 → (delta (b + BitVec.ofNat 64 n) b).toNat = n

/-! 10_state.md: reset and invariants. -/

/-- R343 with R70: after a platform reset every instance is at `CleanEntry`, for all parameters and
wiring, and so in `State.reset`; there is at least one instance (R9, R322; how `State.reset` takes N_INST
is log entry 4), and the binding table is empty (R340). That host memory and the queue of inputs are empty
is the model's own choice, not a rule: log entry 6 for `hostMem`, log entries 1 and 2 for `inputs`. -/
def Obligations.ResetIsCleanEntry : Prop :=
  (∀ (p : Params) (ws : List Wiring) (k : Nat), k < ws.length → CleanEntry (State.boot p ws) k) ∧
  (∀ k, k < State.reset.blocks.length → CleanEntry State.reset k) ∧
  0 < State.reset.blocks.length ∧ State.reset.pinOwner = [] ∧ State.reset.hostMem = [] ∧
  State.reset.inputs = []

/-- The invariants hold at reset, for all parameters and wiring. -/
def Obligations.InvariantsHoldAtReset : Prop :=
  (∀ (p : Params) (ws : List Wiring), Inv (State.boot p ws)) ∧ Inv State.reset

/-- Every step keeps the invariants R61 names, from every state that has them (item 3 for instances not
torn down, log entry 11). -/
def Obligations.StepKeepsInvariants : Prop :=
  ∀ s t : State, Inv s → step s = .next t → Inv t

/-- From a state with the invariants, every input that has a move completes: no command, edge or
teardown meets a fault (R305). -/
def Obligations.EveryInputWithAMoveCompletes : Prop :=
  ∀ s : State, Inv s → (∀ i rest, s.inputs = i :: rest → HasMove s i) → ∃ t, step s = .next t

/-- Whatever inputs come, in whatever order and with whatever clock samples, after reset with any
parameters and wiring: a run never reads an unwritten cell, never finds Decoding held, never indexes
past a buffer (R61, R342), and TX_UPDATE never reads past the end of host memory (R81). A run that faults
does so at one of its inputs, and that input is a host write of a word past the end (log entry 14). -/
def Obligations.RunsFaultOnlyOnHostAddress : Prop :=
  ∀ (p : Params) (ws : List Wiring) (script : List Input) (n : Nat) (f : Fault),
    let boot := { State.boot p ws with inputs := script }
    Host.Core.run core n boot = .fault f →
    f = .hostAddress ∧ ∃ (m a : Nat) (v : Word32) (t : State), m < n ∧
      Host.Core.run core m boot = .next t ∧ t.inputs = script.drop m ∧
      script[m]? = some (.hostWrite a v) ∧ p.hostseqWords ≤ a ∧ step t = .fault f

/-- The source's property "Capture buffer length never exceeds its fixed capacity under any notification
rate" (R160), with the frozen copy empty or full (R61 item 4), in every state a run reaches. -/
def Obligations.CaptureNeverExceedsCapacity : Prop :=
  ∀ (p : Params) (ws : List Wiring) (script : List Input) (n : Nat) (t : State),
    Host.Core.run core n { State.boot p ws with inputs := script } = .next t →
    ∀ b ∈ t.blocks, b.rx.capLen.toNat ≤ 127 ∧ (b.rx.rawLen.toNat = 0 ∨ b.rx.rawLen.toNat = 127)

/-- Timestamps that the reset table leaves unspecified are written before any rule reads them (R342):
putting them to 0 wherever no rule may read them changes no outcome, but for those timestamps. -/
def Obligations.UnspecifiedTimestampsAreNeverRead : Prop :=
  ∀ s : State, maskOutcome (step (maskState s)) = maskOutcome (step s)

/-- R44, R55, R39, R46, R33, R89: a configuration register or callback handle is written only by its
setter (and `rxCb` by RX_START_PERIODIC), the entries of the live buffer only by EDGE, the frozen copy and
the result registers only by RX_UPDATE, the encoder buffer only by TX_NEC, TX_RC5 and TX_SONY. -/
def Obligations.RegistersKeepTheirWriters : Prop :=
  ∀ (i : Instr) (s t : State) (k : Nat) (b b' : Block), exec i s = .next t →
    s.blocks[k]? = some b → t.blocks[k]? = some b' →
    ((∀ v, i ≠ .rxSetTimeout v) → b'.rx.timeoutMs = b.rx.timeoutMs) ∧
    ((∀ v, i ≠ .rxSetMinPw v) → b'.rx.pwMin = b.rx.pwMin) ∧
    ((∀ v, i ≠ .rxSetMaxPw v) → b'.rx.pwMax = b.rx.pwMax) ∧
    ((∀ v, i ≠ .rxSetCallback v ∧ i ≠ .rxStartPeriodic v) → b'.rx.rxCb = b.rx.rxCb) ∧
    ((∀ v, i ≠ .txSetCallback v) → b'.tx.txCb = b.tx.txCb) ∧
    ((∀ v, i ≠ .txSetCarrier v) → b'.tx.carrierHz = b.tx.carrierHz) ∧
    ((∀ v, i ≠ .txSetPower v) → b'.tx.power = b.tx.power) ∧
    ((∀ v, i ≠ .txSetRepeat v) → b'.tx.repeatCount = b.tx.repeatCount) ∧
    (i ≠ .edge → b'.rx.capBuf = b.rx.capBuf) ∧
    (i ≠ .rxUpdate → b'.rx.rawBuf = b.rx.rawBuf ∧ b'.rx.rawLen = b.rx.rawLen ∧
      b'.rx.rxCode = b.rx.rxCode ∧ b'.rx.rxProto = b.rx.rxProto ∧ b'.rx.rxValid = b.rx.rxValid) ∧
    ((∀ c c', i ≠ .txNec c ∧ i ≠ .txRc5 c' ∧ i ≠ .txSony c') → b'.tx.txBuf = b.tx.txBuf)

/-! 40_capture.md: EDGE. -/

/-- R150, with R151 to R155 and R58: an edge on a pin no instance has bound changes nothing; and what an
edge on a bound pin does, for a capture with room (R61 item 1). -/
def Obligations.EdgeInput : Prop :=
  (∀ s : State, readCell? s.pinOwner s.port.pin = none → exec .edge s = .next s) ∧
  ∀ (s : State) (k : Nat) (b : Block),
    readCell? s.pinOwner s.port.pin = some k → s.blocks[k]? = some b → b.dead = false →
    (b.rx.capEn = true → b.rx.capLen.toNat < 127) →
    let d := (s.port.tUs - b.rx.lastEdgeUs).toNat
    (b.rx.capEn = false → exec .edge s = .next s) ∧
    (b.rx.capEn = true → b.rx.haveLast = false → exec .edge s = .next { s with
      blocks := s.blocks.set k
        { b with rx := { b.rx with lastEdgeUs := s.port.tUs, haveLast := true } } }) ∧
    (b.rx.capEn = true → b.rx.haveLast = true →
      ¬(b.rx.pwMin.toNat ≤ d ∧ d ≤ b.rx.pwMax.toNat) → exec .edge s = .next { s with
        blocks := s.blocks.set k { b with rx := { b.rx with lastEdgeUs := s.port.tUs } } }) ∧
    (b.rx.capEn = true → b.rx.haveLast = true → b.rx.pwMin.toNat ≤ d → d ≤ b.rx.pwMax.toNat →
      ∃ buf, exec .edge s = .next { s with
          blocks := s.blocks.set k { b with rx := { b.rx with
            lastEdgeUs := s.port.tUs
            capBuf := buf
            capLen := BitVec.ofNat 8 (b.rx.capLen.toNat + 1)
            capEn := decide (b.rx.capLen.toNat ≠ 126)
            capReady := if b.rx.capLen.toNat = 126 then true else b.rx.capReady } } } ∧
        (readCell? buf b.rx.capLen.toNat).map BitVec.toNat = some d ∧
        ∀ j, j ≠ b.rx.capLen.toNat → readCell? buf j = readCell? b.rx.capBuf j)

/-! 41_receiver.md -/

/-- R172, R174: RX_START and RX_START_PERIODIC are refused with BUSY while Receiving or while another
instance holds the pin, with no change; else they bind the pin, arm the capture and enter Receiving, and
RX_START_PERIODIC also takes the callback handle and sets the periodic flag. -/
def Obligations.RxStarts : Prop :=
  ∀ (s : State) (b : Block) (h : Word32), Live s b →
    (b.rx.rxState = .receiving ∨ ¬PinFreeOrOwn s b →
      exec .rxStart s = .next (withSelf s (replied b 0#32 .busy)) ∧
      exec (.rxStartPeriodic h) s = .next (withSelf s (replied b 0#32 .busy))) ∧
    (b.rx.rxState ≠ .receiving → PinFreeOrOwn s b → ∃ table,
      Rebound s table b.wiring.rxPin (some s.port.block) ∧
      exec .rxStart s = .next (withSelf { s with pinOwner := table } (replied { b with
        rx := { b.rx with
          bound := true, capLen := 0#8, capReady := false, haveLast := false, capEn := true
          rxStartMs := s.port.tMs, rxState := .receiving } } 1#32 .ok)) ∧
      exec (.rxStartPeriodic h) s =
        .next (withSelf { s with pinOwner := table } (replied { b with
          rx := { b.rx with
            rxCb := h, periodic := true
            bound := true, capLen := 0#8, capReady := false, haveLast := false, capEn := true
            rxStartMs := s.port.tMs, rxState := .receiving } } 1#32 .ok)))

/-- R173, R175, R171: both stops are accepted in every state; they disarm, end periodic mode, release
the binding and go to Idle. RX_STOP answers 1, RX_STOP_PERIODIC 0. -/
def Obligations.RxStops : Prop :=
  ∀ (s : State) (b : Block), Live s b → ∃ table, Released s b table ∧
    let after := fun res => Host.Outcome.next (withSelf { s with pinOwner := table } (replied { b with
      rx := { b.rx with capEn := false, periodic := false, bound := false, rxState := .idle } }
      res .ok))
    exec .rxStop s = after 1#32 ∧ exec .rxStopPeriodic s = after 0#32

/-- R176 to R180, R182, R189, R190: the queries answer and change nothing else; the setters without a
range store their operand and change nothing else. -/
def Obligations.RxQueriesAndSetters : Prop :=
  ∀ (s : State) (b : Block) (v : Word32), Live s b →
    let ends := fun i b' res => exec i s = .next (withSelf s (replied b' res .ok))
    ends .rxIsReceiving b (if b.rx.rxState = .receiving then 1#32 else 0#32) ∧
    ends .rxIsDetected b (if b.rx.rxState = .signalDetected then 1#32 else 0#32) ∧
    ends .rxGetCode b b.rx.rxCode ∧
    ends .rxGetProtocol b (match b.rx.rxProto with
      | .nec => 0#32 | .sony => 1#32 | .rc5 => 2#32 | .raw => 3#32 | .unknown => 4#32) ∧
    ends .rxGetRawLen b (BitVec.ofNat 32 b.rx.rawLen.toNat) ∧
    ends (.rxSetCallback v) { b with rx := { b.rx with rxCb := v } } 0#32 ∧
    ends (.rxSetMinPw v) { b with rx := { b.rx with pwMin := v } } 0#32 ∧
    ends (.rxSetMaxPw v) { b with rx := { b.rx with pwMax := v } } 0#32

/-- R181: RX_GET_RAW answers an entry of the frozen copy below its length, and refuses any other index.
The second clause is R342's and not R181's: a cell below the length that nothing has written is a model
fault (log entry 8), which no run reaches. -/
def Obligations.RxGetRaw : Prop :=
  ∀ (s : State) (b : Block) (i : Word32), Live s b →
    (∀ v, i.toNat < b.rx.rawLen.toNat → readCell? b.rx.rawBuf i.toNat = some v →
      exec (.rxGetRaw i) s = .next (withSelf s (replied b v .ok))) ∧
    (i.toNat < b.rx.rawLen.toNat → readCell? b.rx.rawBuf i.toNat = none →
      exec (.rxGetRaw i) s = .fault .unwrittenCell) ∧
    (b.rx.rawLen.toNat ≤ i.toNat →
      exec (.rxGetRaw i) s = .next (withSelf s (replied b 0#32 .invalidConfig)))

/-- R188: RX_SET_TIMEOUT stores 100 to 10000 and refuses any other value, which is not clamped. -/
def Obligations.RxSetTimeout : Prop :=
  ∀ (s : State) (b : Block) (ms : Word32), Live s b →
    (100 ≤ ms.toNat ∧ ms.toNat ≤ 10000 → exec (.rxSetTimeout ms) s =
      .next (withSelf s (replied { b with rx := { b.rx with timeoutMs := ms } } 0#32 .ok))) ∧
    (ms.toNat < 100 ∨ 10000 < ms.toNat → exec (.rxSetTimeout ms) s =
      .next (withSelf s (replied b 0#32 .invalidConfig)))

/-- R184, R157: with a ready capture RX_UPDATE, whatever time has passed, freezes the live buffer,
classifies the frozen copy, notifies, and enters SignalDetected. -/
def Obligations.RxUpdateDecodesReadyCapture : Prop :=
  ∀ (s : State) (b : Block) (xs : List Word32), Live s b → b.rx.rxState = .receiving →
    b.rx.capReady = true → xs.length = b.rx.capLen.toNat →
    (∀ j, j < b.rx.capLen.toNat → readCell? b.rx.capBuf j = xs[j]?) →
    ∃ raw, exec .rxUpdate s = .next (withSelf s (replied { b with
        rx := { b.rx with
          rawBuf := raw, rawLen := b.rx.capLen, capLen := 0#8, capReady := false
          rxCode := (classify xs).value, rxProto := (classify xs).proto
          rxValid := (classify xs).valid, rxState := .signalDetected }
        notifs := if b.rx.rxCb = 0#32 then b.notifs else b.notifs ++
          [.rx b.rx.rxCb (classify xs).value (classify xs).proto (classify xs).valid] } 0#32 .ok)) ∧
      ∀ j, readCell? raw j = if j < b.rx.capLen.toNat then xs[j]? else readCell? b.rx.rawBuf j

/-- R185, R183: without a ready capture RX_UPDATE in Receiving times out once more than `timeoutMs` has
passed, with the result (0, Unknown, 0) and its notification, and else does nothing. -/
def Obligations.RxUpdateTimesOut : Prop :=
  ∀ (s : State) (b : Block), Live s b → b.rx.rxState = .receiving → b.rx.capReady = false →
    let elapsed := (s.port.tMs - b.rx.rxStartMs).toNat
    (b.rx.timeoutMs.toNat < elapsed → exec .rxUpdate s = .next (withSelf s (replied { b with
      rx := { b.rx with
        capEn := false, rxCode := 0#32, rxProto := .unknown, rxValid := false, rxState := .timeout }
      notifs := if b.rx.rxCb = 0#32 then b.notifs else b.notifs ++
        [.rx b.rx.rxCb 0#32 .unknown false] } 0#32 .ok))) ∧
    (elapsed ≤ b.rx.timeoutMs.toNat →
      exec .rxUpdate s = .next (withSelf s (replied b 0#32 .ok)))

/-- R186, R187: SignalDetected and Timeout are left at the next RX_UPDATE, to Receiving, re-armed, in
periodic mode, and else to Idle with the binding released; in Idle nothing changes; found in Decoding,
which no run reaches, the model faults. -/
def Obligations.RxUpdateOutsideReceiving : Prop :=
  ∀ (s : State) (b : Block), Live s b →
    (b.rx.rxState = .idle → exec .rxUpdate s = .next (withSelf s (replied b 0#32 .ok))) ∧
    (b.rx.rxState = .decoding → exec .rxUpdate s = .fault .decodingHeld) ∧
    (b.rx.rxState = .signalDetected ∨ b.rx.rxState = .timeout → b.rx.periodic = true →
      exec .rxUpdate s = .next (withSelf s (replied { b with
        rx := { b.rx with
          capLen := 0#8, capReady := false, haveLast := false, capEn := true
          rxStartMs := s.port.tMs, rxState := .receiving } } 0#32 .ok))) ∧
    (b.rx.rxState = .signalDetected ∨ b.rx.rxState = .timeout → b.rx.periodic = false →
      ∃ table, Released s b table ∧ exec .rxUpdate s =
        .next (withSelf { s with pinOwner := table } (replied { b with
          rx := { b.rx with bound := false, rxState := .idle } } 0#32 .ok)))

/-- R191: at an RX_UPDATE the timeout fires iff the state is Receiving, more than `timeoutMs` has passed
since its start, and the capture is not ready. -/
def Obligations.TimeoutFiresIff : Prop :=
  ∀ (s t : State) (b b' : Block), Live s b → exec .rxUpdate s = .next t →
    t.blocks[s.port.block]? = some b' →
    ((b'.rx.rxState = .timeout) ↔
      (b.rx.rxState = .receiving ∧ b.rx.timeoutMs.toNat < (s.port.tMs - b.rx.rxStartMs).toNat ∧
        b.rx.capReady = false))

/-- R170: the receiver's transition table, whole: what each start, stop and RX_UPDATE makes of `rxState`,
and that no other input changes it. -/
def Obligations.ReceiverTransitions : Prop :=
  ∀ (i : Instr) (s t : State) (b b' : Block), Live s b → exec i s = .next t →
    t.blocks[s.port.block]? = some b' →
    (i = .rxStart ∨ (∃ h, i = .rxStartPeriodic h) →
      (b.rx.rxState ≠ .receiving → PinFreeOrOwn s b → b'.rx.rxState = .receiving) ∧
      (b.rx.rxState = .receiving ∨ ¬PinFreeOrOwn s b → b'.rx.rxState = b.rx.rxState)) ∧
    (i = .rxStop ∨ i = .rxStopPeriodic → b'.rx.rxState = .idle) ∧
    (i = .rxUpdate → b.rx.rxState = .idle → b'.rx.rxState = .idle) ∧
    (i = .rxUpdate → b.rx.rxState = .receiving → b'.rx.rxState =
      if b.rx.capReady then .signalDetected
      else if b.rx.timeoutMs.toNat < (s.port.tMs - b.rx.rxStartMs).toNat then .timeout
      else .receiving) ∧
    (i = .rxUpdate → b.rx.rxState = .signalDetected ∨ b.rx.rxState = .timeout →
      b'.rx.rxState = if b.rx.periodic then .receiving else .idle) ∧
    (i ≠ .rxStart → (∀ h, i ≠ .rxStartPeriodic h) → i ≠ .rxStop → i ≠ .rxStopPeriodic →
      i ≠ .rxUpdate → b'.rx.rxState = b.rx.rxState)

/-! 42_decoder.md and 44_encoder.md -/

/-- R213: every NEC code survives encoding and classifying. -/
def Obligations.NecRoundTrip : Prop :=
  ∀ c : Word32, classify (encodeNec c) = ⟨.nec, c, true⟩

/-- R215: every Sony code survives, cut to its low 12 bits, which are all that is sent. -/
def Obligations.SonyRoundTrip : Prop :=
  ∀ c : Word16, classify (encodeSony c) = ⟨.sony, BitVec.ofNat 32 (c.toNat % 4096), true⟩

/-- R207, R214: the RC5 matcher answers exactly when 28 intervals are present and the first 28 all lie in
[667, 1111], whatever follows them, and then always fourteen 1-bits; so every encoded RC5 code classifies
as 0x3FFF. -/
def Obligations.Rc5AlwaysAllOnes : Prop :=
  (∀ s v, matchRc5 s = some v ↔
    v = 0x3FFF#32 ∧ 28 ≤ s.length ∧ ∀ j, j < 28 → InWindow s j 667 1111) ∧
  (∀ s, (classify s).proto = .rc5 → classify s = ⟨.rc5, 0x3FFF#32, true⟩) ∧
  ∀ c : Word16, classify (encodeRc5 c) = ⟨.rc5, 0x3FFF#32, true⟩

/-- R212: a sequence shorter than a protocol's minimum never matches that protocol, and one below 24
intervals is Raw with code 0; one of 34 to 65 intervals passes NEC's length gate and never matches
(R203). -/
def Obligations.ShortSequencesNeverMatch : Prop :=
  ∀ s : List Word32,
    (s.length < 66 → matchNec s = none) ∧ (s.length < 24 → matchSony s = none) ∧
    (s.length < 28 → matchRc5 s = none) ∧ (s.length < 24 → classify s = ⟨.raw, 0#32, false⟩)

/-- R202, R203, R204: the NEC matcher answers `v` exactly when the header lies in [8000, 10000] and
[4000, 5000] and in each of the 32 positions the mark lies in [362, 762] and the space in the window of
its bit, bit `31 - k` of `v` at position `k`; so it answers for every 66 intervals in their windows, and
nothing past interval 65 matters. -/
def Obligations.NecBitsComeFromSpaces : Prop :=
  ∀ s : List Word32,
    (∀ v, matchNec s = some v ↔
      InWindow s 0 8000 10000 ∧ InWindow s 1 4000 5000 ∧
      ∀ k, k < 32 → InWindow s (2 + 2 * k) 362 762 ∧
        if v.getLsbD (31 - k) then InWindow s (3 + 2 * k) 1387 1987
        else InWindow s (3 + 2 * k) 362 762) ∧
    (InWindow s 0 8000 10000 → InWindow s 1 4000 5000 →
      (∀ k, k < 32 → InWindow s (2 + 2 * k) 362 762 ∧
        (InWindow s (3 + 2 * k) 362 762 ∨ InWindow s (3 + 2 * k) 1387 1987)) →
      ∃ v, matchNec s = some v) ∧
    ∀ v rest, matchNec s = some v → matchNec (s.take 66 ++ rest) = some v

/-- R202, R205, R206: the Sony matcher answers `v` exactly when 24 intervals are present, the header lies
in [2100, 2700] and [400, 800], in each of the 12 positions that is present the space lies in [400, 800]
and the mark in the window of bit `k` of `v`, and every other bit of `v` is 0; so it answers for every
sequence of 24 intervals or more in their windows. A match of 24 or 25 intervals holds 11 bits, no match
more than 12, and nothing past interval 25 matters. -/
def Obligations.SonyPartialAcceptance : Prop :=
  ∀ s : List Word32,
    (∀ v, matchSony s = some v ↔
      24 ≤ s.length ∧ InWindow s 0 2100 2700 ∧ InWindow s 1 400 800 ∧ v.toNat < 4096 ∧
      ∀ k, k < 12 → if 3 + 2 * k < s.length then
          InWindow s (3 + 2 * k) 400 800 ∧
          if v.getLsbD k then InWindow s (2 + 2 * k) 900 1500 else InWindow s (2 + 2 * k) 400 800
        else v.getLsbD k = false) ∧
    (24 ≤ s.length → InWindow s 0 2100 2700 → InWindow s 1 400 800 →
      (∀ k, k < 12 → 3 + 2 * k < s.length → InWindow s (3 + 2 * k) 400 800 ∧
        (InWindow s (2 + 2 * k) 400 800 ∨ InWindow s (2 + 2 * k) 900 1500)) →
      ∃ v, matchSony s = some v) ∧
    ∀ v, matchSony s = some v →
      v.toNat < 4096 ∧ (s.length < 26 → v.toNat < 2048) ∧
      (26 ≤ s.length → ∀ rest, matchSony (s.take 26 ++ rest) = some v)

/-- R200, R211, R210: at most one matcher matches any sequence, so the order of trying never changes a
result, and a protocol's result is its matcher's answer; a result is valid exactly when the protocol is
NEC, Sony or RC5, and the only other one is Raw with code 0 (R209). -/
def Obligations.OneMatcherAndValidity : Prop :=
  ∀ s : List Word32,
    ((matchNec s).isSome → matchSony s = none ∧ matchRc5 s = none) ∧
    ((matchSony s).isSome → matchNec s = none ∧ matchRc5 s = none) ∧
    (∀ v, (classify s = ⟨.nec, v, true⟩ ↔ matchNec s = some v) ∧
      (classify s = ⟨.sony, v, true⟩ ↔ matchSony s = some v) ∧
      (classify s = ⟨.rc5, v, true⟩ ↔ matchRc5 s = some v)) ∧
    ((classify s).valid = true ↔
      (classify s).proto = .nec ∨ (classify s).proto = .sony ∨ (classify s).proto = .rc5) ∧
    ((classify s).valid = false → classify s = ⟨.raw, 0#32, false⟩)

/-- R261, R262, R263, R264: the length and every entry of each encoder's output. -/
def Obligations.EncoderOutputs : Prop :=
  (∀ c : Word32, (encodeNec c).length = 68 ∧
    (encodeNec c)[0]? = some 9000#32 ∧ (encodeNec c)[1]? = some 4500#32 ∧
    (∀ k, k < 32 → (encodeNec c)[2 + 2 * k]? = some 562#32 ∧
      (encodeNec c)[3 + 2 * k]? = some (if c.getLsbD (31 - k) then 1687#32 else 562#32)) ∧
    (encodeNec c)[66]? = some 562#32 ∧ (encodeNec c)[67]? = some 0#32) ∧
  (∀ c : Word16, (encodeSony c).length = 26 ∧
    (encodeSony c)[0]? = some 2400#32 ∧ (encodeSony c)[1]? = some 600#32 ∧
    ∀ k, k < 12 → (encodeSony c)[2 + 2 * k]? = some (if c.getLsbD k then 1200#32 else 600#32) ∧
      (encodeSony c)[3 + 2 * k]? = some 600#32) ∧
  ∀ c : Word16, encodeRc5 c = List.replicate 28 889#32

/-! 43_transmitter.md -/

/-- R231, R232, R233 with R230: TX_NEC, TX_RC5 and TX_SONY are refused with BUSY while Transmitting,
with no change, and else write the encoder's output into the buffer and start it at index 0 with the
pin low. -/
def Obligations.TxEncodedCommands : Prop :=
  ∀ (s : State) (b : Block) (i : Instr) (xs : List Word32) (len : Word8), Live s b →
    ((∃ c, i = .txNec c ∧ xs = encodeNec c ∧ len = 68#8) ∨
     (∃ c, i = .txRc5 c ∧ xs = encodeRc5 c ∧ len = 28#8) ∨
     (∃ c, i = .txSony c ∧ xs = encodeSony c ∧ len = 26#8)) →
    (b.tx.txState = .transmitting → exec i s = .next (withSelf s (replied b 0#32 .busy))) ∧
    (b.tx.txState ≠ .transmitting → ∃ buf,
      exec i s = .next (withSelf s (replied { b with tx := { b.tx with
        txBuf := buf, seqSrc := .internal, seqLen := len, txIdx := 0#8, idxStartUs := s.port.tUs
        repeatsDone := 0#8, inGap := false, txPin := false, pinTrace := tracedTo b.tx s.port.tUs false
        lastToggleUs := s.port.tUs, txState := .transmitting } } 1#32 .ok)) ∧
      ∀ j, readCell? buf j = if j < len.toNat then xs[j]? else readCell? b.tx.txBuf j)

/-- R234 with R230: TX_RAW is refused with BUSY while Transmitting, then with INVALID_CONFIG for an empty
or too long sequence or one past the end of host memory, and else references the host words. -/
def Obligations.TxRaw : Prop :=
  ∀ (s : State) (b : Block) (base len : Word16), Live s b →
    let bad := len.toNat = 0 ∨ 128 < len.toNat ∨ s.params.hostseqWords < base.toNat + len.toNat
    (b.tx.txState = .transmitting →
      exec (.txRaw base len) s = .next (withSelf s (replied b 0#32 .busy))) ∧
    (b.tx.txState ≠ .transmitting → bad →
      exec (.txRaw base len) s = .next (withSelf s (replied b 0#32 .invalidConfig))) ∧
    (b.tx.txState ≠ .transmitting → ¬bad →
      exec (.txRaw base len) s = .next (withSelf s (replied { b with tx := { b.tx with
        seqSrc := .host base, seqLen := BitVec.ofNat 8 len.toNat, txIdx := 0#8
        idxStartUs := s.port.tUs, repeatsDone := 0#8, inGap := false, txPin := false
        pinTrace := tracedTo b.tx s.port.tUs false, lastToggleUs := s.port.tUs
        txState := .transmitting } } 1#32 .ok)))

/-- R236, R237, R241: TX_UPDATE in Idle changes nothing; in Complete or Error it goes to Idle and changes
nothing else; Transmitting without a sequence it goes to Error, low, notified with success 0. -/
def Obligations.TxUpdateOutsideFrames : Prop :=
  ∀ (s : State) (b : Block), Live s b →
    (b.tx.txState = .idle → exec .txUpdate s = .next (withSelf s (replied b 0#32 .ok))) ∧
    (b.tx.txState = .complete ∨ b.tx.txState = .error → exec .txUpdate s =
      .next (withSelf s (replied { b with tx := { b.tx with txState := .idle } } 0#32 .ok))) ∧
    (b.tx.txState = .transmitting → b.tx.seqSrc = .none → exec .txUpdate s =
      .next (withSelf s (replied { b with
        tx := { b.tx with
          txState := .error, txPin := false, pinTrace := tracedTo b.tx s.port.tUs false }
        notifs := if b.tx.txCb = 0#32 then b.notifs else b.notifs ++ [.tx b.tx.txCb false] }
        0#32 .ok)))

/-- R242 in the step of R238: within a mark the carrier toggles once a half-period has passed since the
last toggle, and nothing else happens. -/
def Obligations.TxUpdateInMark : Prop :=
  ∀ (s : State) (b : Block) (d : Word32) (n : Nat), Live s b → InFrame b.tx →
    CurrentInterval s b.tx d n → indexElapsed s b.tx < d.toNat → b.tx.txIdx.toNat % 2 = 0 →
    let half := 1000000 / (2 * b.tx.carrierHz.toNat)
    let after := fun t => Host.Outcome.next (withSelf { s with drawCount := s.drawCount + n }
      (replied { b with tx := t } 0#32 .ok))
    ((s.port.tUs - b.tx.lastToggleUs).toNat < half → exec .txUpdate s = after b.tx) ∧
    (half ≤ (s.port.tUs - b.tx.lastToggleUs).toNat → exec .txUpdate s = after { b.tx with
      txPin := !b.tx.txPin, lastToggleUs := s.port.tUs
      pinTrace := b.tx.pinTrace ++ [⟨s.port.tUs, !b.tx.txPin⟩] })

/-- R238: within a space the pin is driven low; once the interval's duration has passed, and it is not
the last, the next index begins at this step's time and the pin is not touched. -/
def Obligations.TxUpdateInSpaceAndAdvance : Prop :=
  ∀ (s : State) (b : Block) (d : Word32) (n : Nat), Live s b → InFrame b.tx →
    CurrentInterval s b.tx d n → b.tx.txIdx.toNat < b.tx.seqLen.toNat →
    let after := fun t => Host.Outcome.next (withSelf { s with drawCount := s.drawCount + n }
      (replied { b with tx := t } 0#32 .ok))
    (indexElapsed s b.tx < d.toNat → b.tx.txIdx.toNat % 2 = 1 → exec .txUpdate s = after { b.tx with
      txPin := false, pinTrace := tracedTo b.tx s.port.tUs false }) ∧
    (d.toNat ≤ indexElapsed s b.tx → b.tx.txIdx.toNat + 1 ≠ b.tx.seqLen.toNat →
      exec .txUpdate s = after { b.tx with
        txIdx := BitVec.ofNat 8 (b.tx.txIdx.toNat + 1), idxStartUs := s.port.tUs })

/-- R239: when the last interval's duration has passed, the frame ends with the pin low: with repeats
left the gap begins, and else the transmission is Complete and notified with success 1. -/
def Obligations.TxUpdateEndsFrame : Prop :=
  ∀ (s : State) (b : Block) (d : Word32) (n : Nat), Live s b → InFrame b.tx →
    CurrentInterval s b.tx d n → d.toNat ≤ indexElapsed s b.tx →
    b.tx.txIdx.toNat + 1 = b.tx.seqLen.toNat →
    (b.tx.repeatsDone.toNat < b.tx.repeatCount.toNat → exec .txUpdate s =
      .next (withSelf { s with drawCount := s.drawCount + n } (replied { b with tx := { b.tx with
        txIdx := b.tx.seqLen, idxStartUs := s.port.tUs
        repeatsDone := BitVec.ofNat 8 (b.tx.repeatsDone.toNat + 1), inGap := true
        gapStartUs := s.port.tUs, txPin := false
        pinTrace := tracedTo b.tx s.port.tUs false } } 0#32 .ok))) ∧
    (b.tx.repeatCount.toNat ≤ b.tx.repeatsDone.toNat → exec .txUpdate s =
      .next (withSelf { s with drawCount := s.drawCount + n } (replied { b with
        tx := { b.tx with
          txIdx := b.tx.seqLen, idxStartUs := s.port.tUs, txState := .complete, txPin := false
          pinTrace := tracedTo b.tx s.port.tUs false }
        notifs := if b.tx.txCb = 0#32 then b.notifs else b.notifs ++ [.tx b.tx.txCb true] } 0#32 .ok)))

/-- R240: in the gap the pin is driven low, and the gap ends at the first step 45000 µs after its
start, with index 0 beginning at that step. -/
def Obligations.TxUpdateInGap : Prop :=
  ∀ (s : State) (b : Block), Live s b → b.tx.txState = .transmitting → b.tx.seqSrc ≠ .none →
    b.tx.inGap = true →
    let passed := (s.port.tUs - b.tx.gapStartUs).toNat
    (passed < 45000 → exec .txUpdate s = .next (withSelf s (replied { b with tx := { b.tx with
      txPin := false, pinTrace := tracedTo b.tx s.port.tUs false } } 0#32 .ok))) ∧
    (45000 ≤ passed → exec .txUpdate s = .next (withSelf s (replied { b with tx := { b.tx with
      txPin := false, pinTrace := tracedTo b.tx s.port.tUs false
      inGap := false, txIdx := 0#8, idxStartUs := s.port.tUs } } 0#32 .ok)))

/-- R243, R244, R245, R247, R248: the queries answer and change nothing else; the setters without a range
store their operand and change nothing else. -/
def Obligations.TxQueriesAndSetters : Prop :=
  ∀ (s : State) (b : Block) (v : Word32) (u : Word8), Live s b →
    let ends := fun i b' res => exec i s = .next (withSelf s (replied b' res .ok))
    ends .txIsTransmitting b (if b.tx.txState = .transmitting then 1#32 else 0#32) ∧
    ends .txIsComplete b (if b.tx.txState = .complete then 1#32 else 0#32) ∧
    ends (.txSetCallback v) { b with tx := { b.tx with txCb := v } } 0#32 ∧
    ends (.txSetPower u) { b with tx := { b.tx with power := u } } 0#32 ∧
    ends (.txSetRepeat u) { b with tx := { b.tx with repeatCount := u } } 0#32

/-- R246: TX_SET_CARRIER stores 30000 to 60000 and refuses any other value; every accepted value gives a
half-period of 8 to 16 µs (R242). -/
def Obligations.TxSetCarrier : Prop :=
  ∀ (s : State) (b : Block) (f : Word32), Live s b →
    (f.toNat < 30000 ∨ 60000 < f.toNat → exec (.txSetCarrier f) s =
      .next (withSelf s (replied b 0#32 .invalidConfig))) ∧
    (30000 ≤ f.toNat ∧ f.toNat ≤ 60000 → exec (.txSetCarrier f) s =
      .next (withSelf s (replied { b with tx := { b.tx with carrierHz := f } } 0#32 .ok)) ∧
      8 ≤ halfPeriod f ∧ halfPeriod f ≤ 16)

/-- R229: the transmitter's transition table, whole: what each Transmit command and TX_UPDATE makes of
`txState`, and that no other input changes it. Within a frame the index is below the length (R61 item
6). -/
def Obligations.TransmitterTransitions : Prop :=
  ∀ (i : Instr) (s t : State) (b b' : Block), Live s b → exec i s = .next t →
    t.blocks[s.port.block]? = some b' →
    ((∃ c, i = .txNec c) ∨ (∃ c, i = .txRc5 c) ∨ (∃ c, i = .txSony c) →
      b'.tx.txState = .transmitting) ∧
    (∀ base len, i = .txRaw base len → b'.tx.txState =
      if len.toNat ≠ 0 ∧ len.toNat ≤ 128 ∧ base.toNat + len.toNat ≤ s.params.hostseqWords
      then .transmitting else b.tx.txState) ∧
    (i = .txUpdate → b.tx.txState ≠ .transmitting → b'.tx.txState = .idle) ∧
    (i = .txUpdate → b.tx.txState = .transmitting → b.tx.seqSrc = .none → b'.tx.txState = .error) ∧
    (i = .txUpdate → b.tx.txState = .transmitting → b.tx.seqSrc ≠ .none → b.tx.inGap = true →
      b'.tx.txState = .transmitting) ∧
    (∀ d n, i = .txUpdate → InFrame b.tx → b.tx.txIdx.toNat < b.tx.seqLen.toNat →
      CurrentInterval s b.tx d n → b'.tx.txState =
        if d.toNat ≤ indexElapsed s b.tx ∧ b.tx.txIdx.toNat + 1 = b.tx.seqLen.toNat ∧
          b.tx.repeatCount.toNat ≤ b.tx.repeatsDone.toNat
        then .complete else .transmitting) ∧
    ((∀ c, i ≠ .txNec c) → (∀ c, i ≠ .txRc5 c) → (∀ c, i ≠ .txSony c) →
      (∀ base len, i ≠ .txRaw base len) → i ≠ .txUpdate → b'.tx.txState = b.tx.txState)

/-- R249: an interval or a gap can only be longer than its duration, never shorter: no TX_UPDATE moves
the index before the interval's duration has passed, or ends the gap before 45000 µs have. -/
def Obligations.IntervalsAreNeverShortened : Prop :=
  ∀ (s t : State) (b b' : Block) (d : Word32) (n : Nat), Live s b → exec .txUpdate s = .next t →
    t.blocks[s.port.block]? = some b' →
    (InFrame b.tx → CurrentInterval s b.tx d n → b'.tx.txIdx ≠ b.tx.txIdx →
      d.toNat ≤ indexElapsed s b.tx) ∧
    (b.tx.txState = .transmitting → b.tx.inGap = true → b'.tx.inGap = false →
      45000 ≤ (s.port.tUs - b.tx.gapStartUs).toNat)

/-- R250: the pin rises only in a mark step, a toggle of the carrier at an even index. -/
def Obligations.PinRisesOnlyInMarks : Prop :=
  ∀ (i : Instr) (s t : State) (k : Nat) (b b' : Block), exec i s = .next t →
    s.blocks[k]? = some b → t.blocks[k]? = some b' → b.tx.txPin = false → b'.tx.txPin = true →
    i = .txUpdate ∧ k = s.port.block ∧ InFrame b.tx ∧ b.tx.txIdx.toNat % 2 = 0 ∧
      b'.tx.txIdx = b.tx.txIdx

/-! 60_exceptions.md -/

/-- R101: every command that completes ends with exactly one response, and EDGE and TEARDOWN with none;
no instance but the addressed one gets a response. -/
def Obligations.OneResponsePerCommand : Prop :=
  ∀ (i : Instr) (s t : State) (k : Nat) (b b' : Block), exec i s = .next t →
    s.blocks[k]? = some b → t.blocks[k]? = some b' →
    (sideOf i ≠ .neither → k = s.port.block → ∃ r, b'.responses = b.responses ++ [r]) ∧
    (sideOf i = .neither ∨ k ≠ s.port.block → b'.responses = b.responses)

/-- R300, R303: which status each command answers, BUSY before INVALID_CONFIG; a status other than OK
comes with RES 0. -/
def Obligations.StatusOfEachCommand : Prop :=
  ∀ (i : Instr) (s t : State) (b b' : Block) (r : Response), Live s b → exec i s = .next t →
    t.blocks[s.port.block]? = some b' → b'.responses = b.responses ++ [r] →
    (r.stat ≠ .ok → r.res = 0#32) ∧ r.stat ≠ .illegal ∧
    (r.stat = .busy ↔
      ((i = .rxStart ∨ ∃ h, i = .rxStartPeriodic h) ∧
        (b.rx.rxState = .receiving ∨ ¬PinFreeOrOwn s b)) ∨
      (((∃ c, i = .txNec c) ∨ (∃ c, i = .txRc5 c) ∨ (∃ c, i = .txSony c) ∨
        ∃ base len, i = .txRaw base len) ∧ b.tx.txState = .transmitting)) ∧
    (r.stat = .invalidConfig ↔
      (∃ ms, i = .rxSetTimeout ms ∧ (ms.toNat < 100 ∨ 10000 < ms.toNat)) ∨
      (∃ f, i = .txSetCarrier f ∧ (f.toNat < 30000 ∨ 60000 < f.toNat)) ∨
      (∃ base len, i = .txRaw base len ∧ b.tx.txState ≠ .transmitting ∧
        (len.toNat = 0 ∨ 128 < len.toNat ∨ s.params.hostseqWords < base.toNat + len.toNat)) ∨
      (∃ j, i = .rxGetRaw j ∧ b.rx.rawLen.toNat ≤ j.toNat))

/-- R302: a command answered with BUSY, INVALID_CONFIG or ILLEGAL writes no state, emits no notification
and does not change the pin. -/
def Obligations.RejectedCommandsWriteNothing : Prop :=
  ∀ (s t : State) (k : Nat) (w tUs tMs : Word64) (rest : List Input) (b b' : Block) (r : Response),
    s.inputs = .cmd k w tUs tMs :: rest → step s = .next t → s.blocks[k]? = some b →
    t.blocks[k]? = some b' → b'.responses = b.responses ++ [r] → r.stat ≠ .ok →
    t = { s with
      inputs := rest
      port := { s.port with block := k, tUs := tUs, tMs := tMs }
      blocks := s.blocks.set k (replied b 0#32 r.stat) }

/-- R309: each decode step and each timeout step emits one RX event, with the new result registers, when
a callback is set; each transmission that completes one TX event; no other transition emits any. -/
def Obligations.OneNotificationPerOutcome : Prop :=
  ∀ (i : Instr) (s t : State) (k : Nat) (b b' : Block), exec i s = .next t →
    s.blocks[k]? = some b → t.blocks[k]? = some b' →
    let rxOutcome := k = s.port.block ∧ i = .rxUpdate ∧ b.rx.rxState = .receiving ∧
      (b'.rx.rxState = .signalDetected ∨ b'.rx.rxState = .timeout)
    let txOutcome := k = s.port.block ∧ i = .txUpdate ∧ b.tx.txState = .transmitting ∧
      (b'.tx.txState = .complete ∨ b'.tx.txState = .error)
    (rxOutcome → b.rx.rxCb ≠ 0#32 → b'.notifs =
      b.notifs ++ [.rx b.rx.rxCb b'.rx.rxCode b'.rx.rxProto b'.rx.rxValid]) ∧
    (txOutcome → b.tx.txCb ≠ 0#32 → b'.notifs =
      b.notifs ++ [.tx b.tx.txCb (decide (b'.tx.txState = .complete))]) ∧
    (rxOutcome → b.rx.rxCb = 0#32 → b'.notifs = b.notifs) ∧
    (txOutcome → b.tx.txCb = 0#32 → b'.notifs = b.notifs) ∧
    (¬rxOutcome → ¬txOutcome → b'.notifs = b.notifs)

/-- R322: an instruction changes no instance but the one it addresses, and an edge none but the one its
pin is bound to; no receiver command or edge changes a transmitter, and no transmitter command changes
a receiver or the binding table. -/
def Obligations.InstancesAndSidesAreIndependent : Prop :=
  ∀ (i : Instr) (s t : State) (k : Nat) (b b' : Block), exec i s = .next t →
    s.blocks[k]? = some b → t.blocks[k]? = some b' →
    (i ≠ .edge → k ≠ s.port.block → b' = b) ∧
    (i = .edge → readCell? s.pinOwner s.port.pin ≠ some k → b' = b) ∧
    (sideOf i = .receiver ∨ i = .edge → b'.tx = b.tx ∧ t.drawCount = s.drawCount) ∧
    (sideOf i = .transmitter → b'.rx = b.rx ∧ t.pinOwner = s.pinOwner)

/-- R322: no transmitter command reads the receiver's state or the binding table: whatever they hold,
the transmitters, responses, notifications and draws come out the same. -/
def Obligations.TransmitterIgnoresReceiver : Prop :=
  ∀ (i : Instr) (s : State) (g : Receiver → Receiver) (table : Cells Nat), sideOf i = .transmitter →
    let hide := fun u : State => { u with
      blocks := u.blocks.map (fun b => { b with rx := g b.rx }), pinOwner := table }
    exec i (hide s) = match exec i s with
      | .next t => .next (hide t)
      | .fault f => .fault f
      | .refused r => .refused r

/-- R322: no receiver command and no edge reads the transmitter's state, host memory or the draws. -/
def Obligations.ReceiverIgnoresTransmitter : Prop :=
  ∀ (i : Instr) (s : State) (g : Transmitter → Transmitter) (mem : List Host.Cell) (n : Nat),
    sideOf i = .receiver ∨ i = .edge →
    let hide := fun u : State => { u with
      blocks := u.blocks.map (fun b => { b with tx := g b.tx }), hostMem := mem, drawCount := n }
    exec i (hide s) = match exec i s with
      | .next t => .next (hide t)
      | .fault f => .fault f
      | .refused r => .refused r

/-! 70_reset_and_hazards.md -/

/-- R347: TEARDOWN disarms, ends periodic mode, releases the binding, drives the pin low and ends the
instance; nothing else changes, and nothing is answered or notified. -/
def Obligations.Teardown : Prop :=
  ∀ (s : State) (b : Block), Live s b → ∃ table, Released s b table ∧
    exec .teardown s = .next (withSelf { s with pinOwner := table } { b with
      rx := { b.rx with capEn := false, periodic := false, bound := false }
      tx := { b.tx with txPin := false, pinTrace := tracedTo b.tx s.port.tUs false }
      dead := true })

/-- R62: the lifecycle bit is 0 from construction and never cleared; a dead instance is left as it is by
every step, and a command or TEARDOWN to it has no move. -/
def Obligations.DeadInstancesTakeNoInput : Prop :=
  (∀ (p : Params) (ws : List Wiring), ∀ b ∈ (State.boot p ws).blocks, b.dead = false) ∧
  ∀ (s : State) (k : Nat) (b : Block), s.blocks[k]? = some b → b.dead = true →
    (∀ t, step s = .next t → t.blocks[k]? = some b) ∧
    (∀ i, i ≠ .edge → s.port.block = k → exec i s = .refused .deadBlock)

/-- R114: `GetRawData` on an instance whose frozen copy is written gives the entries of the frozen copy in
order. -/
def Obligations.GetRawDataReadsFrozenCopy : Prop :=
  ∀ (s : State) (k : Nat) (b : Block) (tUs tMs : Word64), s.blocks[k]? = some b → b.dead = false →
    written b.rx.rawBuf b.rx.rawLen.toNat →
    ∃ t xs, getRawData k tUs tMs s = .next (t, xs) ∧ xs.length = b.rx.rawLen.toNat ∧
      ∀ j, j < b.rx.rawLen.toNat → readCell? b.rx.rawBuf j = xs[j]?
end

