-- ==== Sys2Proof/Laws/Cells.lean ====
section
/-! SUPPORT. What a read gives after a write or an erasure of indexed storage, and that every operation
keeps the canonical form. -/

namespace Sys2Proof.Machine

variable {α : Type}

theorem readCell?_writeCell_self (st : Cells α) (i : Nat) (v : α) :
    readCell? (writeCell st i v) i = some v := by
  induction st with
  | nil => simp [writeCell, readCell?]
  | cons e rest ih =>
    obtain ⟨k, u⟩ := e
    by_cases h1 : i = k
    · simp [writeCell, readCell?, h1]
    · by_cases h2 : i < k
      · simp [writeCell, readCell?, h1, h2]
      · simp [writeCell, readCell?, h1, h2, ih]

theorem readCell?_writeCell_of_ne (st : Cells α) {i j : Nat} (v : α) (h : j ≠ i) :
    readCell? (writeCell st i v) j = readCell? st j := by
  induction st with
  | nil => simp [writeCell, readCell?, h]
  | cons e rest ih =>
    obtain ⟨k, u⟩ := e
    by_cases h1 : i = k
    · subst h1; simp [writeCell, readCell?, h]
    · by_cases h2 : i < k
      · simp only [writeCell, h1, h2, if_true, if_false, readCell?, h]
        by_cases h3 : j < i
        · have : j ≠ k := by omega
          have : j < k := by omega
          simp [*]
        · simp [h3]
      · simp [writeCell, h1, h2, readCell?, ih]

theorem readCell?_writeCell (st : Cells α) (i j : Nat) (v : α) :
    readCell? (writeCell st i v) j = if j = i then some v else readCell? st j := by
  split
  · next h => rw [h, readCell?_writeCell_self]
  · next h => exact readCell?_writeCell_of_ne st v h

/-- The canonical form as an order on the indices. -/
theorem Cells.wf_cons (e : Nat × α) (rest : Cells α) :
    Cells.wf (e :: rest) = true ↔ (∀ x ∈ rest, e.1 < x.1) ∧ Cells.wf rest = true := by
  induction rest generalizing e with
  | nil => simp [Cells.wf]
  | cons f rest ih =>
    simp only [Cells.wf, Bool.and_eq_true, decide_eq_true_eq, List.mem_cons, forall_eq_or_imp]
    constructor
    · rintro ⟨h1, h2⟩
      refine ⟨⟨h1, fun x hx => ?_⟩, h2⟩
      exact Nat.lt_trans h1 (((ih f).1 h2).1 x hx)
    · rintro ⟨⟨h1, -⟩, h2⟩
      exact ⟨h1, h2⟩

theorem mem_writeCell {st : Cells α} {i : Nat} {v : α} {x : Nat × α} (h : x ∈ writeCell st i v) :
    x = (i, v) ∨ x ∈ st := by
  induction st with
  | nil => simpa [writeCell] using h
  | cons e rest ih =>
    obtain ⟨k, u⟩ := e
    simp only [writeCell] at h
    split at h
    · rcases List.mem_cons.1 h with h | h
      · exact .inl h
      · exact .inr (List.mem_cons_of_mem _ h)
    · split at h
      · exact List.mem_cons.1 h
      · rcases List.mem_cons.1 h with h | h
        · exact .inr (h ▸ List.mem_cons_self ..)
        · exact (ih h).imp id (List.mem_cons_of_mem _)

theorem mem_eraseCell {st : Cells α} {i : Nat} {x : Nat × α} (h : x ∈ eraseCell st i) : x ∈ st := by
  induction st with
  | nil => simp [eraseCell] at h
  | cons e rest ih =>
    obtain ⟨k, u⟩ := e
    simp only [eraseCell] at h
    split at h
    · exact List.mem_cons_of_mem _ h
    · split at h
      · exact h
      · rcases List.mem_cons.1 h with h | h
        · exact h ▸ List.mem_cons_self ..
        · exact List.mem_cons_of_mem _ (ih h)

theorem wf_writeCell {st : Cells α} (h : Cells.wf st = true) (i : Nat) (v : α) :
    Cells.wf (writeCell st i v) = true := by
  induction st with
  | nil => simp [writeCell, Cells.wf]
  | cons e rest ih =>
    obtain ⟨k, u⟩ := e
    have ⟨h1, h2⟩ := (Cells.wf_cons _ _).1 h
    simp only [writeCell]
    split
    · next hk => subst hk; exact (Cells.wf_cons _ _).2 ⟨h1, h2⟩
    · split
      · next hk hlt =>
        refine (Cells.wf_cons _ _).2 ⟨fun x hx => ?_, h⟩
        rcases List.mem_cons.1 hx with hx | hx
        · simpa [hx] using hlt
        · exact Nat.lt_trans hlt (h1 x hx)
      · next hk hlt =>
        refine (Cells.wf_cons _ _).2 ⟨fun x hx => ?_, ih h2⟩
        rcases mem_writeCell hx with hx | hx
        · subst hx; simp only; omega
        · exact h1 x hx

theorem wf_eraseCell {st : Cells α} (h : Cells.wf st = true) (i : Nat) :
    Cells.wf (eraseCell st i) = true := by
  induction st with
  | nil => simp [eraseCell, Cells.wf]
  | cons e rest ih =>
    obtain ⟨k, u⟩ := e
    have ⟨h1, h2⟩ := (Cells.wf_cons _ _).1 h
    simp only [eraseCell]
    split
    · exact h2
    · split
      · exact h
      · exact (Cells.wf_cons _ _).2 ⟨fun x hx => h1 x (mem_eraseCell hx), ih h2⟩

theorem readCell?_eq_none_of_lt {st : Cells α} {i : Nat} (h : ∀ x ∈ st, i < x.1) :
    readCell? st i = none := by
  cases st with
  | nil => rfl
  | cons e rest =>
    obtain ⟨k, u⟩ := e
    have : i < k := h (k, u) (List.mem_cons_self ..)
    simp [readCell?, this, Nat.ne_of_lt this]

theorem readCell?_eraseCell {st : Cells α} (h : Cells.wf st = true) (i j : Nat) :
    readCell? (eraseCell st i) j = if j = i then none else readCell? st j := by
  induction st with
  | nil => simp [eraseCell, readCell?]
  | cons e rest ih =>
    obtain ⟨k, u⟩ := e
    have ⟨h1, h2⟩ := (Cells.wf_cons _ _).1 h
    simp only [eraseCell]
    split
    · next hk =>
      subst hk
      split
      · next hj => subst hj; exact readCell?_eq_none_of_lt h1
      · next hj =>
        by_cases hlt : j < i
        · rw [readCell?_eq_none_of_lt (fun x hx => Nat.lt_trans hlt (h1 x hx))]
          simp [readCell?, hj, hlt]
        · simp [readCell?, hj, hlt]
    · next hk =>
      split
      · next hlt =>
        split
        · next hj => subst hj; simp [readCell?, hk, hlt]
        · rfl
      · next hlt =>
        simp only [readCell?, ih h2]
        by_cases hj : j = i
        · subst hj; simp [hk, hlt]
        · simp [hj]

theorem mem_of_readCell? {st : Cells α} {i : Nat} {v : α} (h : readCell? st i = some v) :
    (i, v) ∈ st := by
  induction st with
  | nil => simp [readCell?] at h
  | cons e rest ih =>
    obtain ⟨k, u⟩ := e
    simp only [readCell?] at h
    split at h
    · next hk => subst hk; cases h; exact List.mem_cons_self ..
    · split at h
      · cases h
      · exact List.mem_cons_of_mem _ (ih h)

/-- The canonical form makes equal contents equal data. -/
theorem Cells.ext_of_wf {a b : Cells α} (ha : Cells.wf a = true) (hb : Cells.wf b = true)
    (h : ∀ i, readCell? a i = readCell? b i) : a = b := by
  induction a generalizing b with
  | nil =>
    cases b with
    | nil => rfl
    | cons e rest => obtain ⟨k, u⟩ := e; have := h k; simp [readCell?] at this
  | cons e rest ih =>
    obtain ⟨k, u⟩ := e
    have ⟨ha1, ha2⟩ := (Cells.wf_cons _ _).1 ha
    cases b with
    | nil => have := h k; simp [readCell?] at this
    | cons f rest' =>
      obtain ⟨k', u'⟩ := f
      have ⟨hb1, hb2⟩ := (Cells.wf_cons _ _).1 hb
      have hk : k = k' := by
        rcases Nat.lt_trichotomy k k' with hlt | heq | hgt
        · have := h k; simp [readCell?, Nat.ne_of_lt hlt, hlt] at this
        · exact heq
        · have := h k'; simp [readCell?, Nat.ne_of_lt hgt, hgt] at this
      subst hk
      have hu : u = u' := by have := h k; simpa [readCell?] using this
      subst hu
      rw [ih ha2 hb2]
      intro i
      have := h i
      by_cases h1 : i = k
      · subst h1
        rw [readCell?_eq_none_of_lt ha1, readCell?_eq_none_of_lt hb1]
      · by_cases h2 : i < k
        · rw [readCell?_eq_none_of_lt (fun x hx => Nat.lt_trans h2 (ha1 x hx)),
            readCell?_eq_none_of_lt (fun x hx => Nat.lt_trans h2 (hb1 x hx))]
        · simpa [readCell?, h1, h2] using this

theorem wf_writeCells {st : Cells α} (h : Cells.wf st = true) (base : Nat) (vs : List α) :
    Cells.wf (writeCells st base vs) = true := by
  induction vs generalizing st base with
  | nil => exact h
  | cons v vs ih => exact ih (wf_writeCell h base v) (base + 1)

theorem mem_writeCells {st : Cells α} {base : Nat} {vs : List α} {x : Nat × α}
    (h : x ∈ writeCells st base vs) : x ∈ st ∨ base ≤ x.1 ∧ x.1 < base + vs.length := by
  induction vs generalizing st base with
  | nil => exact .inl h
  | cons v vs ih =>
    rcases ih h with h | h
    · rcases mem_writeCell h with h | h
      · subst h; right; simp
      · exact .inl h
    · right; simp only [List.length_cons]; omega

theorem readCell?_writeCells (st : Cells α) (base : Nat) (vs : List α) (i : Nat) :
    readCell? (writeCells st base vs) i =
      if base ≤ i ∧ i < base + vs.length then vs[i - base]? else readCell? st i := by
  induction vs generalizing st base with
  | nil => have : ¬(base ≤ i ∧ i < base) := by omega
           simp [writeCells, this]
  | cons v vs ih =>
    simp only [writeCells, ih, readCell?_writeCell, List.length_cons]
    by_cases h1 : i = base
    · subst h1; simp
    · by_cases h2 : base + 1 ≤ i ∧ i < base + 1 + vs.length
      · have h3 : base ≤ i ∧ i < base + (vs.length + 1) := by omega
        rw [if_pos h2, if_pos h3]
        have : i - base = (i - (base + 1)) + 1 := by omega
        simp [this]
      · have h3 : ¬(base ≤ i ∧ i < base + (vs.length + 1)) := by omega
        rw [if_neg h2, if_neg h3, if_neg h1]

/-- A block read answers exactly when every entry it covers has been written. -/
theorem readCells?_eq_some {st : Cells α} {base n : Nat} {xs : List α} :
    readCells? st base n = some xs ↔
      xs.length = n ∧ ∀ i < n, readCell? st (base + i) = xs[i]? := by
  induction n generalizing base xs with
  | zero => cases xs <;> simp [readCells?]
  | succ n ih =>
    simp only [readCells?]
    constructor
    · intro h
      split at h
      · next v vs hv hvs =>
        cases h
        have ⟨hl, hr⟩ := ih.1 hvs
        refine ⟨by simp [hl], fun i hi => ?_⟩
        cases i with
        | zero => simpa using hv
        | succ i =>
          have := hr i (by omega)
          simpa [Nat.add_assoc, Nat.add_comm 1 i] using this
      · cases h
    · rintro ⟨hl, hr⟩
      cases xs with
      | nil => simp at hl
      | cons v vs =>
        have h0 : readCell? st base = some v := by simpa using hr 0 (by omega)
        have h1 : readCells? st (base + 1) n = some vs := by
          refine ih.2 ⟨by simpa using hl, fun i hi => ?_⟩
          have := hr (i + 1) (by omega)
          simpa [Nat.add_assoc, Nat.add_comm 1 i] using this
        rw [h0, h1]

theorem readCells?_of_written {st : Cells α} {base n : Nat}
    (h : ∀ i < n, (readCell? st (base + i)).isSome = true) : ∃ xs, readCells? st base n = some xs := by
  induction n generalizing base with
  | zero => exact ⟨[], rfl⟩
  | succ n ih =>
    have h0 := h 0 (by omega)
    have ⟨vs, hvs⟩ := @ih (base + 1) (fun i hi => by
      have := h (i + 1) (by omega)
      simpa [Nat.add_assoc, Nat.add_comm 1 i] using this)
    have ⟨v, hv⟩ := Option.isSome_iff_exists.1 h0
    simp only [Nat.add_zero] at hv
    exact ⟨v :: vs, by simp [readCells?, hv, hvs]⟩

/-- What was written in one block reads back as that block. -/
theorem readCells?_writeCells_self (st : Cells α) (base : Nat) (vs : List α) :
    readCells? (writeCells st base vs) base vs.length = some vs := by
  refine readCells?_eq_some.2 ⟨rfl, fun i hi => ?_⟩
  rw [readCell?_writeCells, if_pos (by omega)]
  simp

/-- A block write leaves a block read of other entries as it was. -/
theorem readCells?_writeCells_of_disjoint (st : Cells α) {base b n : Nat} {vs : List α}
    (h : b + n ≤ base ∨ base + vs.length ≤ b) :
    readCells? (writeCells st base vs) b n = readCells? st b n := by
  induction n generalizing b with
  | zero => rfl
  | succ n ih =>
    simp only [readCells?]
    rw [ih (by omega), readCell?_writeCells, if_neg (by omega)]

/-! Host sequence memory. -/

@[simp] theorem length_bytesOfWord (o : ByteOrder) (v : Word32) : (bytesOfWord o v).length = 4 := by
  cases o <;> rfl

theorem wordOfBytes_bytesOfWord (o : ByteOrder) (v : Word32) :
    wordOfBytes o (bytesOfWord o v) = some v := by
  have h : v.extractLsb' 24 8 ++ v.extractLsb' 16 8 ++ v.extractLsb' 8 8 ++ v.extractLsb' 0 8 = v := by
    apply BitVec.eq_of_getLsbD_eq
    intro i hi
    simp only [BitVec.getLsbD_append, BitVec.getLsbD_extractLsb']
    by_cases h1 : i < 8
    · simp [h1]
    · by_cases h2 : i < 16
      · have : i - 8 < 8 := by omega
        have e : 8 + (i - 8) = i := by omega
        simp [h1, this, e]
      · by_cases h3 : i < 24
        · have a1 : ¬ i - 8 < 8 := by omega
          have a2 : i - 8 - 8 < 8 := by omega
          have e : 16 + (i - 8 - 8) = i := by omega
          simp [h1, a1, a2, e]
        · have a1 : ¬ i - 8 < 8 := by omega
          have a2 : ¬ i - 8 - 8 < 8 := by omega
          have a3 : i - 8 - 8 - 8 < 8 := by omega
          have e : 24 + (i - 8 - 8 - 8) = i := by omega
          simp [h1, a1, a2, a3, e]
  cases o <;> simp only [bytesOfWord, wordOfBytes, List.reverse_cons, List.reverse_nil,
    List.nil_append, List.cons_append] <;> exact congrArg some h

/-- A host word reads back as written (R93). -/
theorem hostWord?_writeHostWord_self (o : ByteOrder) (m : List Host.Cell) (i : Nat) (v : Word32) :
    hostWord? o (writeHostWord o m i v) i = some v := by
  have := readCells?_writeCells_self m (4 * i) (bytesOfWord o v)
  rw [length_bytesOfWord] at this
  simp [hostWord?, writeHostWord, this, wordOfBytes_bytesOfWord]

/-- A write of one host word leaves every other word as it was (R93). -/
theorem hostWord?_writeHostWord_of_ne (o : ByteOrder) (m : List Host.Cell) {i j : Nat} (v : Word32)
    (h : j ≠ i) : hostWord? o (writeHostWord o m i v) j = hostWord? o m j := by
  simp only [hostWord?, writeHostWord]
  rw [readCells?_writeCells_of_disjoint m (by rw [length_bytesOfWord]; omega)]

theorem wf_writeHostWord {m : List Host.Cell} (h : Memory.wf m = true) (o : ByteOrder) (i : Nat)
    (v : Word32) : Memory.wf (writeHostWord o m i v) = true := wf_writeCells h _ _

end Sys2Proof.Machine
end

