-- ==== Sys2Proof/Laws/Codec.lean ====
section
/-! SUPPORT. Packing and unpacking of the command word's fields and of its operands. -/

namespace Sys2Proof

/-! Bit vectors cut in two. -/

theorem low_of_append {m n : Nat} (a : BitVec m) (b : BitVec n) : (a ++ b).extractLsb' 0 n = b := by
  ext i hi; simp [BitVec.getLsbD_append, hi]

theorem high_of_append {m n : Nat} (a : BitVec m) (b : BitVec n) : (a ++ b).extractLsb' n m = a := by
  ext i hi; simp [BitVec.getLsbD_append, hi]

theorem middle_of_append {m n p : Nat} (a : BitVec m) (b : BitVec n) (c : BitVec p) :
    (a ++ b ++ c).extractLsb' p n = b := by
  ext i hi
  simp [BitVec.getLsbD_append, hi]

theorem top_of_append {m n p : Nat} (a : BitVec m) (b : BitVec n) (c : BitVec p) :
    (a ++ b ++ c).extractLsb' (p + n) m = a := by
  ext i hi
  have h1 : ¬p + n + i < p := by omega
  have h2 : ¬p + n + i - p < n := by omega
  have h3 : p + n + i - p - n = i := by omega
  simp [BitVec.getLsbD_append, h1, h2, h3, hi]

theorem append_of_parts {m n : Nat} (a : BitVec (m + n)) :
    a.extractLsb' n m ++ a.extractLsb' 0 n = a := by
  apply BitVec.eq_of_getLsbD_eq
  intro i hi
  rw [BitVec.getLsbD_append]
  by_cases h1 : i < n
  · simp [h1]
  · have h2 : i - n < m := by omega
    have h3 : n + (i - n) = i := by omega
    simp [h1, h2, h3]

/-- No bit of a mask of the `m` high bits is set exactly when the high part is 0. -/
theorem and_high_mask_iff {m n : Nat} (a : BitVec (m + n)) :
    a &&& (BitVec.allOnes m ++ 0#n) = 0#(m + n) ↔ a.extractLsb' n m = 0#m := by
  constructor
  · intro h
    ext i hi
    have := congrArg (fun x => x.getLsbD (n + i)) h
    simp only [BitVec.getLsbD_and, BitVec.getLsbD_append] at this
    simp_all
  · intro h
    apply BitVec.eq_of_getLsbD_eq
    intro i hi
    simp only [BitVec.getLsbD_and, BitVec.getLsbD_append]
    by_cases h1 : i < n
    · simp [h1]
    · have := congrArg (fun x => x.getLsbD (i - n)) h
      have h3 : n + (i - n) = i := by omega
      have h4 : i - n < m := by omega
      simp only [BitVec.getLsbD_extractLsb', h3, h4, decide_true, Bool.true_and,
        BitVec.getLsbD_zero] at this
      simp [this]

/-! The command word (R100). -/

@[simp] theorem commandOfWord_wordOfCommand (c : Command) : commandOfWord (wordOfCommand c) = c := by
  obtain ⟨opc, rsv, arg⟩ := c
  simp only [commandOfWord, wordOfCommand, Command.mk.injEq]
  exact ⟨low_of_append (arg ++ rsv) opc, middle_of_append arg rsv opc, top_of_append arg rsv opc⟩

@[simp] theorem wordOfCommand_commandOfWord (w : Word64) : wordOfCommand (commandOfWord w) = w := by
  simp only [commandOfWord, wordOfCommand]
  ext i hi
  simp only [BitVec.getElem_append, BitVec.getElem_extractLsb']
  split
  · simp [BitVec.getLsbD_eq_getElem hi]
  · split
    · have : 8 + (i - 8) = i := by omega
      simp [*]
    · have : 32 + (i - 8 - 24) = i := by omega
      simp [*]

/-! The operands (R105, R112). -/

theorem operandU16_extend (c : Word16) : Machine.operandU16 (0#16 ++ c) = c := low_of_append 0#16 c
theorem operandU8_extend (c : Word8) : Machine.operandU8 (0#24 ++ c) = c := low_of_append 0#24 c
theorem operandBase_append (len base : Word16) : Machine.operandBase (len ++ base) = base :=
  low_of_append len base
theorem operandLen_append (len base : Word16) : Machine.operandLen (len ++ base) = len :=
  high_of_append len base
theorem append_operands (a : Word32) : Machine.operandLen a ++ Machine.operandBase a = a :=
  append_of_parts (m := 16) (n := 16) a

theorem u16_mask_iff (a : Word32) :
    a &&& Machine.mustBeZero .u16 = 0#32 ↔ a.extractLsb' 16 16 = 0#16 :=
  and_high_mask_iff (m := 16) (n := 16) a
theorem u8_mask_iff (a : Word32) :
    a &&& Machine.mustBeZero .u8 = 0#32 ↔ a.extractLsb' 8 24 = 0#24 :=
  and_high_mask_iff (m := 24) (n := 8) a
theorem none_mask_iff (a : Word32) : a &&& Machine.mustBeZero .none = 0#32 ↔ a = 0#32 := by
  show a &&& 0xFFFFFFFF#32 = 0#32 ↔ a = 0#32
  rw [show (0xFFFFFFFF#32) = BitVec.allOnes 32 by decide, BitVec.and_allOnes]

/-- An operand whose unused bits are 0 is its own zero-extended operand. -/
theorem extend_operandU16 {a : Word32} (h : a &&& Machine.mustBeZero .u16 = 0#32) :
    0#16 ++ Machine.operandU16 a = a := by
  rw [u16_mask_iff] at h
  have := append_of_parts (m := 16) (n := 16) a
  rwa [h] at this
theorem extend_operandU8 {a : Word32} (h : a &&& Machine.mustBeZero .u8 = 0#32) :
    0#24 ++ Machine.operandU8 a = a := by
  rw [u8_mask_iff] at h
  have := append_of_parts (m := 24) (n := 8) a
  rwa [h] at this

/-- A zero-extended operand has no bit set that its class requires to be 0. -/
theorem u16_mask_extend (c : Word16) : (0#16 ++ c : Word32) &&& Machine.mustBeZero .u16 = 0#32 :=
  (u16_mask_iff _).2 (high_of_append 0#16 c)
theorem u8_mask_extend (c : Word8) : (0#24 ++ c : Word32) &&& Machine.mustBeZero .u8 = 0#32 :=
  (u8_mask_iff _).2 (high_of_append 0#24 c)

end Sys2Proof
end

