-- ==== Sys2Proof/Laws/State.lean ====
section
/-! SUPPORT. One lemma for each field of each update of State and of its parts, so that no proof unfolds
a record update. -/

namespace Sys2Proof.Machine

/-! State updates. -/

@[simp] theorem putBlock_params (s : State) (k : Nat) (b : Block) :
    (putBlock s k b).params = s.params := rfl
@[simp] theorem putBlock_blocks (s : State) (k : Nat) (b : Block) :
    (putBlock s k b).blocks = s.blocks.set k b := rfl
@[simp] theorem putBlock_pinOwner (s : State) (k : Nat) (b : Block) :
    (putBlock s k b).pinOwner = s.pinOwner := rfl
@[simp] theorem putBlock_hostMem (s : State) (k : Nat) (b : Block) :
    (putBlock s k b).hostMem = s.hostMem := rfl
@[simp] theorem putBlock_port (s : State) (k : Nat) (b : Block) : (putBlock s k b).port = s.port :=
  rfl
@[simp] theorem putBlock_inputs (s : State) (k : Nat) (b : Block) :
    (putBlock s k b).inputs = s.inputs := rfl
@[simp] theorem putBlock_drawCount (s : State) (k : Nat) (b : Block) :
    (putBlock s k b).drawCount = s.drawCount := rfl

@[simp] theorem putSelf_params (s : State) (b : Block) : (putSelf s b).params = s.params := rfl
@[simp] theorem putSelf_blocks (s : State) (b : Block) :
    (putSelf s b).blocks = s.blocks.set s.port.block b := rfl
@[simp] theorem putSelf_pinOwner (s : State) (b : Block) : (putSelf s b).pinOwner = s.pinOwner :=
  rfl
@[simp] theorem putSelf_hostMem (s : State) (b : Block) : (putSelf s b).hostMem = s.hostMem := rfl
@[simp] theorem putSelf_port (s : State) (b : Block) : (putSelf s b).port = s.port := rfl
@[simp] theorem putSelf_inputs (s : State) (b : Block) : (putSelf s b).inputs = s.inputs := rfl
@[simp] theorem putSelf_drawCount (s : State) (b : Block) :
    (putSelf s b).drawCount = s.drawCount := rfl

@[simp] theorem bindPin_params (s : State) (b : Block) : (bindPin s b).params = s.params := rfl
@[simp] theorem bindPin_blocks (s : State) (b : Block) : (bindPin s b).blocks = s.blocks := rfl
@[simp] theorem bindPin_pinOwner (s : State) (b : Block) :
    (bindPin s b).pinOwner = writeCell s.pinOwner b.wiring.rxPin s.port.block := rfl
@[simp] theorem bindPin_hostMem (s : State) (b : Block) : (bindPin s b).hostMem = s.hostMem := rfl
@[simp] theorem bindPin_port (s : State) (b : Block) : (bindPin s b).port = s.port := rfl
@[simp] theorem bindPin_inputs (s : State) (b : Block) : (bindPin s b).inputs = s.inputs := rfl
@[simp] theorem bindPin_drawCount (s : State) (b : Block) :
    (bindPin s b).drawCount = s.drawCount := rfl

@[simp] theorem unbindPin_params (s : State) (b : Block) : (unbindPin s b).params = s.params := by
  unfold unbindPin; split <;> rfl
@[simp] theorem unbindPin_blocks (s : State) (b : Block) : (unbindPin s b).blocks = s.blocks := by
  unfold unbindPin; split <;> rfl
@[simp] theorem unbindPin_pinOwner (s : State) (b : Block) :
    (unbindPin s b).pinOwner = if b.rx.bound then eraseCell s.pinOwner b.wiring.rxPin else s.pinOwner := by
  unfold unbindPin; split <;> rfl
@[simp] theorem unbindPin_hostMem (s : State) (b : Block) : (unbindPin s b).hostMem = s.hostMem :=
  by
  unfold unbindPin; split <;> rfl
@[simp] theorem unbindPin_port (s : State) (b : Block) : (unbindPin s b).port = s.port := by
  unfold unbindPin; split <;> rfl
@[simp] theorem unbindPin_inputs (s : State) (b : Block) : (unbindPin s b).inputs = s.inputs := by
  unfold unbindPin; split <;> rfl
@[simp] theorem unbindPin_drawCount (s : State) (b : Block) :
    (unbindPin s b).drawCount = s.drawCount := by
  unfold unbindPin; split <;> rfl

@[simp] theorem deliver_params (i : Input) (s : State) : (deliver i s).params = s.params := rfl
@[simp] theorem deliver_blocks (i : Input) (s : State) : (deliver i s).blocks = s.blocks := rfl
@[simp] theorem deliver_pinOwner (i : Input) (s : State) : (deliver i s).pinOwner = s.pinOwner :=
  rfl
@[simp] theorem deliver_hostMem (i : Input) (s : State) : (deliver i s).hostMem = s.hostMem := rfl
@[simp] theorem deliver_port (i : Input) (s : State) : (deliver i s).port = latched s.port i := rfl
@[simp] theorem deliver_inputs (i : Input) (s : State) : (deliver i s).inputs = s.inputs := rfl
@[simp] theorem deliver_drawCount (i : Input) (s : State) :
    (deliver i s).drawCount = s.drawCount := rfl

/-! Updates of an instance. -/

@[simp] theorem respond_wiring (b : Block) (res : Word32) (stat : Status) :
    (respond b res stat).wiring = b.wiring := rfl
@[simp] theorem respond_rx (b : Block) (res : Word32) (stat : Status) :
    (respond b res stat).rx = b.rx := rfl
@[simp] theorem respond_tx (b : Block) (res : Word32) (stat : Status) :
    (respond b res stat).tx = b.tx := rfl
@[simp] theorem respond_dead (b : Block) (res : Word32) (stat : Status) :
    (respond b res stat).dead = b.dead := rfl
@[simp] theorem respond_notifs (b : Block) (res : Word32) (stat : Status) :
    (respond b res stat).notifs = b.notifs := rfl
@[simp] theorem respond_responses (b : Block) (res : Word32) (stat : Status) :
    (respond b res stat).responses = b.responses ++ [⟨res, stat⟩] := rfl

@[simp] theorem notifyRx_wiring (b : Block) (c : Word32) (p : Protocol) (v : Bool) :
    (notifyRx b c p v).wiring = b.wiring := by
  unfold notifyRx; split <;> rfl
@[simp] theorem notifyRx_rx (b : Block) (c : Word32) (p : Protocol) (v : Bool) :
    (notifyRx b c p v).rx = b.rx := by
  unfold notifyRx; split <;> rfl
@[simp] theorem notifyRx_tx (b : Block) (c : Word32) (p : Protocol) (v : Bool) :
    (notifyRx b c p v).tx = b.tx := by
  unfold notifyRx; split <;> rfl
@[simp] theorem notifyRx_dead (b : Block) (c : Word32) (p : Protocol) (v : Bool) :
    (notifyRx b c p v).dead = b.dead := by
  unfold notifyRx; split <;> rfl
@[simp] theorem notifyRx_notifs (b : Block) (c : Word32) (p : Protocol) (v : Bool) :
    (notifyRx b c p v).notifs = if b.rx.rxCb = 0#32 then b.notifs else b.notifs ++ [.rx b.rx.rxCb c p v] := by
  unfold notifyRx; split <;> rfl
@[simp] theorem notifyRx_responses (b : Block) (c : Word32) (p : Protocol) (v : Bool) :
    (notifyRx b c p v).responses = b.responses := by
  unfold notifyRx; split <;> rfl

@[simp] theorem notifyTx_wiring (b : Block) (v : Bool) : (notifyTx b v).wiring = b.wiring := by
  unfold notifyTx; split <;> rfl
@[simp] theorem notifyTx_rx (b : Block) (v : Bool) : (notifyTx b v).rx = b.rx := by
  unfold notifyTx; split <;> rfl
@[simp] theorem notifyTx_tx (b : Block) (v : Bool) : (notifyTx b v).tx = b.tx := by
  unfold notifyTx; split <;> rfl
@[simp] theorem notifyTx_dead (b : Block) (v : Bool) : (notifyTx b v).dead = b.dead := by
  unfold notifyTx; split <;> rfl
@[simp] theorem notifyTx_notifs (b : Block) (v : Bool) :
    (notifyTx b v).notifs = if b.tx.txCb = 0#32 then b.notifs else b.notifs ++ [.tx b.tx.txCb v] := by
  unfold notifyTx; split <;> rfl
@[simp] theorem notifyTx_responses (b : Block) (v : Bool) :
    (notifyTx b v).responses = b.responses := by
  unfold notifyTx; split <;> rfl

/-! Updates of the receiver. -/

@[simp] theorem arm_rxState (r : Receiver) : (arm r).rxState = r.rxState := rfl
@[simp] theorem arm_capBuf (r : Receiver) : (arm r).capBuf = r.capBuf := rfl
@[simp] theorem arm_capLen (r : Receiver) : (arm r).capLen = 0#8 := rfl
@[simp] theorem arm_capReady (r : Receiver) : (arm r).capReady = false := rfl
@[simp] theorem arm_capEn (r : Receiver) : (arm r).capEn = true := rfl
@[simp] theorem arm_haveLast (r : Receiver) : (arm r).haveLast = false := rfl
@[simp] theorem arm_lastEdgeUs (r : Receiver) : (arm r).lastEdgeUs = r.lastEdgeUs := rfl
@[simp] theorem arm_rawBuf (r : Receiver) : (arm r).rawBuf = r.rawBuf := rfl
@[simp] theorem arm_rawLen (r : Receiver) : (arm r).rawLen = r.rawLen := rfl
@[simp] theorem arm_rxCode (r : Receiver) : (arm r).rxCode = r.rxCode := rfl
@[simp] theorem arm_rxProto (r : Receiver) : (arm r).rxProto = r.rxProto := rfl
@[simp] theorem arm_rxValid (r : Receiver) : (arm r).rxValid = r.rxValid := rfl
@[simp] theorem arm_rxStartMs (r : Receiver) : (arm r).rxStartMs = r.rxStartMs := rfl
@[simp] theorem arm_periodic (r : Receiver) : (arm r).periodic = r.periodic := rfl
@[simp] theorem arm_rxCb (r : Receiver) : (arm r).rxCb = r.rxCb := rfl
@[simp] theorem arm_bound (r : Receiver) : (arm r).bound = r.bound := rfl
@[simp] theorem arm_timeoutMs (r : Receiver) : (arm r).timeoutMs = r.timeoutMs := rfl
@[simp] theorem arm_pwMin (r : Receiver) : (arm r).pwMin = r.pwMin := rfl
@[simp] theorem arm_pwMax (r : Receiver) : (arm r).pwMax = r.pwMax := rfl

@[simp] theorem disarm_rxState (r : Receiver) : (disarm r).rxState = r.rxState := rfl
@[simp] theorem disarm_capBuf (r : Receiver) : (disarm r).capBuf = r.capBuf := rfl
@[simp] theorem disarm_capLen (r : Receiver) : (disarm r).capLen = r.capLen := rfl
@[simp] theorem disarm_capReady (r : Receiver) : (disarm r).capReady = r.capReady := rfl
@[simp] theorem disarm_capEn (r : Receiver) : (disarm r).capEn = false := rfl
@[simp] theorem disarm_haveLast (r : Receiver) : (disarm r).haveLast = r.haveLast := rfl
@[simp] theorem disarm_lastEdgeUs (r : Receiver) : (disarm r).lastEdgeUs = r.lastEdgeUs := rfl
@[simp] theorem disarm_rawBuf (r : Receiver) : (disarm r).rawBuf = r.rawBuf := rfl
@[simp] theorem disarm_rawLen (r : Receiver) : (disarm r).rawLen = r.rawLen := rfl
@[simp] theorem disarm_rxCode (r : Receiver) : (disarm r).rxCode = r.rxCode := rfl
@[simp] theorem disarm_rxProto (r : Receiver) : (disarm r).rxProto = r.rxProto := rfl
@[simp] theorem disarm_rxValid (r : Receiver) : (disarm r).rxValid = r.rxValid := rfl
@[simp] theorem disarm_rxStartMs (r : Receiver) : (disarm r).rxStartMs = r.rxStartMs := rfl
@[simp] theorem disarm_periodic (r : Receiver) : (disarm r).periodic = r.periodic := rfl
@[simp] theorem disarm_rxCb (r : Receiver) : (disarm r).rxCb = r.rxCb := rfl
@[simp] theorem disarm_bound (r : Receiver) : (disarm r).bound = r.bound := rfl
@[simp] theorem disarm_timeoutMs (r : Receiver) : (disarm r).timeoutMs = r.timeoutMs := rfl
@[simp] theorem disarm_pwMin (r : Receiver) : (disarm r).pwMin = r.pwMin := rfl
@[simp] theorem disarm_pwMax (r : Receiver) : (disarm r).pwMax = r.pwMax := rfl

@[simp] theorem unbound_rxState (r : Receiver) : (unbound r).rxState = r.rxState := rfl
@[simp] theorem unbound_capBuf (r : Receiver) : (unbound r).capBuf = r.capBuf := rfl
@[simp] theorem unbound_capLen (r : Receiver) : (unbound r).capLen = r.capLen := rfl
@[simp] theorem unbound_capReady (r : Receiver) : (unbound r).capReady = r.capReady := rfl
@[simp] theorem unbound_capEn (r : Receiver) : (unbound r).capEn = r.capEn := rfl
@[simp] theorem unbound_haveLast (r : Receiver) : (unbound r).haveLast = r.haveLast := rfl
@[simp] theorem unbound_lastEdgeUs (r : Receiver) : (unbound r).lastEdgeUs = r.lastEdgeUs := rfl
@[simp] theorem unbound_rawBuf (r : Receiver) : (unbound r).rawBuf = r.rawBuf := rfl
@[simp] theorem unbound_rawLen (r : Receiver) : (unbound r).rawLen = r.rawLen := rfl
@[simp] theorem unbound_rxCode (r : Receiver) : (unbound r).rxCode = r.rxCode := rfl
@[simp] theorem unbound_rxProto (r : Receiver) : (unbound r).rxProto = r.rxProto := rfl
@[simp] theorem unbound_rxValid (r : Receiver) : (unbound r).rxValid = r.rxValid := rfl
@[simp] theorem unbound_rxStartMs (r : Receiver) : (unbound r).rxStartMs = r.rxStartMs := rfl
@[simp] theorem unbound_periodic (r : Receiver) : (unbound r).periodic = r.periodic := rfl
@[simp] theorem unbound_rxCb (r : Receiver) : (unbound r).rxCb = r.rxCb := rfl
@[simp] theorem unbound_bound (r : Receiver) : (unbound r).bound = false := rfl
@[simp] theorem unbound_timeoutMs (r : Receiver) : (unbound r).timeoutMs = r.timeoutMs := rfl
@[simp] theorem unbound_pwMin (r : Receiver) : (unbound r).pwMin = r.pwMin := rfl
@[simp] theorem unbound_pwMax (r : Receiver) : (unbound r).pwMax = r.pwMax := rfl

@[simp] theorem reenter_rxState (r : Receiver) (tMs : Word64) :
    (reenter r tMs).rxState = .receiving := rfl
@[simp] theorem reenter_capBuf (r : Receiver) (tMs : Word64) : (reenter r tMs).capBuf = r.capBuf :=
  rfl
@[simp] theorem reenter_capLen (r : Receiver) (tMs : Word64) : (reenter r tMs).capLen = 0#8 := rfl
@[simp] theorem reenter_capReady (r : Receiver) (tMs : Word64) :
    (reenter r tMs).capReady = false := rfl
@[simp] theorem reenter_capEn (r : Receiver) (tMs : Word64) : (reenter r tMs).capEn = true := rfl
@[simp] theorem reenter_haveLast (r : Receiver) (tMs : Word64) :
    (reenter r tMs).haveLast = false := rfl
@[simp] theorem reenter_lastEdgeUs (r : Receiver) (tMs : Word64) :
    (reenter r tMs).lastEdgeUs = r.lastEdgeUs := rfl
@[simp] theorem reenter_rawBuf (r : Receiver) (tMs : Word64) : (reenter r tMs).rawBuf = r.rawBuf :=
  rfl
@[simp] theorem reenter_rawLen (r : Receiver) (tMs : Word64) : (reenter r tMs).rawLen = r.rawLen :=
  rfl
@[simp] theorem reenter_rxCode (r : Receiver) (tMs : Word64) : (reenter r tMs).rxCode = r.rxCode :=
  rfl
@[simp] theorem reenter_rxProto (r : Receiver) (tMs : Word64) :
    (reenter r tMs).rxProto = r.rxProto := rfl
@[simp] theorem reenter_rxValid (r : Receiver) (tMs : Word64) :
    (reenter r tMs).rxValid = r.rxValid := rfl
@[simp] theorem reenter_rxStartMs (r : Receiver) (tMs : Word64) :
    (reenter r tMs).rxStartMs = tMs := rfl
@[simp] theorem reenter_periodic (r : Receiver) (tMs : Word64) :
    (reenter r tMs).periodic = r.periodic := rfl
@[simp] theorem reenter_rxCb (r : Receiver) (tMs : Word64) : (reenter r tMs).rxCb = r.rxCb := rfl
@[simp] theorem reenter_bound (r : Receiver) (tMs : Word64) : (reenter r tMs).bound = r.bound := rfl
@[simp] theorem reenter_timeoutMs (r : Receiver) (tMs : Word64) :
    (reenter r tMs).timeoutMs = r.timeoutMs := rfl
@[simp] theorem reenter_pwMin (r : Receiver) (tMs : Word64) : (reenter r tMs).pwMin = r.pwMin := rfl
@[simp] theorem reenter_pwMax (r : Receiver) (tMs : Word64) : (reenter r tMs).pwMax = r.pwMax := rfl

@[simp] theorem enterBound_rxState (r : Receiver) (tMs : Word64) :
    (enterBound r tMs).rxState = .receiving := rfl
@[simp] theorem enterBound_capBuf (r : Receiver) (tMs : Word64) :
    (enterBound r tMs).capBuf = r.capBuf := rfl
@[simp] theorem enterBound_capLen (r : Receiver) (tMs : Word64) :
    (enterBound r tMs).capLen = 0#8 := rfl
@[simp] theorem enterBound_capReady (r : Receiver) (tMs : Word64) :
    (enterBound r tMs).capReady = false := rfl
@[simp] theorem enterBound_capEn (r : Receiver) (tMs : Word64) : (enterBound r tMs).capEn = true :=
  rfl
@[simp] theorem enterBound_haveLast (r : Receiver) (tMs : Word64) :
    (enterBound r tMs).haveLast = false := rfl
@[simp] theorem enterBound_lastEdgeUs (r : Receiver) (tMs : Word64) :
    (enterBound r tMs).lastEdgeUs = r.lastEdgeUs := rfl
@[simp] theorem enterBound_rawBuf (r : Receiver) (tMs : Word64) :
    (enterBound r tMs).rawBuf = r.rawBuf := rfl
@[simp] theorem enterBound_rawLen (r : Receiver) (tMs : Word64) :
    (enterBound r tMs).rawLen = r.rawLen := rfl
@[simp] theorem enterBound_rxCode (r : Receiver) (tMs : Word64) :
    (enterBound r tMs).rxCode = r.rxCode := rfl
@[simp] theorem enterBound_rxProto (r : Receiver) (tMs : Word64) :
    (enterBound r tMs).rxProto = r.rxProto := rfl
@[simp] theorem enterBound_rxValid (r : Receiver) (tMs : Word64) :
    (enterBound r tMs).rxValid = r.rxValid := rfl
@[simp] theorem enterBound_rxStartMs (r : Receiver) (tMs : Word64) :
    (enterBound r tMs).rxStartMs = tMs := rfl
@[simp] theorem enterBound_periodic (r : Receiver) (tMs : Word64) :
    (enterBound r tMs).periodic = r.periodic := rfl
@[simp] theorem enterBound_rxCb (r : Receiver) (tMs : Word64) : (enterBound r tMs).rxCb = r.rxCb :=
  rfl
@[simp] theorem enterBound_bound (r : Receiver) (tMs : Word64) : (enterBound r tMs).bound = true :=
  rfl
@[simp] theorem enterBound_timeoutMs (r : Receiver) (tMs : Word64) :
    (enterBound r tMs).timeoutMs = r.timeoutMs := rfl
@[simp] theorem enterBound_pwMin (r : Receiver) (tMs : Word64) :
    (enterBound r tMs).pwMin = r.pwMin := rfl
@[simp] theorem enterBound_pwMax (r : Receiver) (tMs : Word64) :
    (enterBound r tMs).pwMax = r.pwMax := rfl

@[simp] theorem stopped_rxState (r : Receiver) : (stopped r).rxState = .idle := rfl
@[simp] theorem stopped_capBuf (r : Receiver) : (stopped r).capBuf = r.capBuf := rfl
@[simp] theorem stopped_capLen (r : Receiver) : (stopped r).capLen = r.capLen := rfl
@[simp] theorem stopped_capReady (r : Receiver) : (stopped r).capReady = r.capReady := rfl
@[simp] theorem stopped_capEn (r : Receiver) : (stopped r).capEn = false := rfl
@[simp] theorem stopped_haveLast (r : Receiver) : (stopped r).haveLast = r.haveLast := rfl
@[simp] theorem stopped_lastEdgeUs (r : Receiver) : (stopped r).lastEdgeUs = r.lastEdgeUs := rfl
@[simp] theorem stopped_rawBuf (r : Receiver) : (stopped r).rawBuf = r.rawBuf := rfl
@[simp] theorem stopped_rawLen (r : Receiver) : (stopped r).rawLen = r.rawLen := rfl
@[simp] theorem stopped_rxCode (r : Receiver) : (stopped r).rxCode = r.rxCode := rfl
@[simp] theorem stopped_rxProto (r : Receiver) : (stopped r).rxProto = r.rxProto := rfl
@[simp] theorem stopped_rxValid (r : Receiver) : (stopped r).rxValid = r.rxValid := rfl
@[simp] theorem stopped_rxStartMs (r : Receiver) : (stopped r).rxStartMs = r.rxStartMs := rfl
@[simp] theorem stopped_periodic (r : Receiver) : (stopped r).periodic = false := rfl
@[simp] theorem stopped_rxCb (r : Receiver) : (stopped r).rxCb = r.rxCb := rfl
@[simp] theorem stopped_bound (r : Receiver) : (stopped r).bound = false := rfl
@[simp] theorem stopped_timeoutMs (r : Receiver) : (stopped r).timeoutMs = r.timeoutMs := rfl
@[simp] theorem stopped_pwMin (r : Receiver) : (stopped r).pwMin = r.pwMin := rfl
@[simp] theorem stopped_pwMax (r : Receiver) : (stopped r).pwMax = r.pwMax := rfl

/-! Updates of the transmitter. -/

@[simp] theorem pinOut_txState (t : Transmitter) (tUs : Word64) (l : Bool) :
    (pinOut t tUs l).txState = t.txState := rfl
@[simp] theorem pinOut_txBuf (t : Transmitter) (tUs : Word64) (l : Bool) :
    (pinOut t tUs l).txBuf = t.txBuf := rfl
@[simp] theorem pinOut_seqSrc (t : Transmitter) (tUs : Word64) (l : Bool) :
    (pinOut t tUs l).seqSrc = t.seqSrc := rfl
@[simp] theorem pinOut_seqLen (t : Transmitter) (tUs : Word64) (l : Bool) :
    (pinOut t tUs l).seqLen = t.seqLen := rfl
@[simp] theorem pinOut_txIdx (t : Transmitter) (tUs : Word64) (l : Bool) :
    (pinOut t tUs l).txIdx = t.txIdx := rfl
@[simp] theorem pinOut_idxStartUs (t : Transmitter) (tUs : Word64) (l : Bool) :
    (pinOut t tUs l).idxStartUs = t.idxStartUs := rfl
@[simp] theorem pinOut_repeatsDone (t : Transmitter) (tUs : Word64) (l : Bool) :
    (pinOut t tUs l).repeatsDone = t.repeatsDone := rfl
@[simp] theorem pinOut_inGap (t : Transmitter) (tUs : Word64) (l : Bool) :
    (pinOut t tUs l).inGap = t.inGap := rfl
@[simp] theorem pinOut_gapStartUs (t : Transmitter) (tUs : Word64) (l : Bool) :
    (pinOut t tUs l).gapStartUs = t.gapStartUs := rfl
@[simp] theorem pinOut_lastToggleUs (t : Transmitter) (tUs : Word64) (l : Bool) :
    (pinOut t tUs l).lastToggleUs = t.lastToggleUs := rfl
@[simp] theorem pinOut_txPin (t : Transmitter) (tUs : Word64) (l : Bool) :
    (pinOut t tUs l).txPin = l := rfl
@[simp] theorem pinOut_txCb (t : Transmitter) (tUs : Word64) (l : Bool) :
    (pinOut t tUs l).txCb = t.txCb := rfl
@[simp] theorem pinOut_carrierHz (t : Transmitter) (tUs : Word64) (l : Bool) :
    (pinOut t tUs l).carrierHz = t.carrierHz := rfl
@[simp] theorem pinOut_power (t : Transmitter) (tUs : Word64) (l : Bool) :
    (pinOut t tUs l).power = t.power := rfl
@[simp] theorem pinOut_repeatCount (t : Transmitter) (tUs : Word64) (l : Bool) :
    (pinOut t tUs l).repeatCount = t.repeatCount := rfl
@[simp] theorem pinOut_pinTrace (t : Transmitter) (tUs : Word64) (l : Bool) :
    (pinOut t tUs l).pinTrace = if t.txPin = l then t.pinTrace else t.pinTrace ++ [⟨tUs, l⟩] := rfl

@[simp] theorem startTx_txState (t : Transmitter) (src : SeqSrc) (len : Word8) (tUs : Word64) :
    (startTx t src len tUs).txState = .transmitting := rfl
@[simp] theorem startTx_txBuf (t : Transmitter) (src : SeqSrc) (len : Word8) (tUs : Word64) :
    (startTx t src len tUs).txBuf = t.txBuf := rfl
@[simp] theorem startTx_seqSrc (t : Transmitter) (src : SeqSrc) (len : Word8) (tUs : Word64) :
    (startTx t src len tUs).seqSrc = src := rfl
@[simp] theorem startTx_seqLen (t : Transmitter) (src : SeqSrc) (len : Word8) (tUs : Word64) :
    (startTx t src len tUs).seqLen = len := rfl
@[simp] theorem startTx_txIdx (t : Transmitter) (src : SeqSrc) (len : Word8) (tUs : Word64) :
    (startTx t src len tUs).txIdx = 0#8 := rfl
@[simp] theorem startTx_idxStartUs (t : Transmitter) (src : SeqSrc) (len : Word8) (tUs : Word64) :
    (startTx t src len tUs).idxStartUs = tUs := rfl
@[simp] theorem startTx_repeatsDone (t : Transmitter) (src : SeqSrc) (len : Word8) (tUs : Word64) :
    (startTx t src len tUs).repeatsDone = 0#8 := rfl
@[simp] theorem startTx_inGap (t : Transmitter) (src : SeqSrc) (len : Word8) (tUs : Word64) :
    (startTx t src len tUs).inGap = false := rfl
@[simp] theorem startTx_gapStartUs (t : Transmitter) (src : SeqSrc) (len : Word8) (tUs : Word64) :
    (startTx t src len tUs).gapStartUs = t.gapStartUs := rfl
@[simp] theorem startTx_lastToggleUs (t : Transmitter) (src : SeqSrc) (len : Word8) (tUs : Word64) :
    (startTx t src len tUs).lastToggleUs = tUs := rfl
@[simp] theorem startTx_txPin (t : Transmitter) (src : SeqSrc) (len : Word8) (tUs : Word64) :
    (startTx t src len tUs).txPin = false := rfl
@[simp] theorem startTx_txCb (t : Transmitter) (src : SeqSrc) (len : Word8) (tUs : Word64) :
    (startTx t src len tUs).txCb = t.txCb := rfl
@[simp] theorem startTx_carrierHz (t : Transmitter) (src : SeqSrc) (len : Word8) (tUs : Word64) :
    (startTx t src len tUs).carrierHz = t.carrierHz := rfl
@[simp] theorem startTx_power (t : Transmitter) (src : SeqSrc) (len : Word8) (tUs : Word64) :
    (startTx t src len tUs).power = t.power := rfl
@[simp] theorem startTx_repeatCount (t : Transmitter) (src : SeqSrc) (len : Word8) (tUs : Word64) :
    (startTx t src len tUs).repeatCount = t.repeatCount := rfl
@[simp] theorem startTx_pinTrace (t : Transmitter) (src : SeqSrc) (len : Word8) (tUs : Word64) :
    (startTx t src len tUs).pinTrace = if t.txPin = false then t.pinTrace else t.pinTrace ++ [⟨tUs, false⟩] := rfl

end Sys2Proof.Machine
end

