-- ==== Sys2Proof/Laws/Ops.lean ====
section
/-! SUPPORT. One lemma for each shared operation that says what it can do, in the terms of Safety.lean. -/

namespace Sys2Proof.Machine

/-! Reaching the addressed instance. -/

theorem withSelf_eq_putSelf (s : State) (b : Block) : withSelf s b = putSelf s b := rfl

theorem answer_eq (s : State) (b : Block) (res : Word32) (stat : Status) :
    answer s b res stat = .next (withSelf s (replied b res stat)) := rfl

/-- To a live instance an input is what its rule makes of it. -/
theorem onSelf_of_live {s : State} {b : Block} (h : Live s b)
    (f : Block → Host.Outcome State Fault Refusal) : onSelf s f = f b := by
  simp [onSelf, self?, h.1, h.2]

/-- A next state comes only from a live instance. -/
theorem onSelf_eq_next {s t : State} {f : Block → Host.Outcome State Fault Refusal}
    (h : onSelf s f = .next t) : ∃ b, Live s b ∧ f b = .next t := by
  unfold onSelf self? at h
  split at h
  · cases h
  · next b hb =>
    split at h
    · cases h
    · next hd => exact ⟨b, ⟨hb, by simpa using hd⟩, h⟩

theorem Live.unique {s : State} {b c : Block} (hb : Live s b) (hc : s.blocks[s.port.block]? = some c) :
    c = b := by
  have := hb.1; rw [hc] at this; exact Option.some.inj this

theorem Live.lt {s : State} {b : Block} (h : Live s b) : s.port.block < s.blocks.length :=
  (List.getElem?_eq_some_iff.1 h.1).1

/-- The addressed instance after it has been replaced. -/
theorem withSelf_self {s : State} {b : Block} (h : Live s b) (c : Block) :
    (withSelf s c).blocks[s.port.block]? = some c := by
  simp [withSelf, h.lt]

/-- Every other instance after the addressed one has been replaced. -/
theorem withSelf_other (s : State) (c : Block) {k : Nat} (h : k ≠ s.port.block) :
    (withSelf s c).blocks[k]? = s.blocks[k]? := by
  simp [withSelf, h.symm]

theorem putBlock_self {s : State} {k : Nat} {b : Block} (h : s.blocks[k]? = some b) :
    putBlock s k b = s := by
  have : s.blocks.set k b = s.blocks := by
    have ⟨hlt, he⟩ := List.getElem?_eq_some_iff.1 h
    rw [← he]; exact List.set_getElem_self hlt
  simp [putBlock, this]

/-! The binding table. -/

theorem heldByOther_iff (s : State) (b : Block) : heldByOther s b = true ↔ ¬PinFreeOrOwn s b := by
  unfold heldByOther PinFreeOrOwn
  cases readCell? s.pinOwner b.wiring.rxPin <;> simp

theorem rebound_bindPin (s : State) (b : Block) :
    Rebound s (bindPin s b).pinOwner b.wiring.rxPin (some s.port.block) := by
  refine ⟨?_, fun p hp => ?_⟩ <;> simp [readCell?_writeCell, *]

theorem released_unbindPin (s : State) (b : Block) : Released s b (unbindPin s b).pinOwner := by
  refine ⟨fun h => by simp [h], fun h hw => ⟨?_, fun p hp => ?_⟩⟩ <;>
    simp [readCell?_eraseCell hw, *]

theorem bindPin_eq (s : State) (b : Block) :
    bindPin s b = { s with pinOwner := (bindPin s b).pinOwner } := rfl

theorem unbindPin_eq (s : State) (b : Block) :
    unbindPin s b = { s with pinOwner := (unbindPin s b).pinOwner } := by
  unfold unbindPin; split <;> rfl

/-! The transmit pin and the carrier. -/

theorem pinOut_eq (t : Transmitter) (tUs : Word64) (l : Bool) :
    pinOut t tUs l = { t with txPin := l, pinTrace := tracedTo t tUs l } := rfl

/-! Notifications. -/

theorem notifyRx_eq (b : Block) (c : Word32) (p : Protocol) (v : Bool) :
    notifyRx b c p v = { b with notifs :=
      if b.rx.rxCb = 0#32 then b.notifs else b.notifs ++ [.rx b.rx.rxCb c p v] } := by
  unfold notifyRx; split <;> rfl

theorem notifyTx_eq (b : Block) (v : Bool) :
    notifyTx b v = { b with notifs :=
      if b.tx.txCb = 0#32 then b.notifs else b.notifs ++ [.tx b.tx.txCb v] } := by
  unfold notifyTx; split <;> rfl

/-! The current interval of the transmitter. -/

/-- Within a frame the read of the current interval answers what `CurrentInterval` says, and counts its
draws. -/
theorem curInterval_eq_ok {s s' : State} {t : Transmitter} {d : Word32}
    (h : curInterval s t = .ok (d, s')) :
    ∃ n, CurrentInterval s t d n ∧ s' = { s with drawCount := s.drawCount + n } := by
  unfold curInterval at h
  split at h
  · cases h
  · next hsrc =>
    split at h
    · next v hv => cases h; exact ⟨0, .inl ⟨hsrc, hv, rfl⟩, rfl⟩
    · cases h
  · next base hsrc =>
    unfold memRead at h
    split at h
    · next hlt =>
      split at h
      · next v hv => cases h; exact ⟨0, .inr ⟨base, hsrc, hlt, .inl ⟨hv, rfl⟩⟩, rfl⟩
      · next hv => cases h; exact ⟨1, .inr ⟨base, hsrc, hlt, .inr ⟨hv, rfl, rfl⟩⟩, rfl⟩
    · cases h

theorem curInterval_of_currentInterval {s : State} {t : Transmitter} {d : Word32} {n : Nat}
    (h : CurrentInterval s t d n) :
    curInterval s t = .ok (d, { s with drawCount := s.drawCount + n }) := by
  rcases h with ⟨hs, hv, rfl⟩ | ⟨base, hs, hlt, ⟨hv, rfl⟩ | ⟨hv, rfl, rfl⟩⟩ <;>
    simp [curInterval, memRead, *]

/-- A read that faults found an unwritten buffer entry, or a word past the end of host memory. -/
theorem curInterval_eq_error {s : State} {t : Transmitter} {f : Fault}
    (h : curInterval s t = .error f) :
    t.seqSrc = .none ∨ (t.seqSrc = .internal ∧ readCell? t.txBuf t.txIdx.toNat = none) ∨
      ∃ base, t.seqSrc = .host base ∧ s.params.hostseqWords ≤ base.toNat + t.txIdx.toNat := by
  unfold curInterval at h
  split at h
  · next hsrc => exact .inl hsrc
  · next hsrc =>
    split at h
    · cases h
    · next hv => exact .inr (.inl ⟨hsrc, hv⟩)
  · next base hsrc =>
    unfold memRead at h
    split at h
    · split at h <;> cases h
    · next hlt => exact .inr (.inr ⟨base, hsrc, Nat.le_of_not_lt hlt⟩)

/-! The capture buffer. -/

/-- An append answers with the entry written, and disarms and marks ready at 127 entries (R154). -/
theorem appendInterval_of_room {r : Receiver} (d : Word32) (h : r.capLen.toNat < 128) :
    appendInterval r d = .ok { r with
      capBuf := writeCell r.capBuf r.capLen.toNat d
      capLen := r.capLen + 1#8
      capEn := if (r.capLen + 1#8).toNat = 127 then false else r.capEn
      capReady := if (r.capLen + 1#8).toNat = 127 then true else r.capReady } := by
  unfold appendInterval
  by_cases hf : (r.capLen + 1#8).toNat = 127 <;> simp only [seqMax, capFull, h, hf, if_true, if_false]

theorem appendInterval_of_full {r : Receiver} (d : Word32) (h : 128 ≤ r.capLen.toNat) :
    appendInterval r d = .error .bufferIndex := by
  simp [appendInterval, seqMax, Nat.not_lt.2 h]

/-- What an edge can do to a receiver. -/
theorem edgeStep_cases {r r' : Receiver} {tUs : Word64} (h : edgeStep r tUs = .ok r') :
    (r.capEn = false ∧ r' = r) ∨
    (r.capEn = true ∧ r.haveLast = false ∧ r' = { r with lastEdgeUs := tUs, haveLast := true }) ∨
    (r.capEn = true ∧ r.haveLast = true ∧ r' = { r with lastEdgeUs := tUs }) ∨
    (r.capEn = true ∧ r.haveLast = true ∧ r.capLen.toNat < 128 ∧ r' = { r with
      lastEdgeUs := tUs
      capBuf := writeCell r.capBuf r.capLen.toNat ((delta tUs r.lastEdgeUs).setWidth 32)
      capLen := r.capLen + 1#8
      capEn := decide ((r.capLen + 1#8).toNat ≠ 127)
      capReady := if (r.capLen + 1#8).toNat = 127 then true else r.capReady }) := by
  unfold edgeStep at h
  split at h
  · next he => cases h; exact .inl ⟨by simpa using he, rfl⟩
  · next he =>
    have he : r.capEn = true := by simpa using he
    split at h
    · next hl => cases h; exact .inr (.inl ⟨he, by simpa using hl, rfl⟩)
    · next hl =>
      have hl : r.haveLast = true := by simpa using hl
      simp only at h
      split at h
      · rcases Nat.lt_or_ge r.capLen.toNat 128 with hlt | hge
        · rw [appendInterval_of_room (r := { r with lastEdgeUs := tUs }) _ hlt] at h
          cases h
          refine .inr (.inr (.inr ⟨he, hl, hlt, ?_⟩))
          by_cases hf : (r.capLen + 1#8).toNat = 127 <;> simp [hf, he]
        · rw [appendInterval_of_full (r := { r with lastEdgeUs := tUs }) _ hge] at h; cases h
      · cases h; exact .inr (.inr (.inl ⟨he, hl, rfl⟩))

/-- An edge faults only where the capture has no room left. -/
theorem edgeStep_error {r : Receiver} {tUs : Word64} {f : Fault} (h : edgeStep r tUs = .error f) :
    r.capEn = true ∧ 128 ≤ r.capLen.toNat ∧ f = .bufferIndex := by
  unfold edgeStep at h
  split at h
  · cases h
  · next he =>
    split at h
    · cases h
    · simp only at h
      split at h
      · rcases Nat.lt_or_ge r.capLen.toNat 128 with hlt | hge
        · rw [appendInterval_of_room (r := { r with lastEdgeUs := tUs }) _ hlt] at h; cases h
        · rw [appendInterval_of_full (r := { r with lastEdgeUs := tUs }) _ hge] at h
          cases h
          exact ⟨by simpa using he, hge, rfl⟩
      · cases h

/-- What the decode step makes of an instance. -/
theorem decodeStep_eq_ok {b b' : Block} (h : decodeStep b = .ok b') :
    ∃ xs, readCells? b.rx.capBuf 0 b.rx.capLen.toNat = some xs ∧ b' = { b with
      rx := { b.rx with
        rawBuf := writeCells b.rx.rawBuf 0 xs, rawLen := b.rx.capLen, capLen := 0#8
        capReady := false
        rxCode := (classify xs).value, rxProto := (classify xs).proto
        rxValid := (classify xs).valid, rxState := .signalDetected }
      notifs := if b.rx.rxCb = 0#32 then b.notifs else b.notifs ++
        [.rx b.rx.rxCb (classify xs).value (classify xs).proto (classify xs).valid] } := by
  unfold decodeStep snapshot at h
  cases hx : readCells? b.rx.capBuf 0 b.rx.capLen.toNat with
  | none => simp [hx] at h
  | some xs =>
    have hl : xs.length = b.rx.capLen.toNat := (readCells?_eq_some.1 hx).1
    have hr := readCells?_writeCells_self b.rx.rawBuf 0 xs
    rw [hl] at hr
    simp only [hx, hr] at h
    refine ⟨xs, rfl, ?_⟩
    cases h
    simp [notifyRx_eq]

theorem decodeStep_of_written {b : Block} {xs : List Word32}
    (h : readCells? b.rx.capBuf 0 b.rx.capLen.toNat = some xs) : ∃ b', decodeStep b = .ok b' := by
  have hl : xs.length = b.rx.capLen.toNat := (readCells?_eq_some.1 h).1
  have hr := readCells?_writeCells_self b.rx.rawBuf 0 xs
  rw [hl] at hr
  simp [decodeStep, snapshot, h, hr]

theorem timeoutStep_eq (b : Block) : timeoutStep b = { b with
    rx := { b.rx with
      capEn := false, rxCode := 0#32, rxProto := .unknown, rxValid := false, rxState := .timeout }
    notifs := if b.rx.rxCb = 0#32 then b.notifs else b.notifs ++
      [.rx b.rx.rxCb 0#32 .unknown false] } := by
  simp [timeoutStep, notifyRx_eq, disarm]

/-- When the timeout fires (R185, R313). -/
theorem timedOut_iff (r : Receiver) (tMs : Word64) :
    timedOut r tMs = true ↔ r.timeoutMs.toNat < (tMs - r.rxStartMs).toNat := decide_eq_true_iff

theorem exitStep_of_periodic {b : Block} (s : State) (h : b.rx.periodic = true) :
    exitStep s b = (s, { b with rx := reenter b.rx s.port.tMs }) := by simp [exitStep, h]

theorem exitStep_of_single {b : Block} (s : State) (h : b.rx.periodic = false) :
    exitStep s b = (unbindPin s b, { b with rx := { unbound b.rx with rxState := .idle } }) := by
  simp [exitStep, h]

/-! The transmitter. -/

/-- When TX_RAW refuses its operands (R234). -/
theorem rawRefused_iff (p : Params) (base len : Word16) : rawRefused p base len = true ↔
    len.toNat = 0 ∨ 128 < len.toNat ∨ p.hostseqWords < base.toNat + len.toNat := by
  unfold rawRefused
  rw [Bool.or_eq_true, Bool.or_eq_true, decide_eq_true_iff, decide_eq_true_iff, decide_eq_true_iff,
    or_assoc]
  rfl

/-- The carrier toggles once a half-period has passed since the last toggle (R242). -/
theorem carrier_of_due {t : Transmitter} {tUs : Word64}
    (h : 1000000 / (2 * t.carrierHz.toNat) ≤ (tUs - t.lastToggleUs).toNat) :
    carrier t tUs = { t with
      txPin := !t.txPin, lastToggleUs := tUs
      pinTrace := t.pinTrace ++ [⟨tUs, !t.txPin⟩] } := by
  unfold carrier
  rw [if_pos (show halfPeriod t.carrierHz ≤ (delta tUs t.lastToggleUs).toNat from h), pinOut_eq]
  simp [tracedTo]

theorem carrier_of_not_due {t : Transmitter} {tUs : Word64}
    (h : (tUs - t.lastToggleUs).toNat < 1000000 / (2 * t.carrierHz.toNat)) : carrier t tUs = t := by
  unfold carrier
  exact if_neg (show ¬halfPeriod t.carrierHz ≤ (delta tUs t.lastToggleUs).toNat from Nat.not_le.2 h)

theorem carrier_cases (t : Transmitter) (tUs : Word64) :
    carrier t tUs = t ∨ carrier t tUs = { t with
      txPin := !t.txPin, lastToggleUs := tUs
      pinTrace := t.pinTrace ++ [⟨tUs, !t.txPin⟩] } :=
  (Nat.lt_or_ge _ _).imp carrier_of_not_due carrier_of_due

/-- The three encoded transmissions in one form: the buffer written from entry 0, the run from index 0,
the pin low (R230, R265). -/
theorem startEncoded_eq (b : Block) (xs : List Word32) (len : Nat) (tUs : Word64) :
    startEncoded b xs len tUs = { b with tx := { b.tx with
      txBuf := writeCells b.tx.txBuf 0 xs, seqSrc := .internal, seqLen := BitVec.ofNat 8 len
      txIdx := 0#8, idxStartUs := tUs, repeatsDone := 0#8, inGap := false, txPin := false
      pinTrace := tracedTo b.tx tUs false, lastToggleUs := tUs, txState := .transmitting } } := rfl

/-- What `endOfFrame` makes of an instance (R239). -/
theorem endOfFrame_of_repeat {b : Block} (tUs : Word64)
    (h : b.tx.repeatsDone.toNat < b.tx.repeatCount.toNat) :
    endOfFrame b tUs = { b with tx := { b.tx with
      repeatsDone := b.tx.repeatsDone + 1#8, inGap := true, gapStartUs := tUs, txPin := false
      pinTrace := tracedTo b.tx tUs false } } := by
  unfold endOfFrame; rw [if_pos h]; rfl

theorem endOfFrame_of_last {b : Block} (tUs : Word64)
    (h : b.tx.repeatCount.toNat ≤ b.tx.repeatsDone.toNat) :
    endOfFrame b tUs = { b with
      tx := { b.tx with
        txState := .complete, txPin := false, pinTrace := tracedTo b.tx tUs false }
      notifs := if b.tx.txCb = 0#32 then b.notifs else b.notifs ++ [.tx b.tx.txCb true] } := by
  unfold endOfFrame; rw [if_neg (Nat.not_lt.2 h), notifyTx_eq]; rfl

/-- The step of the current interval, of duration `d`, in its six cases (R238, R239, R242). -/
theorem intervalStep_cases (b : Block) (d : Word32) (tUs : Word64) :
    ((tUs - b.tx.idxStartUs).toNat < d.toNat ∧ b.tx.txIdx.toNat % 2 = 0 ∧
      intervalStep b d tUs = b) ∨
    ((tUs - b.tx.idxStartUs).toNat < d.toNat ∧ b.tx.txIdx.toNat % 2 = 0 ∧
      intervalStep b d tUs = { b with tx := { b.tx with
        txPin := !b.tx.txPin, lastToggleUs := tUs
        pinTrace := b.tx.pinTrace ++ [⟨tUs, !b.tx.txPin⟩] } }) ∨
    ((tUs - b.tx.idxStartUs).toNat < d.toNat ∧ b.tx.txIdx.toNat % 2 = 1 ∧
      intervalStep b d tUs = { b with tx := { b.tx with
        txPin := false, pinTrace := tracedTo b.tx tUs false } }) ∨
    (d.toNat ≤ (tUs - b.tx.idxStartUs).toNat ∧ b.tx.txIdx + 1#8 ≠ b.tx.seqLen ∧
      intervalStep b d tUs = { b with tx := { b.tx with
        txIdx := b.tx.txIdx + 1#8, idxStartUs := tUs } }) ∨
    (d.toNat ≤ (tUs - b.tx.idxStartUs).toNat ∧ b.tx.txIdx + 1#8 = b.tx.seqLen ∧
      b.tx.repeatsDone.toNat < b.tx.repeatCount.toNat ∧
      intervalStep b d tUs = { b with tx := { b.tx with
        txIdx := b.tx.txIdx + 1#8, idxStartUs := tUs, repeatsDone := b.tx.repeatsDone + 1#8
        inGap := true, gapStartUs := tUs, txPin := false
        pinTrace := tracedTo b.tx tUs false } }) ∨
    (d.toNat ≤ (tUs - b.tx.idxStartUs).toNat ∧ b.tx.txIdx + 1#8 = b.tx.seqLen ∧
      b.tx.repeatCount.toNat ≤ b.tx.repeatsDone.toNat ∧
      intervalStep b d tUs = { b with
        tx := { b.tx with
          txIdx := b.tx.txIdx + 1#8, idxStartUs := tUs, txState := .complete, txPin := false
          pinTrace := tracedTo b.tx tUs false }
        notifs := if b.tx.txCb = 0#32 then b.notifs else b.notifs ++ [.tx b.tx.txCb true] }) := by
  unfold intervalStep
  split
  · next h =>
    split
    · next hm =>
      rcases carrier_cases b.tx tUs with hc | hc
      · exact .inl ⟨h, hm, by rw [hc]⟩
      · exact .inr (.inl ⟨h, hm, by rw [hc]⟩)
    · next hm => exact .inr (.inr (.inl ⟨h, by omega, rfl⟩))
  · next h =>
    have h : d.toNat ≤ (tUs - b.tx.idxStartUs).toNat := Nat.le_of_not_lt h
    simp only
    split
    · next hi =>
      rcases Nat.lt_or_ge b.tx.repeatsDone.toNat b.tx.repeatCount.toNat with hr | hr
      · exact .inr (.inr (.inr (.inr (.inl ⟨h, hi, hr, endOfFrame_of_repeat tUs hr⟩))))
      · exact .inr (.inr (.inr (.inr (.inr ⟨h, hi, hr, endOfFrame_of_last tUs hr⟩))))
    · next hi => exact .inr (.inr (.inr (.inl ⟨h, hi, rfl⟩)))

/-- The step within a gap, in its two cases (R240). -/
theorem gapStep_cases (t : Transmitter) (tUs : Word64) :
    ((tUs - t.gapStartUs).toNat < 45000 ∧
      gapStep t tUs = { t with txPin := false, pinTrace := tracedTo t tUs false }) ∨
    (45000 ≤ (tUs - t.gapStartUs).toNat ∧ gapStep t tUs = { t with
      txPin := false, pinTrace := tracedTo t tUs false
      inGap := false, txIdx := 0#8, idxStartUs := tUs }) := by
  unfold gapStep
  simp only
  split
  · next h => exact .inr ⟨h, rfl⟩
  · next h => exact .inl ⟨Nat.lt_of_not_le h, rfl⟩

theorem errorStep_eq (b : Block) (tUs : Word64) : errorStep b tUs = { b with
    tx := { b.tx with txState := .error, txPin := false, pinTrace := tracedTo b.tx tUs false }
    notifs := if b.tx.txCb = 0#32 then b.notifs else b.notifs ++ [.tx b.tx.txCb false] } := by
  unfold errorStep; rw [notifyTx_eq]; rfl

/-- Within a frame TX_UPDATE is the step of the current interval (R238). -/
theorem execTxUpdate_of_inFrame {s : State} {b : Block} {d : Word32} {n : Nat} (hl : Live s b)
    (hf : InFrame b.tx) (hc : CurrentInterval s b.tx d n) :
    execTxUpdate s = .next (withSelf { s with drawCount := s.drawCount + n }
      (replied (intervalStep b d s.port.tUs) 0#32 .ok)) := by
  obtain ⟨h1, h2, h3⟩ := hf
  simp only [execTxUpdate, onSelf_of_live hl, h1, h2, h3, if_false,
    curInterval_of_currentInterval hc, answer_eq]
  rfl

/-! Reset. -/

theorem resetFrom_get (k : Nat) (ws : List Wiring) (i : Nat) :
    (Block.resetFrom k ws)[i]? = ws[i]?.map (Block.reset (k + i)) := by
  induction ws generalizing k i with
  | nil => rfl
  | cons w ws ih =>
    cases i with
    | zero => rfl
    | succ i => simp only [Block.resetFrom, List.getElem?_cons_succ, ih]; congr 2; omega

theorem length_resetFrom (k : Nat) (ws : List Wiring) : (Block.resetFrom k ws).length = ws.length := by
  induction ws generalizing k with
  | nil => rfl
  | cons w ws ih => simp [Block.resetFrom, ih]

/-! The exits of a step. -/

theorem andThen_eq_next {α β : Type} {o : Host.Outcome α Fault Refusal}
    {f : α → Host.Outcome β Fault Refusal} {y : β} (h : andThen o f = .next y) :
    ∃ x, o = .next x ∧ f x = .next y := by
  cases o <;> simp [andThen] at h
  exact ⟨_, rfl, h⟩

end Sys2Proof.Machine
end

