-- ==== Sys2Proof/Laws/Exec.lean ====
section
/-! SUPPORT. What each instruction can do when it answers a next state, said once: every statement about
all instructions follows from `exec_effect` and `execEdge_cases` by cases, without unfolding a meaning. -/

namespace Sys2Proof.Machine

/-- `t` is `s` with the addressed instance replaced by `b` and its response. -/
def Ends (s : State) (b : Block) (res : Word32) (stat : Status) (t : State) : Prop :=
  t = withSelf s (replied b res stat)

/-- Everything instruction `i`, taken by the live instance `b` of `s`, can end in. An edge addresses no
instance: `execEdge_cases`. -/
def Effect (s : State) (b : Block) (t : State) : Instr → Prop
  | .rxStart =>
    ((b.rx.rxState = .receiving ∨ ¬PinFreeOrOwn s b) ∧ Ends s b 0#32 .busy t) ∨
    (b.rx.rxState ≠ .receiving ∧ PinFreeOrOwn s b ∧
      Ends (bindPin s b) { b with rx := enterBound b.rx s.port.tMs } 1#32 .ok t)
  | .rxStop => Ends (unbindPin s b) { b with rx := stopped b.rx } 1#32 .ok t
  | .rxStartPeriodic h =>
    ((b.rx.rxState = .receiving ∨ ¬PinFreeOrOwn s b) ∧ Ends s b 0#32 .busy t) ∨
    (b.rx.rxState ≠ .receiving ∧ PinFreeOrOwn s b ∧
      Ends (bindPin s b)
        { b with rx := enterBound { b.rx with rxCb := h, periodic := true } s.port.tMs } 1#32 .ok t)
  | .rxStopPeriodic => Ends (unbindPin s b) { b with rx := stopped b.rx } 0#32 .ok t
  | .rxUpdate =>
    (b.rx.rxState = .idle ∧ Ends s b 0#32 .ok t) ∨
    (b.rx.rxState = .receiving ∧ b.rx.capReady = true ∧
      ∃ b', decodeStep b = .ok b' ∧ Ends s b' 0#32 .ok t) ∨
    (b.rx.rxState = .receiving ∧ b.rx.capReady = false ∧ timedOut b.rx s.port.tMs = true ∧
      Ends s (timeoutStep b) 0#32 .ok t) ∨
    (b.rx.rxState = .receiving ∧ b.rx.capReady = false ∧ timedOut b.rx s.port.tMs = false ∧
      Ends s b 0#32 .ok t) ∨
    ((b.rx.rxState = .signalDetected ∨ b.rx.rxState = .timeout) ∧ b.rx.periodic = true ∧
      Ends s { b with rx := reenter b.rx s.port.tMs } 0#32 .ok t) ∨
    ((b.rx.rxState = .signalDetected ∨ b.rx.rxState = .timeout) ∧ b.rx.periodic = false ∧
      Ends (unbindPin s b) { b with rx := { unbound b.rx with rxState := .idle } } 0#32 .ok t)
  | .rxIsReceiving => ∃ res, Ends s b res .ok t
  | .rxIsDetected => ∃ res, Ends s b res .ok t
  | .rxGetCode => ∃ res, Ends s b res .ok t
  | .rxGetProtocol => ∃ res, Ends s b res .ok t
  | .rxGetRawLen => ∃ res, Ends s b res .ok t
  | .rxGetRaw i =>
    (i.toNat < b.rx.rawLen.toNat ∧
      ∃ v, readCell? b.rx.rawBuf i.toNat = some v ∧ Ends s b v .ok t) ∨
    (b.rx.rawLen.toNat ≤ i.toNat ∧ Ends s b 0#32 .invalidConfig t)
  | .rxSetCallback h => Ends s { b with rx := { b.rx with rxCb := h } } 0#32 .ok t
  | .rxSetTimeout ms =>
    (100 ≤ ms.toNat ∧ ms.toNat ≤ 10000 ∧
      Ends s { b with rx := { b.rx with timeoutMs := ms } } 0#32 .ok t) ∨
    ((ms.toNat < 100 ∨ 10000 < ms.toNat) ∧ Ends s b 0#32 .invalidConfig t)
  | .rxSetMinPw us => Ends s { b with rx := { b.rx with pwMin := us } } 0#32 .ok t
  | .rxSetMaxPw us => Ends s { b with rx := { b.rx with pwMax := us } } 0#32 .ok t
  | .txNec c =>
    (b.tx.txState = .transmitting ∧ Ends s b 0#32 .busy t) ∨
    (b.tx.txState ≠ .transmitting ∧
      Ends s (startEncoded b (encodeNec c) necLen s.port.tUs) 1#32 .ok t)
  | .txRc5 c =>
    (b.tx.txState = .transmitting ∧ Ends s b 0#32 .busy t) ∨
    (b.tx.txState ≠ .transmitting ∧
      Ends s (startEncoded b (encodeRc5 c) rc5Len s.port.tUs) 1#32 .ok t)
  | .txSony c =>
    (b.tx.txState = .transmitting ∧ Ends s b 0#32 .busy t) ∨
    (b.tx.txState ≠ .transmitting ∧
      Ends s (startEncoded b (encodeSony c) sonyLen s.port.tUs) 1#32 .ok t)
  | .txRaw base len =>
    (b.tx.txState = .transmitting ∧ Ends s b 0#32 .busy t) ∨
    (b.tx.txState ≠ .transmitting ∧
      (len.toNat = 0 ∨ 128 < len.toNat ∨ s.params.hostseqWords < base.toNat + len.toNat) ∧
      Ends s b 0#32 .invalidConfig t) ∨
    (b.tx.txState ≠ .transmitting ∧ 0 < len.toNat ∧ len.toNat ≤ 128 ∧
      base.toNat + len.toNat ≤ s.params.hostseqWords ∧
      Ends s { b with tx := startTx b.tx (.host base) (len.setWidth 8) s.port.tUs } 1#32 .ok t)
  | .txUpdate =>
    (b.tx.txState = .idle ∧ Ends s b 0#32 .ok t) ∨
    ((b.tx.txState = .complete ∨ b.tx.txState = .error) ∧
      Ends s { b with tx := { b.tx with txState := .idle } } 0#32 .ok t) ∨
    (b.tx.txState = .transmitting ∧ b.tx.seqSrc = .none ∧
      Ends s (errorStep b s.port.tUs) 0#32 .ok t) ∨
    (b.tx.txState = .transmitting ∧ b.tx.seqSrc ≠ .none ∧ b.tx.inGap = true ∧
      Ends s { b with tx := gapStep b.tx s.port.tUs } 0#32 .ok t) ∨
    (InFrame b.tx ∧ ∃ d n, CurrentInterval s b.tx d n ∧
      Ends { s with drawCount := s.drawCount + n } (intervalStep b d s.port.tUs) 0#32 .ok t)
  | .txIsTransmitting => ∃ res, Ends s b res .ok t
  | .txIsComplete => ∃ res, Ends s b res .ok t
  | .txSetCallback h => Ends s { b with tx := { b.tx with txCb := h } } 0#32 .ok t
  | .txSetCarrier f =>
    (30000 ≤ f.toNat ∧ f.toNat ≤ 60000 ∧
      Ends s { b with tx := { b.tx with carrierHz := f } } 0#32 .ok t) ∨
    ((f.toNat < 30000 ∨ 60000 < f.toNat) ∧ Ends s b 0#32 .invalidConfig t)
  | .txSetPower p => Ends s { b with tx := { b.tx with power := p } } 0#32 .ok t
  | .txSetRepeat n => Ends s { b with tx := { b.tx with repeatCount := n } } 0#32 .ok t
  | .edge => False
  | .teardown => t = withSelf (unbindPin s b) { b with
      rx := unbound { disarm b.rx with periodic := false }
      tx := pinOut b.tx s.port.tUs false, dead := true }

theorem ends_of_answer {s t : State} {b : Block} {res : Word32} {stat : Status}
    (h : answer s b res stat = .next t) : Ends s b res stat t := by cases h; rfl

theorem of_onSelf {s t : State} {b : Block} {f : Block → Host.Outcome State Fault Refusal}
    (hl : Live s b) (h : onSelf s f = .next t) : f b = .next t := by rwa [onSelf_of_live hl] at h

theorem effect_rxStart {s t : State} {b : Block} (hl : Live s b) (h : execRxStart s = .next t) :
    Effect s b t .rxStart := by
  simp only [execRxStart, onSelf_of_live hl] at h
  split at h
  · next hr => exact .inl ⟨.inl hr, ends_of_answer h⟩
  · next hr =>
    split at h
    · next hh => exact .inl ⟨.inr ((heldByOther_iff s b).1 hh), ends_of_answer h⟩
    · next hh =>
      rw [heldByOther_iff, not_not] at hh
      exact .inr ⟨hr, hh, ends_of_answer h⟩

theorem effect_rxStartPeriodic {s t : State} {b : Block} {v : Word32} (hl : Live s b)
    (h : execRxStartPeriodic v s = .next t) : Effect s b t (.rxStartPeriodic v) := by
  simp only [execRxStartPeriodic, onSelf_of_live hl] at h
  split at h
  · next hr => exact .inl ⟨.inl hr, ends_of_answer h⟩
  · next hr =>
    split at h
    · next hh => exact .inl ⟨.inr ((heldByOther_iff s b).1 hh), ends_of_answer h⟩
    · next hh =>
      rw [heldByOther_iff, not_not] at hh
      exact .inr ⟨hr, hh, ends_of_answer h⟩

theorem effect_rxUpdate {s t : State} {b : Block} (hl : Live s b) (h : execRxUpdate s = .next t) :
    Effect s b t .rxUpdate := by
  simp only [execRxUpdate, onSelf_of_live hl] at h
  simp only [Effect]
  split at h
  · next hr => exact .inl ⟨hr, ends_of_answer h⟩
  · next hr =>
    split at h
    · next hc =>
      split at h
      · cases h
      · next b' hb => exact .inr (.inl ⟨hr, hc, b', hb, ends_of_answer h⟩)
    · next hc =>
      have hc : b.rx.capReady = false := by simpa using hc
      split at h
      · next ht => exact .inr (.inr (.inl ⟨hr, hc, ht, ends_of_answer h⟩))
      · next ht => exact .inr (.inr (.inr (.inl ⟨hr, hc, by simpa using ht, ends_of_answer h⟩)))
  · next hr =>
    by_cases hp : b.rx.periodic = true
    · rw [exitStep_of_periodic s hp] at h
      exact .inr (.inr (.inr (.inr (.inl ⟨.inl hr, hp, ends_of_answer h⟩))))
    · have hp : b.rx.periodic = false := by simpa using hp
      rw [exitStep_of_single s hp] at h
      exact .inr (.inr (.inr (.inr (.inr ⟨.inl hr, hp, ends_of_answer h⟩))))
  · next hr =>
    by_cases hp : b.rx.periodic = true
    · rw [exitStep_of_periodic s hp] at h
      exact .inr (.inr (.inr (.inr (.inl ⟨.inr hr, hp, ends_of_answer h⟩))))
    · have hp : b.rx.periodic = false := by simpa using hp
      rw [exitStep_of_single s hp] at h
      exact .inr (.inr (.inr (.inr (.inr ⟨.inr hr, hp, ends_of_answer h⟩))))
  · cases h

theorem effect_rxGetRaw {s t : State} {b : Block} {i : Word32} (hl : Live s b)
    (h : execRxGetRaw i s = .next t) : Effect s b t (.rxGetRaw i) := by
  simp only [execRxGetRaw, onSelf_of_live hl] at h
  split at h
  · next hi =>
    split at h
    · next v hv => exact .inl ⟨hi, v, hv, ends_of_answer h⟩
    · cases h
  · next hi => exact .inr ⟨Nat.le_of_not_lt hi, ends_of_answer h⟩

theorem effect_rxSetTimeout {s t : State} {b : Block} {ms : Word32} (hl : Live s b)
    (h : execRxSetTimeout ms s = .next t) : Effect s b t (.rxSetTimeout ms) := by
  simp only [execRxSetTimeout, onSelf_of_live hl] at h
  split at h
  · next hi => exact .inl ⟨hi.1, hi.2, ends_of_answer h⟩
  · next hi =>
    refine .inr ⟨?_, ends_of_answer h⟩
    simp only [timeoutMin, timeoutMax] at hi; omega

theorem effect_txSetCarrier {s t : State} {b : Block} {f : Word32} (hl : Live s b)
    (h : execTxSetCarrier f s = .next t) : Effect s b t (.txSetCarrier f) := by
  simp only [execTxSetCarrier, onSelf_of_live hl] at h
  split at h
  · next hi => exact .inr ⟨hi, ends_of_answer h⟩
  · next hi =>
    simp only [carrierMin, carrierMax] at hi
    exact .inl ⟨by omega, by omega, ends_of_answer h⟩

theorem effect_txRaw {s t : State} {b : Block} {base len : Word16} (hl : Live s b)
    (h : execTxRaw base len s = .next t) : Effect s b t (.txRaw base len) := by
  simp only [execTxRaw, onSelf_of_live hl] at h
  split at h
  · next hr => exact .inl ⟨hr, ends_of_answer h⟩
  · next hr =>
    split at h
    · next hb => exact .inr (.inl ⟨hr, (rawRefused_iff ..).1 hb, ends_of_answer h⟩)
    · next hb =>
      rw [rawRefused_iff] at hb
      exact .inr (.inr ⟨hr, by omega, by omega, by omega, ends_of_answer h⟩)

theorem effect_txUpdate {s t : State} {b : Block} (hl : Live s b) (h : execTxUpdate s = .next t) :
    Effect s b t .txUpdate := by
  simp only [execTxUpdate, onSelf_of_live hl] at h
  simp only [Effect]
  split at h
  · next hr => exact .inl ⟨hr, ends_of_answer h⟩
  · next hr => exact .inr (.inl ⟨.inl hr, ends_of_answer h⟩)
  · next hr => exact .inr (.inl ⟨.inr hr, ends_of_answer h⟩)
  · next hr =>
    split at h
    · next hs => exact .inr (.inr (.inl ⟨hr, hs, ends_of_answer h⟩))
    · next hs =>
      split at h
      · next hg => exact .inr (.inr (.inr (.inl ⟨hr, hs, hg, ends_of_answer h⟩)))
      · next hg =>
        split at h
        · cases h
        · next d s' hc =>
          obtain ⟨n, hn, rfl⟩ := curInterval_eq_ok hc
          exact .inr (.inr (.inr (.inr ⟨⟨hr, hs, by simpa using hg⟩, d, n, hn, ends_of_answer h⟩)))

/-- Any instance after the addressed one has been replaced by `c`. -/
theorem block_after {s u t : State} {b c b0 b' : Block} {k : Nat} (hu : u.blocks = s.blocks)
    (hp : u.port = s.port) (h : t = withSelf u c) (hl : Live s b) (hb : s.blocks[k]? = some b0)
    (hb' : t.blocks[k]? = some b') :
    (k = s.port.block ∧ b0 = b ∧ b' = c) ∨ (k ≠ s.port.block ∧ b' = b0) := by
  subst h
  simp only [withSelf, hu, hp] at hb'
  by_cases hk : k = s.port.block
  · subst hk
    rw [List.getElem?_set_self hl.lt] at hb'
    exact .inl ⟨rfl, hl.unique hb, (Option.some.inj hb').symm⟩
  · rw [List.getElem?_set_ne (fun h => hk h.symm), hb] at hb'
    exact .inr ⟨hk, (Option.some.inj hb').symm⟩

/-- Every next state of an instruction other than an edge comes of a live addressed instance, and is one
of those `Effect` lists. -/
theorem exec_effect {i : Instr} {s t : State} (h : exec i s = .next t) (hi : i ≠ .edge) :
    ∃ b, Live s b ∧ Effect s b t i := by
  have hb : ∃ b, Live s b := by
    cases i <;> first
      | exact absurd rfl hi
      | exact (onSelf_eq_next h).imp fun b hb => hb.1
  obtain ⟨b, hl⟩ := hb
  refine ⟨b, hl, ?_⟩
  cases i with
  | rxStart => exact effect_rxStart hl h
  | rxStartPeriodic v => exact effect_rxStartPeriodic hl h
  | rxUpdate => exact effect_rxUpdate hl h
  | rxGetRaw v => exact effect_rxGetRaw hl h
  | rxSetTimeout v => exact effect_rxSetTimeout hl h
  | txSetCarrier v => exact effect_txSetCarrier hl h
  | txRaw base len => exact effect_txRaw hl h
  | txUpdate => exact effect_txUpdate hl h
  | edge => exact absurd rfl hi
  | teardown => simp only [exec, execTeardown, onSelf_of_live hl] at h; cases h; rfl
  | txNec c =>
    simp only [exec, execTxNec, onSelf_of_live hl] at h
    split at h
    · next hr => exact .inl ⟨hr, ends_of_answer h⟩
    · next hr => exact .inr ⟨hr, ends_of_answer h⟩
  | txRc5 c =>
    simp only [exec, execTxRc5, onSelf_of_live hl] at h
    split at h
    · next hr => exact .inl ⟨hr, ends_of_answer h⟩
    · next hr => exact .inr ⟨hr, ends_of_answer h⟩
  | txSony c =>
    simp only [exec, execTxSony, onSelf_of_live hl] at h
    split at h
    · next hr => exact .inl ⟨hr, ends_of_answer h⟩
    · next hr => exact .inr ⟨hr, ends_of_answer h⟩
  | rxStop => exact ends_of_answer (of_onSelf hl h)
  | rxStopPeriodic => exact ends_of_answer (of_onSelf hl h)
  | rxSetCallback v => exact ends_of_answer (of_onSelf hl h)
  | rxSetMinPw v => exact ends_of_answer (of_onSelf hl h)
  | rxSetMaxPw v => exact ends_of_answer (of_onSelf hl h)
  | txSetCallback v => exact ends_of_answer (of_onSelf hl h)
  | txSetPower v => exact ends_of_answer (of_onSelf hl h)
  | txSetRepeat v => exact ends_of_answer (of_onSelf hl h)
  | rxIsReceiving => exact ⟨_, ends_of_answer (of_onSelf hl h)⟩
  | rxIsDetected => exact ⟨_, ends_of_answer (of_onSelf hl h)⟩
  | rxGetCode => exact ⟨_, ends_of_answer (of_onSelf hl h)⟩
  | rxGetProtocol => exact ⟨_, ends_of_answer (of_onSelf hl h)⟩
  | rxGetRawLen => exact ⟨_, ends_of_answer (of_onSelf hl h)⟩
  | txIsTransmitting => exact ⟨_, ends_of_answer (of_onSelf hl h)⟩
  | txIsComplete => exact ⟨_, ends_of_answer (of_onSelf hl h)⟩

/-- In every case one instance is replaced, in a state that differs from the first at most in the binding
table and the draws. -/
theorem effect_shape {i : Instr} {s t : State} {b : Block} (e : Effect s b t i) :
    ∃ u c, u.blocks = s.blocks ∧ u.port = s.port ∧ u.params = s.params ∧ u.hostMem = s.hostMem ∧
      u.inputs = s.inputs ∧ t = withSelf u c := by
  cases i <;> simp only [Effect, Ends] at e <;> (try casesm* _ ∨ _, _ ∧ _, ∃ _, _) <;>
    refine ⟨_, _, ?_, ?_, ?_, ?_, ?_, ‹t = withSelf _ _›⟩ <;> simp

/-- An edge changes nothing, or the receiver of the live instance that its pin is bound to. -/
theorem execEdge_cases {s t : State} (h : execEdge s = .next t) :
    t = s ∨ ∃ k b r, readCell? s.pinOwner s.port.pin = some k ∧ s.blocks[k]? = some b ∧
      b.dead = false ∧ edgeStep b.rx s.port.tUs = .ok r ∧ t = putBlock s k { b with rx := r } := by
  unfold execEdge at h
  split at h
  · cases h; exact .inl rfl
  · next k hk =>
    split at h
    · cases h; exact .inl rfl
    · next b hb =>
      split at h
      · cases h; exact .inl rfl
      · next hd =>
        split at h
        · cases h
        · next r hr => cases h; exact .inr ⟨k, b, r, hk, hb, by simpa using hd, hr, rfl⟩

end Sys2Proof.Machine
end

