-- ==== Sys2Proof/Laws/Protocol.lean ====
section
/-! SUPPORT. What a match of a protocol says about its sequence, and the entries of the encoders' pairs. -/

namespace Sys2Proof.Machine

/-- A closed window (R15). -/
theorem win_iff {d : Word32} {n t : Nat} :
    win d n t = true ↔ n - t ≤ d.toNat ∧ d.toNat ≤ n + t := by simp [win]

/-- An interval in a window, through the test that the matchers make (R15, R202). -/
theorem inWindow_iff {s : List Word32} {i n t : Nat} :
    InWindow s i (n - t) (n + t) ↔ ∃ d, s[i]? = some d ∧ win d n t = true := by
  simp only [InWindow, win_iff]

theorem inWindow_of_getElem? {s : List Word32} {i lo hi : Nat} {d : Word32} (h : s[i]? = some d) :
    InWindow s i lo hi ↔ lo ≤ d.toNat ∧ d.toNat ≤ hi := by
  simp [InWindow, h]

/-- An interval in a window is present (R201). -/
theorem InWindow.lt_length {s : List Word32} {i lo hi : Nat} (h : InWindow s i lo hi) :
    i < s.length := by
  obtain ⟨d, hd, _⟩ := h
  exact (List.getElem?_eq_some_iff.1 hd).1

/-! NEC (R203). -/

/-- The windows of the two spaces are disjoint, so the space decides the bit (R202). -/
theorem necBit_eq_some {m sp : Word32} {b : Bool} : necBit m sp = some b ↔
    win m 562 200 = true ∧ if b then win sp 1687 300 = true else win sp 562 200 = true := by
  have hd : ¬(win sp 562 200 = true ∧ win sp 1687 300 = true) := by
    simp only [win_iff]; omega
  unfold necBit
  cases b <;> cases hm : win m 562 200 <;> cases h0 : win sp 562 200 <;>
    cases h1 : win sp 1687 300 <;> simp_all

theorem necBits_succ {s : List Word32} {k : Nat} {v : Word32} (h : necBits s (k + 1) = some v) :
    ∃ u m sp b, necBits s k = some u ∧ s[2 + 2 * k]? = some m ∧ s[3 + 2 * k]? = some sp ∧
      necBit m sp = some b ∧ v = (u <<< 1) ||| (if b then 1#32 else 0#32) := by
  simp only [necBits] at h
  split at h
  · next u m sp hu hm hsp =>
    split at h
    · next b hb => cases h; exact ⟨u, m, sp, b, hu, hm, hsp, hb, rfl⟩
    · cases h
  · cases h

theorem necBits_of {s : List Word32} {k : Nat} {u m sp : Word32} {b : Bool}
    (hu : necBits s k = some u) (hm : s[2 + 2 * k]? = some m) (hsp : s[3 + 2 * k]? = some sp)
    (hb : necBit m sp = some b) :
    necBits s (k + 1) = some ((u <<< 1) ||| (if b then 1#32 else 0#32)) := by
  simp only [necBits, hu, hm, hsp, hb]

/-- The bits read depend on the entries they lie in, and on no other. -/
theorem necBits_congr {s s' : List Word32} {n : Nat} (h : ∀ i, i < 2 + 2 * n → s[i]? = s'[i]?) :
    necBits s n = necBits s' n := by
  induction n with
  | zero => rfl
  | succ n ih =>
    simp only [necBits]
    rw [ih (fun i hi => h i (by omega)), h (2 + 2 * n) (by omega), h (3 + 2 * n) (by omega)]

theorem matchNec_eq_some {s : List Word32} {v : Word32} : matchNec s = some v ↔
    34 ≤ s.length ∧ ∃ m sp, s[0]? = some m ∧ s[1]? = some sp ∧ win m 9000 1000 = true ∧
      win sp 4500 500 = true ∧ necBits s 32 = some v := by
  unfold matchNec necMin
  constructor
  · intro h
    split at h
    · cases h
    · next hl =>
      split at h
      · next m sp hm hsp =>
        split at h
        · next hw =>
          simp only [Bool.and_eq_true] at hw
          exact ⟨by omega, m, sp, hm, hsp, hw.1, hw.2, h⟩
        · cases h
      · cases h
  · rintro ⟨hl, m, sp, hm, hsp, h1, h2, h⟩
    simp [Nat.not_lt.2 hl, hm, hsp, h1, h2, h]

/-! Sony (R205). -/

/-- The windows of the two marks are disjoint, so the mark decides the bit (R202). -/
theorem sonyBit_eq_some {m sp : Word32} {b : Bool} : sonyBit m sp = some b ↔
    win sp 600 200 = true ∧ if b then win m 1200 300 = true else win m 600 200 = true := by
  have hd : ¬(win m 600 200 = true ∧ win m 1200 300 = true) := by
    simp only [win_iff]; omega
  unfold sonyBit
  cases b <;> cases hs : win sp 600 200 <;> cases h0 : win m 600 200 <;>
    cases h1 : win m 1200 300 <;> simp_all

/-- A position that is present is read; one whose space is absent ends the frame (R205). -/
theorem sonyBits_succ {s : List Word32} {k : Nat} {v : Word16} : sonyBits s (k + 1) = some v ↔
    ∃ u, sonyBits s k = some u ∧
      if 3 + 2 * k < s.length then ∃ m sp b, s[2 + 2 * k]? = some m ∧ s[3 + 2 * k]? = some sp ∧
        sonyBit m sp = some b ∧ v = u ||| ((if b then 1#16 else 0#16) <<< k)
      else v = u := by
  simp only [sonyBits]
  cases hu : sonyBits s k with
  | none => simp
  | some u =>
    by_cases hl : 3 + 2 * k < s.length
    · obtain ⟨m, hm⟩ : ∃ m, s[2 + 2 * k]? = some m := ⟨_, List.getElem?_eq_getElem (by omega)⟩
      obtain ⟨sp, hsp⟩ : ∃ sp, s[3 + 2 * k]? = some sp := ⟨_, List.getElem?_eq_getElem hl⟩
      simp only [hl, if_true, hm, hsp, Option.some.injEq]
      cases hb : sonyBit m sp with
      | none =>
        simp only [reduceCtorEq, false_iff]
        rintro ⟨_, rfl, _, _, _, rfl, rfl, h, _⟩
        simp [hb] at h
      | some b =>
        simp only [Option.some.injEq]
        constructor
        · rintro rfl
          exact ⟨u, rfl, m, sp, b, rfl, rfl, hb, rfl⟩
        · rintro ⟨_, rfl, _, _, _, rfl, rfl, h, rfl⟩
          obtain rfl : b = _ := Option.some.inj (hb.symm.trans h)
          rfl
    · simp [hl, eq_comm]

theorem sonyBits_congr {s s' : List Word32} {n : Nat} (h : ∀ i, i < 2 + 2 * n → s[i]? = s'[i]?) :
    sonyBits s n = sonyBits s' n := by
  induction n with
  | zero => rfl
  | succ n ih =>
    simp only [sonyBits]
    rw [ih (fun i hi => h i (by omega)), h (2 + 2 * n) (by omega), h (3 + 2 * n) (by omega)]

theorem matchSony_eq_some {s : List Word32} {v : Word32} : matchSony s = some v ↔
    24 ≤ s.length ∧ ∃ m sp u, s[0]? = some m ∧ s[1]? = some sp ∧ win m 2400 300 = true ∧
      win sp 600 200 = true ∧ sonyBits s 12 = some u ∧ v = u.setWidth 32 := by
  unfold matchSony sonyMin
  constructor
  · intro h
    split at h
    · cases h
    · next hl =>
      split at h
      · next m sp hm hsp =>
        split at h
        · next hw =>
          simp only [Bool.and_eq_true, Option.map_eq_some_iff] at hw h
          obtain ⟨u, hu, rfl⟩ := h
          exact ⟨by omega, m, sp, u, hm, hsp, hw.1, hw.2, hu, rfl⟩
        · cases h
      · cases h
  · rintro ⟨hl, m, sp, u, hm, hsp, h1, h2, h, rfl⟩
    simp [Nat.not_lt.2 hl, hm, hsp, h1, h2, h]

/-! RC5 (R207, R208). -/

theorem rc5Bits_succ {s : List Word32} {k : Nat} {v : Word32} (h : rc5Bits s (k + 1) = some v) :
    ∃ u a b, rc5Bits s k = some u ∧ s[2 * k]? = some a ∧ s[2 * k + 1]? = some b ∧
      win a 889 222 = true ∧ win b 889 222 = true ∧ v = (u <<< 1) ||| 1#32 := by
  simp only [rc5Bits] at h
  split at h
  · next u a b hu ha hb =>
    split at h
    · next hw =>
      simp only [Bool.and_eq_true] at hw
      cases h
      exact ⟨u, a, b, hu, ha, hb, hw.1, hw.2, rfl⟩
    · cases h
  · cases h

theorem rc5Bits_of {s : List Word32} {k : Nat} {u a b : Word32} (hu : rc5Bits s k = some u)
    (ha : s[2 * k]? = some a) (hb : s[2 * k + 1]? = some b) (wa : win a 889 222 = true)
    (wb : win b 889 222 = true) : rc5Bits s (k + 1) = some ((u <<< 1) ||| 1#32) := by
  simp only [rc5Bits, hu, ha, hb, wa, wb, Bool.and_true, if_true]

/-! The encoders' pairs (R261, R263, R264). -/

theorem length_necPairs (c : Word32) (n : Nat) : (necPairs c n).length = 2 * n := by
  induction n with
  | zero => rfl
  | succ n ih => simp [necPairs, necPair, ih]; omega

theorem necPairs_get (c : Word32) {n k : Nat} (h : k < n) :
    (necPairs c n)[2 * k]? = some 562#32 ∧
    (necPairs c n)[2 * k + 1]? = some (if c.getLsbD (n - 1 - k) then 1687#32 else 562#32) := by
  induction n generalizing k with
  | zero => omega
  | succ n ih =>
    cases k with
    | zero => simp [necPairs, necPair]
    | succ k =>
      have := ih (k := k) (by omega)
      have e1 : 2 * (k + 1) = (2 * k) + 1 + 1 := by omega
      have e3 : n + 1 - 1 - (k + 1) = n - 1 - k := by omega
      rw [e1, e3]
      simpa only [necPairs, necPair, List.cons_append, List.nil_append,
        List.getElem?_cons_succ] using this

theorem length_sonyPairs (c : Word16) (k n : Nat) : (sonyPairs c k n).length = 2 * n := by
  induction n generalizing k with
  | zero => rfl
  | succ n ih => simp [sonyPairs, sonyPair, ih]; omega

theorem sonyPairs_get (c : Word16) (j : Nat) {n k : Nat} (h : k < n) :
    (sonyPairs c j n)[2 * k]? = some (if c.getLsbD (j + k) then 1200#32 else 600#32) ∧
    (sonyPairs c j n)[2 * k + 1]? = some 600#32 := by
  induction n generalizing k j with
  | zero => omega
  | succ n ih =>
    cases k with
    | zero => simp [sonyPairs, sonyPair]
    | succ k =>
      have := ih (j + 1) (k := k) (by omega)
      have e1 : 2 * (k + 1) = (2 * k) + 1 + 1 := by omega
      have e3 : j + (k + 1) = j + 1 + k := by omega
      rw [e1, e3]
      simpa only [sonyPairs, sonyPair, List.cons_append, List.nil_append,
        List.getElem?_cons_succ] using this

theorem rc5Pairs_eq (f : Word16) (n : Nat) : rc5Pairs f n = List.replicate (2 * n) 889#32 := by
  induction n with
  | zero => rfl
  | succ n ih =>
    have : 2 * (n + 1) = 2 * n + 1 + 1 := by omega
    rw [this, rc5Pairs, ih]
    simp [rc5Pair, List.replicate_succ]

@[simp] theorem length_encodeNec (c : Word32) : (encodeNec c).length = 68 := by
  simp [encodeNec, length_necPairs]

@[simp] theorem length_encodeSony (c : Word16) : (encodeSony c).length = 26 := by
  simp [encodeSony, length_sonyPairs]

@[simp] theorem length_encodeRc5 (c : Word16) : (encodeRc5 c).length = 28 := by
  simp [encodeRc5, rc5Pairs_eq]

end Sys2Proof.Machine
end

