-- ==== Sys2Proof/Laws/Invariants.lean ====
section
/-! SUPPORT. What each shared operation keeps of the invariants of Safety.lean, one lemma for each; the
invariants of a whole step follow by cases on the instruction. -/

namespace Sys2Proof.Machine

theorem receiverInv_reset (k) : ReceiverInv (Receiver.reset k) := by
  constructor <;> simp [Receiver.reset, written, withinBuffer, Cells.wf, timeoutDefault]

theorem transmitterInv_reset (n k) : TransmitterInv n (Transmitter.reset k) := by
  constructor <;> simp [Transmitter.reset, withinBuffer, Cells.wf, carrierDefault, traceLevel,
      alternates]

/-! The binding table (R56, R171, R172). -/
theorem table_same {s t : State} {k : Nat} {b c : Block} (hT : TableInv s)
    (hb : s.blocks[k]? = some b) (ht: t.blocks = s.blocks.set k c) (hp : t.pinOwner = s.pinOwner)
    (hw : c.wiring = b.wiring) (hbd : c.rx.bound = b.rx.bound) : TableInv t := by
  have hlt := (List.getElem?_eq_some_iff.1 hb).1
  have hg : ∀ (j : Nat) (d : Block), t.blocks[j]? = some d → ∃ d0 : Block, s.blocks[j]? = some d0 ∧
      d.wiring = d0.wiring ∧ d.rx.bound = d0.rx.bound := by
    intro j d hd
    rw [ht] at hd
    by_cases h : k = j
    · subst h; rw [List.getElem?_set_self hlt] at hd; cases hd; exact ⟨b, hb, hw, hbd⟩
    · rw [List.getElem?_set_ne h] at hd; exact ⟨d, hd, rfl, rfl⟩
  have hg' : ∀ (j : Nat) (d0 : Block), s.blocks[j]? = some d0 → ∃ d : Block, t.blocks[j]? = some d
      ∧ d.wiring = d0.wiring ∧ d.rx.bound = d0.rx.bound := by
    intro j d hd
    rw [ht]
    by_cases h : k = j
    · subst h; rw [List.getElem?_set_self hlt]; rw [hb] at hd; cases hd; exact ⟨c, rfl, hw, hbd⟩
    · rw [List.getElem?_set_ne h]; exact ⟨d, hd, rfl, rfl⟩
  refine ⟨by rw [hp]; exact hT.table_wf, fun p j h => ?_, fun j d hd hbo => ?_⟩
  · rw [hp] at h
    obtain ⟨d0, h1, h2, h3⟩ := hT.entry_bound p j h
    obtain ⟨d, h4, h5, h6⟩ := hg' j d0 h1
    exact ⟨d, h4, h6.trans h2, by rw [h5]; exact h3⟩
  · obtain ⟨d0, h1, h2, h3⟩ := hg j d hd
    rw [hp, h2]; exact hT.bound_entry j d0 h1 (h3.symm.trans hbo)

theorem table_bind {s t : State} {b c : Block} (hT : TableInv s)
    (hb : s.blocks[s.port.block]? = some b) (hf : PinFreeOrOwn s b)
    (ht: t.blocks = s.blocks.set s.port.block c) (hp : t.pinOwner = writeCell s.pinOwner
    b.wiring.rxPin s.port.block) (hw : c.wiring = b.wiring) (hbd : c.rx.bound = true) : TableInv
    t := by
  have hlt := (List.getElem?_eq_some_iff.1 hb).1
  refine ⟨by rw [hp]; exact wf_writeCell hT.table_wf _ _, fun p j h => ?_, fun j d hd hbo => ?_⟩
  · rw [hp, readCell?_writeCell] at h
    split at h
    · next hpp => cases h; exact ⟨c, by rw [ht, List.getElem?_set_self hlt], hbd, by rw [hw, hpp]⟩
    · next hpp =>
      obtain ⟨d0, h1, h2, h3⟩ := hT.entry_bound p j h
      by_cases hj : s.port.block = j
      · subst hj; rw [hb] at h1; cases h1; exact absurd h3.symm hpp
      · exact ⟨d0, by rw [ht, List.getElem?_set_ne hj]; exact h1, h2, h3⟩
  · rw [hp, readCell?_writeCell]
    rw [ht] at hd
    by_cases hj : s.port.block = j
    · subst hj; rw [List.getElem?_set_self hlt] at hd; cases hd; simp [hw]
    · rw [List.getElem?_set_ne hj] at hd
      have := hT.bound_entry j d hd hbo
      split
      · next hpp =>
        rw [hpp] at this
        rcases hf with hf | hf <;> rw [this] at hf
        · cases hf
        · cases hf; exact absurd rfl hj
      · exact this

theorem table_unbind {s t : State} {b c : Block} (hT : TableInv s)
    (hb : s.blocks[s.port.block]? = some b) (ht: t.blocks = s.blocks.set s.port.block c)
    (hp : t.pinOwner = (unbindPin s b).pinOwner) (hw : c.wiring = b.wiring)
    (hbd : c.rx.bound = false) : TableInv t := by
  rw [unbindPin_pinOwner] at hp
  cases hbo : b.rx.bound
  · rw [hbo] at hp; exact table_same hT hb ht (by simpa using hp) hw (hbd.trans hbo.symm)
  · rw [hbo] at hp; simp only [if_true] at hp
    have hlt := (List.getElem?_eq_some_iff.1 hb).1
    have hown := hT.bound_entry _ _ hb hbo
    refine ⟨by rw [hp]; exact wf_eraseCell hT.table_wf _, fun p j h => ?_, fun j d hd hbo' => ?_⟩
    · rw [hp, readCell?_eraseCell hT.table_wf] at h
      split at h
      · cases h
      · next hpp =>
        obtain ⟨d0, h1, h2, h3⟩ := hT.entry_bound p j h
        by_cases hj : s.port.block = j
        · subst hj; rw [hb] at h1; cases h1; exact absurd h3.symm hpp
        · exact ⟨d0, by rw [ht, List.getElem?_set_ne hj]; exact h1, h2, h3⟩
    · rw [hp, readCell?_eraseCell hT.table_wf]
      rw [ht] at hd
      by_cases hj : s.port.block = j
      · subst hj; rw [List.getElem?_set_self hlt] at hd; cases hd; rw [hbd] at hbo'; cases hbo'
      · rw [List.getElem?_set_ne hj] at hd
        have := hT.bound_entry j d hd hbo'
        rw [if_neg]
        · exact this
        · intro hpp; rw [hpp, hown] at this; cases this; exact absurd rfl hj

/-! The pin trace (R17). -/
theorem alternates_append (l : Bool) (tr : List PinChange) (c : PinChange) :
    alternates l (tr ++ [c]) = (alternates l tr &&
      (c.level != (match tr.getLast? with | some c => c.level | none => l))) := by
  induction tr generalizing l with
  | nil => simp [alternates]
  | cons d rest ih =>
    simp only [List.cons_append, alternates, ih, Bool.and_assoc]
    congr 2
    cases rest with
    | nil => simp
    | cons e r =>
      simp only [List.getLast?_cons_cons]
      cases h : (e :: r).getLast? with
      | none => simp at h
      | some x => rfl

theorem trace_append {tr : List PinChange} {l : Bool} {p : Bool} (h1 : traceLevel tr = p)
    (h2 : alternates false tr = true) (t : Word64) (hl : l ≠ p) :
   traceLevel (tr ++ [⟨t, l⟩]) = l ∧ alternates false (tr ++ [⟨t, l⟩]) = true := by
  constructor
  · simp [traceLevel]
  · rw [alternates_append, h2]
    have : (match tr.getLast? with | some c => c.level | none => false) = traceLevel tr := rfl
    rw [this, h1]; simpa using hl

theorem tracedTo_inv {n : Nat} {t : Transmitter} (h : TransmitterInv n t) (tUs : Word64)
    (l : Bool) : traceLevel (tracedTo t tUs l) = l ∧ alternates false (tracedTo t tUs l) = true :=
    by
  unfold tracedTo
  split
  · next hl => exact ⟨by rw [h.trace_level, hl], h.trace_alternates⟩
  · next hl => exact trace_append h.trace_level h.trace_alternates tUs (fun h => hl h.symm)

/-! What each operation of the transmitter keeps. -/
theorem written_writeCells (buf : Cells Word32) (xs : List Word32) : written (writeCells buf 0 xs)
    xs.length := by
  intro i hi
  rw [readCell?_writeCells, if_pos (by omega)]
  simp [hi]

theorem within_writeCells {buf : Cells Word32} (h : withinBuffer buf) (xs : List Word32)
    (hl : xs.length ≤ 128) : withinBuffer (writeCells buf 0 xs) := by
  intro e he
  rcases mem_writeCells he with h' | h'
  · exact h e h'
  · omega

theorem transmitterInv_encoded {n : Nat} {b : Block} (h : TransmitterInv n b.tx) {xs : List Word32}
    {len : Nat} (hl : xs.length = len) (h1 : 1 ≤ len) (h2 : len ≤ 128) (t : Word64) :
    TransmitterInv n (startEncoded b xs len t).tx := by
  rw [startEncoded_eq]
  have hl' : (BitVec.ofNat 8 len).toNat = len := by simp; omega
  have ht := tracedTo_inv h t false
  constructor <;> simp only [hl']
  · intro _; simp; omega
  · simp
  · simp
  · simp
  · intro _; rw [← hl]; exact written_writeCells _ _
  · simp
  · exact wf_writeCells h.buf_wf _ _
  · exact within_writeCells h.buf_within _ (by omega)
  · exact h.carrier_range
  · exact ht.1
  · exact ht.2

theorem transmitterInv_raw {n : Nat} {t : Transmitter} (h : TransmitterInv n t) {base len : Word16}
    (h1 : 0 < len.toNat) (h2 : len.toNat ≤ 128) (h3 : base.toNat + len.toNat ≤ n) (tUs) :
    TransmitterInv n (startTx t (.host base) (len.setWidth 8) tUs) := by
  have ht := tracedTo_inv h tUs false
  have hl : (len.setWidth 8).toNat = len.toNat := by simp; omega
  constructor <;> simp only [startTx, pinOut_eq]
  · intro _; simp; omega
  · simp
  · simp
  · simp
  · simp
  · intro b hb; cases hb; rw [hl]; exact h3
  · exact h.buf_wf
  · exact h.buf_within
  · exact h.carrier_range
  · exact ht.1
  · exact ht.2

theorem transmitterInv_idle {n : Nat} {t : Transmitter} (h : TransmitterInv n t)
    (hs : t.txState ≠ .transmitting) : TransmitterInv n { t with txState := .idle } := by
  have hp := h.resting_low hs
  have hg : t.inGap = false := by
    cases hg : t.inGap
    · rfl
    · exact absurd (h.gap_transmitting hg) hs
  constructor
  · simp
  · simp [hg]
  · simp [hp]
  · simp [hp]
  · exact h.internal_written
  · exact h.host_within
  · exact h.buf_wf
  · exact h.buf_within
  · exact h.carrier_range
  · exact h.trace_level
  · exact h.trace_alternates

theorem transmitterInv_low {n : Nat} {t : Transmitter} (h : TransmitterInv n t) (tUs) :
    TransmitterInv n { t with txPin := false, pinTrace := tracedTo t tUs false } := by
  have ht := tracedTo_inv h tUs false
  constructor
  · exact h.running
  · exact h.gap_transmitting
  · simp
  · simp
  · exact h.internal_written
  · exact h.host_within
  · exact h.buf_wf
  · exact h.buf_within
  · exact h.carrier_range
  · exact ht.1
  · exact ht.2

theorem transmitterInv_gap {n : Nat} {t : Transmitter} (h : TransmitterInv n t)
    (h1 : t.txState = .transmitting) (tUs) : TransmitterInv n (gapStep t tUs) := by
  rcases gapStep_cases t tUs with ⟨_, e⟩ | ⟨_, e⟩ <;> rw [e]
  · exact transmitterInv_low h tUs
  · have ht := tracedTo_inv h tUs false
    obtain ⟨r1, r2, r3, r4, r5⟩ := h.running h1
    constructor
    · intro _; exact ⟨r1, r2, r3, fun _ => by simp; omega, by simp⟩
    · simp
    · simp
    · simp
    · exact h.internal_written
    · exact h.host_within
    · exact h.buf_wf
    · exact h.buf_within
    · exact h.carrier_range
    · exact ht.1
    · exact ht.2

theorem transmitterInv_interval {n : Nat} {b : Block} (h : TransmitterInv n b.tx)
    (hf : InFrame b.tx) (d tUs) : TransmitterInv n (intervalStep b d tUs).tx := by
  have ht := tracedTo_inv h tUs false
  obtain ⟨r1, r2, r3, r4, r5⟩ := h.running hf.1
  have r4 := r4 hf.2.2
  have hi : (b.tx.txIdx + 1#8).toNat = b.tx.txIdx.toNat + 1 := by rw [BitVec.toNat_add]; simp; omega
  rcases intervalStep_cases b d tUs with ⟨_, _, e⟩ | ⟨_, _, e⟩ | ⟨_, _, e⟩ | ⟨_, hne, e⟩ |
      ⟨_, he, _, e⟩ | ⟨_, he, _, e⟩ <;> rw [e]
  · exact h
  · have ht := trace_append h.trace_level h.trace_alternates tUs (l := !b.tx.txPin) (by simp)
    exact ⟨h.running, h.gap_transmitting, fun hh => absurd hf.1 hh, fun _ => ⟨hf.1, hf.2.2⟩,
        h.internal_written, h.host_within, h.buf_wf, h.buf_within, h.carrier_range, ht.1, ht.2⟩
  · exact transmitterInv_low h tUs
  · refine ⟨fun _ => ⟨r1, r2, r3, fun _ => ?_, fun hh => ?_⟩, h.gap_transmitting, h.resting_low,
      h.high_in_frame, h.internal_written, h.host_within, h.buf_wf, h.buf_within, h.carrier_range,
      h.trace_level, h.trace_alternates⟩
    · have : (b.tx.txIdx + 1#8).toNat ≠ b.tx.seqLen.toNat := fun hh => hne
        (BitVec.eq_of_toNat_eq hh)
      simp only; omega
    · rw [hf.2.2] at hh; cases hh
  · exact ⟨fun _ => ⟨r1, r2, r3, fun hh => (by cases hh), fun _ => he⟩, fun _ => hf.1, fun _ =>
      rfl, fun hh => (by cases hh), h.internal_written, h.host_within, h.buf_wf, h.buf_within,
      h.carrier_range, ht.1, ht.2⟩
  · exact ⟨fun hh => (by cases hh), fun hh => (by rw [hf.2.2] at hh; cases hh), fun _ => rfl, fun
      hh => (by cases hh), h.internal_written, h.host_within, h.buf_wf, h.buf_within,
      h.carrier_range, ht.1, ht.2⟩

/-! What each operation of the receiver keeps. -/
theorem receiverInv_enter {r : Receiver} (h : ReceiverInv r) (r' : Receiver)
   (h1 : r'.capLen = 0#8) (h2 : r'.capReady = false) (h3 : r'.rxState = .receiving)
       (h4 : r'.rawLen = r.rawLen) (h5 : r'.capBuf = r.capBuf) (h6 : r'.rawBuf = r.rawBuf)
       (h7 : r'.timeoutMs = r.timeoutMs) : ReceiverInv r' := by
  constructor
  · rw [h1]; decide
  · rw [h2]; intro h; cases h
  · rw [h1]; intro; decide
  · intro; exact h3
  · rw [h4]; exact h.rawLen_cases
  · rw [h3]; simp
  · rw [h1]; intro i hi; simp at hi
  · rw [h4, h6]; exact h.raw_written
  · rw [h5]; exact h.cap_wf
  · rw [h6]; exact h.raw_wf
  · rw [h5]; exact h.cap_within
  · rw [h6]; exact h.raw_within
  · rw [h7]; exact h.timeout_range

/-- Capture off, buffers and lengths kept. -/
theorem receiverInv_off {r : Receiver} (h : ReceiverInv r) (r' : Receiver)
   (h1 : r'.capLen = r.capLen) (h2 : r'.capReady = r.capReady) (h0 : r'.capEn = false)
       (h3 : r'.rxState ≠ .decoding) (h4 : r'.rawLen = r.rawLen) (h5 : r'.capBuf = r.capBuf)
       (h6 : r'.rawBuf = r.rawBuf) (h7 : r'.timeoutMs = r.timeoutMs) : ReceiverInv r' := by
  constructor
  · rw [h1]; exact h.capLen_le
  · rw [h2, h1, h0]; intro h'; exact ⟨(h.ready_full h').1, rfl⟩
  · rw [h0]; intro h; cases h
  · rw [h0]; intro h; cases h
  · rw [h4]; exact h.rawLen_cases
  · exact h3
  · rw [h1, h5]; exact h.cap_written
  · rw [h4, h6]; exact h.raw_written
  · rw [h5]; exact h.cap_wf
  · rw [h6]; exact h.raw_wf
  · rw [h5]; exact h.cap_within
  · rw [h6]; exact h.raw_within
  · rw [h7]; exact h.timeout_range

theorem receiverInv_same {r : Receiver} (h : ReceiverInv r) (r' : Receiver)
   (h1 : r'.capLen = r.capLen) (h2 : r'.capReady = r.capReady) (h0 : r'.capEn = r.capEn)
       (h3 : r'.rxState = r.rxState) (h4 : r'.rawLen = r.rawLen) (h5 : r'.capBuf = r.capBuf)
       (h6 : r'.rawBuf = r.rawBuf) (h7 : 100 ≤ r'.timeoutMs.toNat ∧ r'.timeoutMs.toNat ≤ 10000) :
       ReceiverInv r' := by
  constructor
  · rw [h1]; exact h.capLen_le
  · rw [h2, h1, h0]; exact h.ready_full
  · rw [h0, h1]; exact h.enabled_room
  · rw [h0, h3]; exact h.enabled_receiving
  · rw [h4]; exact h.rawLen_cases
  · rw [h3]; exact h.not_decoding
  · rw [h1, h5]; exact h.cap_written
  · rw [h4, h6]; exact h.raw_written
  · rw [h5]; exact h.cap_wf
  · rw [h6]; exact h.raw_wf
  · rw [h5]; exact h.cap_within
  · rw [h6]; exact h.raw_within
  · exact h7

theorem receiverInv_edge {r r' : Receiver} {t : Word64} (h : ReceiverInv r)
    (he : edgeStep r t = .ok r') : ReceiverInv r' := by
  rcases edgeStep_cases he with ⟨_, rfl⟩ | ⟨_, _, rfl⟩ | ⟨_, _, rfl⟩ | ⟨hc, _, _, rfl⟩
  · exact h
  · exact receiverInv_same h _ rfl rfl rfl rfl rfl rfl rfl h.timeout_range
  · exact receiverInv_same h _ rfl rfl rfl rfl rfl rfl rfl h.timeout_range
  · have hroom := h.enabled_room hc
    have hi : (r.capLen + 1#8).toNat = r.capLen.toNat + 1 := by rw [BitVec.toNat_add]; simp; omega
    have hnr : r.capReady = false := by
      cases hr : r.capReady
      · rfl
      · have := (h.ready_full hr).2; rw [hc] at this; cases this
    constructor <;> simp only [hi, hnr]
    · omega
    · intro hh
      split at hh
      · next h7 => exact ⟨h7, by simp [h7]⟩
      · cases hh
    · intro hh; have : r.capLen.toNat + 1 ≠ 127 := by simpa using hh
      omega
    · intro _; exact h.enabled_receiving hc
    · exact h.rawLen_cases
    · exact h.not_decoding
    · intro i hi'
      rw [readCell?_writeCell]; split
      · rfl
      · exact h.cap_written i (by omega)
    · exact h.raw_written
    · exact wf_writeCell h.cap_wf _ _
    · exact h.raw_wf
    · intro e he
      rcases mem_writeCell he with rfl | he
      · simp only; omega
      · exact h.cap_within e he
    · exact h.raw_within
    · exact h.timeout_range

theorem receiverInv_decode {b b' : Block} (h : ReceiverInv b.rx) (hr : b.rx.capReady = true)
    (he : decodeStep b = .ok b') : ReceiverInv b'.rx := by
  obtain ⟨xs, hx, rfl⟩ := decodeStep_eq_ok he
  have ⟨h1, h2⟩ := h.ready_full hr
  have hl : xs.length = b.rx.capLen.toNat := (readCells?_eq_some.1 hx).1
  constructor <;> simp only
  · decide
  · intro hh; cases hh
  · intro hh; rw [h2] at hh; cases hh
  · intro hh; rw [h2] at hh; cases hh
  · exact .inr h1
  · simp
  · intro i hi; simp at hi
  · rw [← hl]; exact written_writeCells _ _
  · exact h.cap_wf
  · exact wf_writeCells h.raw_wf _ _
  · exact h.cap_within
  · exact within_writeCells h.raw_within _ (by omega)
  · exact h.timeout_range

/-- What an edge leaves as it is. -/
theorem edgeStep_frm {r r' : Receiver} {tUs : Word64} (h : edgeStep r tUs = .ok r') :
    r'.rxState = r.rxState ∧ r'.rawBuf = r.rawBuf ∧ r'.rawLen = r.rawLen ∧ r'.rxCode = r.rxCode ∧
        r'.rxProto = r.rxProto ∧ r'.rxValid = r.rxValid ∧
    r'.rxStartMs = r.rxStartMs ∧ r'.periodic = r.periodic ∧ r'.rxCb = r.rxCb ∧ r'.bound = r.bound ∧
        r'.timeoutMs = r.timeoutMs ∧ r'.pwMin = r.pwMin ∧ r'.pwMax = r.pwMax := by
  rcases edgeStep_cases h with ⟨_, rfl⟩ | ⟨_, _, rfl⟩ | ⟨_, _, rfl⟩ | ⟨_, _, _, rfl⟩ <;> simp

theorem inv_blocks {s t : State} {k : Nat} {b c : Block} (hI : Inv s) (hb : s.blocks[k]? = some b)
    (ht : t.blocks = s.blocks.set k c) (hp : t.params = s.params)
    (hc : BlockInv s.params.hostseqWords c) :
   ∀ (j : Nat) (d : Block), t.blocks[j]? = some d → BlockInv t.params.hostseqWords d := by
  intro j d hd
  have hlt := (List.getElem?_eq_some_iff.1 hb).1
  rw [hp]; rw [ht] at hd
  by_cases h : k = j
  · subst h; rw [List.getElem?_set_self hlt] at hd; cases hd; exact hc
  · rw [List.getElem?_set_ne h] at hd; exact hI.blocks j d hd

/-! The whole machine, by what the addressed instance changed. -/

/-- Only its transmitter. -/
theorem inv_tx {s t : State} {b : Block} (hI : Inv s) (hl : Live s b) (c : Block)
    (hrx : c.rx = b.rx) (hw : c.wiring = b.wiring) (hd : c.dead = b.dead)
   (htx : TransmitterInv s.params.hostseqWords c.tx) (n : Nat)
       (e : t = withSelf { s with drawCount := n } c) : Inv t := by
  subst e
  have hB := hI.blocks _ _ hl.1
  refine ⟨inv_blocks hI hl.1 rfl rfl ⟨hrx ▸ hB.rx, htx, fun h => hrx ▸ hB.bound_iff (hd ▸ h), fun h
      => ?_⟩, table_same hI.table hl.1 rfl rfl hw (by rw [hrx]), hI.mem_wf⟩
  rw [hd, hl.2] at h; cases h

/-- Only its receiver, the binding kept. -/
theorem inv_rx {s t : State} {b : Block} (hI : Inv s) (hl : Live s b) {c : Block}
    (e : t = withSelf s c) (htx : c.tx = b.tx) (hw : c.wiring = b.wiring) (hd : c.dead = b.dead)
   (hrx : ReceiverInv c.rx) (hbd : c.rx.bound = b.rx.bound)
       (hst : c.rx.rxState ≠ .idle ↔ b.rx.rxState ≠ .idle) : Inv t := by
  subst e
  have hB := hI.blocks _ _ hl.1
  refine ⟨inv_blocks hI hl.1 rfl rfl ⟨hrx, htx ▸ hB.tx, fun h => ?_, fun h => ?_⟩, table_same
      hI.table hl.1 rfl rfl hw hbd, hI.mem_wf⟩
  · rw [hbd, hst]; exact hB.bound_iff (hd ▸ h)
  · rw [hd, hl.2] at h; cases h

/-- Nothing but a response. -/
theorem inv_same {s t : State} {b : Block} {res st} (hI : Inv s) (hl : Live s b)
    (e : t = withSelf s (replied b res st)) : Inv t :=
  inv_rx hI hl e rfl rfl rfl (hI.blocks _ _ hl.1).rx rfl Iff.rfl

/-- An accepted start. -/
theorem inv_start {s t : State} {b : Block} {r : Receiver} (hI : Inv s) (hl : Live s b)
    (hf : PinFreeOrOwn s b) (e : t = withSelf (bindPin s b)
    (replied { b with rx := enterBound r s.port.tMs } 1#32 .ok))
    (hr : r.rawLen = b.rx.rawLen ∧ r.capBuf = b.rx.capBuf ∧ r.rawBuf = b.rx.rawBuf ∧ r.timeoutMs =
    b.rx.timeoutMs) : Inv t := by
  subst e
  have hB := hI.blocks _ _ hl.1
  refine ⟨inv_blocks hI hl.1 rfl rfl ⟨receiverInv_enter hB.rx _ rfl rfl rfl hr.1 hr.2.1 hr.2.2.1
      hr.2.2.2, hB.tx, fun h => ?_, fun h => ?_⟩, table_bind hI.table hl.1 hf rfl rfl rfl rfl,
      hI.mem_wf⟩
  · simp [replied, enterBound]
  · have h : b.dead = true := h
    rw [hl.2] at h; cases h

/-- The binding released, to Idle. -/
theorem inv_release {s t : State} {b : Block} {r : Receiver} {res st} (hI : Inv s) (hl : Live s b)
    (e : t = withSelf (unbindPin s b) (replied { b with rx := r } res st)) (h1 : r.bound = false)
    (h2 : r.rxState = .idle) (hr : ReceiverInv r) : Inv t := by
  subst e
  have hB := hI.blocks _ _ hl.1
  refine ⟨inv_blocks (b := b) (k := s.port.block) (c := replied { b with rx := r } res st) hI hl.1
      (by simp [withSelf]) (by simp [withSelf]) ⟨hr, hB.tx, fun h => ?_, fun h => ?_⟩, table_unbind
      (c := replied { b with rx := r } res st) hI.table hl.1 (by simp [withSelf]) rfl rfl h1, by
      simpa [withSelf] using hI.mem_wf⟩
  · simp [replied, h1, h2]
  · have h : b.dead = true := h
    rw [hl.2] at h; cases h

theorem inv_deliver {s : State} (h : Inv s) (p : Port) (is : List Input) :
    Inv { s with port := p, inputs := is } :=
  ⟨h.blocks, ⟨h.table.table_wf, h.table.entry_bound, h.table.bound_entry⟩, h.mem_wf⟩

/-- Within a frame the current interval can be read. -/
theorem curInterval_ok {s : State} {b : Block} (hB : BlockInv s.params.hostseqWords b)
    (hf : InFrame b.tx) : ∃ p, curInterval s b.tx = .ok p := by
  cases hc : curInterval s b.tx with
  | ok p => exact ⟨p, rfl⟩
  | error f =>
    exfalso
    obtain ⟨r1, r2, r3, r4, r5⟩ := hB.tx.running hf.1
    have r4 := r4 hf.2.2
    rcases curInterval_eq_error hc with h | ⟨h, h'⟩ | ⟨base, h, h'⟩
    · exact r1 h
    · have := hB.tx.internal_written h _ r4; rw [h'] at this; cases this
    · have := hB.tx.host_within base h; omega

end Sys2Proof.Machine
end

