-- ==== Sys2Proof/Laws/Masking.lean ====
section
/-! SUPPORT. Masking of the timestamps that no rule may read (R342): each shared operation gives
    the same,
masked, whether or not its arguments are masked. -/

namespace Sys2Proof.Machine

/-- An instance with the timestamps that no rule may read put to 0. -/
def maskBlock (b : Block) : Block := { b with rx := maskRx b.rx, tx := maskTx b.tx }

theorem maskState_eq (s : State) : maskState s = { s with blocks := s.blocks.map maskBlock } := rfl

theorem maskBlock_idem (b : Block) : maskBlock (maskBlock b) = maskBlock b := by
  unfold maskBlock maskRx maskTx
  simp only
  congr 1
  · congr 1
    · (split <;> rfl)
    · split <;> rfl
  · congr 1
    · split <;> rfl
    · split <;> rfl
    · split <;> rfl

theorem answer_mask {s s' : State} {b b' : Block} {res st} (hs : maskState s' = maskState s)
    (h : maskBlock b' = maskBlock b) : maskOutcome (answer s' b' res st) = maskOutcome
    (answer s b res st) := by
  simp only [answer, maskOutcome, putSelf, putBlock, Host.Outcome.next.injEq]
  rw [maskState_eq] at *
  rw [maskState_eq] at hs ⊢
  have h1 : maskBlock (respond b' res st) = maskBlock (respond b res st) := by
    unfold maskBlock at h ⊢
    simp only [respond, Block.mk.injEq] at h ⊢
    simp [h]
  simp only [State.mk.injEq] at hs ⊢
  obtain ⟨a1, a2, a3, a4, a5, a6, a7⟩ := hs
  refine ⟨a1, ?_, a3, a4, a5, a6, a7⟩
  rw [List.map_set, List.map_set, a2, h1, a5]

theorem maskState_idem (s : State) : maskState (maskState s) = maskState s := by
  simp only [maskState_eq, List.map_map, State.mk.injEq, and_true, true_and]
  congr 1; funext b; exact maskBlock_idem b

theorem onSelf_mask {s : State} {f f' : Block → Host.Outcome State Fault Refusal}
    (h : ∀ b, maskOutcome (f' (maskBlock b)) = maskOutcome (f b)) :
    maskOutcome (onSelf (maskState s) f') = maskOutcome (onSelf s f) := by
  unfold onSelf self?
  simp only [maskState_eq, List.getElem?_map]
  cases s.blocks[s.port.block]? with
  | none => rfl
  | some b =>
    simp only [Option.map_some]
    have : (maskBlock b).dead = b.dead := rfl
    rw [this]
    cases b.dead
    · exact h b
    · rfl

theorem unbind_mask (s : State) (b : Block) : unbindPin (maskState s) (maskBlock b) = maskState
    (unbindPin s b) := by
  unfold unbindPin
  have : (maskBlock b).rx.bound = b.rx.bound := rfl
  rw [this]; split <;> rfl

theorem maskBlock_congr {b c : Block} (h1 : b.wiring = c.wiring) (h2 : maskRx b.rx = maskRx c.rx)
    (h3 : maskTx b.tx = maskTx c.tx) (h4 : b.dead = c.dead) (h5 : b.notifs = c.notifs)
    (h6 : b.responses = c.responses) : maskBlock b = maskBlock c := by
  simp only [maskBlock, h1, h2, h3, h4, h5, h6]

theorem maskRx_idem (r : Receiver) : maskRx (maskRx r) = maskRx r := by
  unfold maskRx; simp only; congr 1
  · cases r.haveLast <;> rfl
  · split <;> rfl

theorem maskTx_idem (r : Transmitter) : maskTx (maskTx r) = maskTx r := by
  unfold maskTx; simp only; congr 1
  · split <;> rfl
  · split <;> rfl
  · split <;> rfl

/-- A receiver put in place of a masked one. -/
theorem rx_mask {b : Block} {r r' : Receiver} (h : maskRx r' = maskRx r) : maskBlock
    { maskBlock b with rx := r' } = maskBlock { b with rx := r } :=
  maskBlock_congr rfl h (maskTx_idem _) rfl rfl rfl

theorem tx_mask {b : Block} {r r' : Transmitter} (h : maskTx r' = maskTx r) : maskBlock
    { maskBlock b with tx := r' } = maskBlock { b with tx := r } :=
  maskBlock_congr rfl (maskRx_idem _) h rfl rfl rfl

theorem maskRx_enterBound (r : Receiver) (t) : maskRx (enterBound (maskRx r) t) = maskRx
    (enterBound r t) := by
  simp [maskRx, enterBound, arm]

theorem maskRx_reenter (r : Receiver) (t) : maskRx (reenter (maskRx r) t) = maskRx (reenter r t) :=
    by
  simp [maskRx, reenter, arm]

theorem maskRx_idle (r : Receiver) : maskRx { maskRx r with rxState := .idle } = maskRx
    { r with rxState := .idle } := by
  simp only [maskRx]; congr 1; (split <;> rfl)

theorem maskRx_timeout (r : Receiver) : maskRx { maskRx r with rxState := .timeout } = maskRx
    { r with rxState := .timeout } := by
  simp only [maskRx]; congr 1; (split <;> rfl)

theorem mask_rx {s : State} {b : Block} {res st} {r r' : Receiver} (h : maskRx r' = maskRx r) :
    maskOutcome (answer (maskState s) { maskBlock b with rx := r' } res st) = maskOutcome
    (answer s { b with rx := r } res st) := answer_mask (maskState_idem _) (rx_mask h)

theorem mask_tx {s : State} {b : Block} {res st} {r r' : Transmitter} (h : maskTx r' = maskTx r) :
    maskOutcome (answer (maskState s) { maskBlock b with tx := r' } res st) = maskOutcome
    (answer s { b with tx := r } res st) := answer_mask (maskState_idem _) (tx_mask h)

theorem mask_same {s : State} {b : Block} {res st} : maskOutcome
    (answer (maskState s) (maskBlock b) res st) = maskOutcome (answer s b res st) := answer_mask
    (maskState_idem _) (maskBlock_idem _)

theorem start_mask (s : State) (b : Block) (t : Word64) (r r' : Receiver)
    (hr : maskRx (enterBound r' t) = maskRx (enterBound r t)) :
  maskOutcome (if (maskBlock b).rx.rxState = .receiving then answer (maskState s) (maskBlock b)
      0#32 .busy else if heldByOther (maskState s) (maskBlock b) then answer (maskState s)
      (maskBlock b) 0#32 .busy
    else answer (bindPin (maskState s) (maskBlock b)) { maskBlock b with rx := enterBound r' t }
        1#32 .ok) =
  maskOutcome (if b.rx.rxState = .receiving then answer s b 0#32 .busy else if heldByOther s b then
      answer s b 0#32 .busy
    else answer (bindPin s b) { b with rx := enterBound r t } 1#32 .ok) := by
  have h1 : heldByOther (maskState s) (maskBlock b) = heldByOther s b := rfl
  have h2 : (maskBlock b).rx.rxState = b.rx.rxState := rfl
  rw [h1, h2]
  split
  · exact mask_same
  · split
    · exact mask_same
    · exact answer_mask (maskState_idem (bindPin s b)) (rx_mask hr)

theorem memRead_mask (s : State) (a : Nat) : memRead (maskState s) a =
    (match memRead s a with | .ok (d, s') => .ok (d, maskState s') | .error f => .error f) := by
  unfold memRead
  by_cases h : a < s.params.hostseqWords
  · cases hh : hostWord? s.params.byteOrder s.hostMem a <;> simp [maskState, h, hh]
  · simp [maskState, h]

theorem curInterval_mask (s : State) (t : Transmitter) : curInterval (maskState s) (maskTx t) =
    (match curInterval s t with | .ok (d, s') => .ok (d, maskState s') | .error f => .error f) := by
  unfold curInterval
  have : (maskTx t).seqSrc = t.seqSrc := rfl
  rw [this]
  split
  · rfl
  · have : readCell? (maskTx t).txBuf (maskTx t).txIdx.toNat = readCell? t.txBuf t.txIdx.toNat :=
      rfl
    rw [this]; cases readCell? t.txBuf t.txIdx.toNat <;> rfl
  · exact memRead_mask ..

theorem maskTx_of_transmitting {t : Transmitter} (h : t.txState = .transmitting)
    (hg : t.inGap = false): maskTx t = { t with gapStartUs := 0#64 } := by
  simp [maskTx, h, hg]

theorem maskTx_of_gap {t : Transmitter} (h : t.txState = .transmitting) (hg : t.inGap = true):
    maskTx t = t := by
  obtain ⟨⟩ := t
  simp only at h hg
  simp [maskTx, h, hg]

theorem edgeStep_mask (r : Receiver) (t : Word64) :
    (match edgeStep (maskRx r) t with | .ok r => Except.ok (maskRx r) | .error f => .error f) =
    (match edgeStep r t with | .ok r => .ok (maskRx r) | .error f => .error f) := by
  have h0 : (maskRx r).capEn = r.capEn := rfl
  have h1 : (maskRx r).haveLast = r.haveLast := rfl
  have h2 : (maskRx r).pwMin = r.pwMin := rfl
  have h3 : (maskRx r).pwMax = r.pwMax := rfl
  unfold edgeStep
  simp only [h0, h1, h2, h3]
  cases r.capEn
  · simp [maskRx_idem]
  · cases hh : r.haveLast
    · simp [maskRx]; intro h1 h2; exact absurd h2 h1
    · have : (maskRx r).lastEdgeUs = r.lastEdgeUs := by simp [maskRx, hh]
      simp only [Bool.not_true, Bool.false_eq_true, if_false, this]
      by_cases hw : r.pwMin.toNat ≤ (delta t r.lastEdgeUs).toNat ∧ (delta t r.lastEdgeUs).toNat ≤
          r.pwMax.toNat
      · simp only [hw, and_self, if_true]
        have e1 : (maskRx r).capLen = r.capLen := rfl
        have e2 : (maskRx r).capBuf = r.capBuf := rfl
        unfold appendInterval
        simp only [e1, e2]
        by_cases hx : r.capLen.toNat < seqMax
        · simp only [hx, if_true]
          by_cases hy : (r.capLen + 1#8).toNat = capFull
          · simp only [hy, if_true]; simp [maskRx]; (split <;> rfl)
          · simp only [hy, if_false]; simp [maskRx]; (split <;> rfl)
        · simp only [hx, if_false]
      · simp only [hw, if_false]; simp [maskRx]; (split <;> rfl)

end Sys2Proof.Machine
end

