-- ==== Sys2Proof/Laws/PerInstr.lean ====
section
/-! SUPPORT. The statement about every instruction as syntax, one lemma for each constructor. -/

namespace Sys2Proof.Laws.Encoding

open Sys2Proof.Machine

/-- The encoding of a command is a legal command word (R107, R108) whose opcode and operand stand for that
command in the opcode map (R106, R112); the two other inputs are their raised strobes (R102, R103). -/
def Statement (i : Instr) : Prop :=
  match encode i with
  | .command w => (commandOfWord w).wellFormed = true ∧
      instrOf (commandOfWord w).opc (commandOfWord w).arg = some i
  | .edgePort b => b = 1#1 ∧ i = .edge
  | .lifecycle b => b = 1#1 ∧ i = .teardown

theorem of_word {opc : BitVec 8} {arg : Word32} {i : Instr}
    (h : encode i = commandWord opc arg)
    (hw : Command.wellFormed { opc := opc, rsv := 0#24, arg := arg } = true)
    (hi : instrOf opc arg = some i) : Statement i := by
  unfold Statement
  rw [h]
  simp only [commandWord, commandOfWord_wordOfCommand]
  exact ⟨hw, hi⟩

theorem rxStart : Statement .rxStart := of_word rfl rfl rfl
theorem rxStop : Statement .rxStop := of_word rfl rfl rfl
theorem rxStartPeriodic (v : Word32) : Statement (.rxStartPeriodic v) :=
  of_word rfl (by simp [Command.wellFormed, Command.opcodeAssigned, Command.reservedZero,
    Command.operandBitsZero, opcodeClass, mustBeZero]) rfl
theorem rxStopPeriodic : Statement .rxStopPeriodic := of_word rfl rfl rfl
theorem rxUpdate : Statement .rxUpdate := of_word rfl rfl rfl
theorem rxIsReceiving : Statement .rxIsReceiving := of_word rfl rfl rfl
theorem rxIsDetected : Statement .rxIsDetected := of_word rfl rfl rfl
theorem rxGetCode : Statement .rxGetCode := of_word rfl rfl rfl
theorem rxGetProtocol : Statement .rxGetProtocol := of_word rfl rfl rfl
theorem rxGetRawLen : Statement .rxGetRawLen := of_word rfl rfl rfl
theorem rxGetRaw (v : Word32) : Statement (.rxGetRaw v) :=
  of_word rfl (by simp [Command.wellFormed, Command.opcodeAssigned, Command.reservedZero,
    Command.operandBitsZero, opcodeClass, mustBeZero]) rfl
theorem rxSetCallback (v : Word32) : Statement (.rxSetCallback v) :=
  of_word rfl (by simp [Command.wellFormed, Command.opcodeAssigned, Command.reservedZero,
    Command.operandBitsZero, opcodeClass, mustBeZero]) rfl
theorem rxSetTimeout (v : Word32) : Statement (.rxSetTimeout v) :=
  of_word rfl (by simp [Command.wellFormed, Command.opcodeAssigned, Command.reservedZero,
    Command.operandBitsZero, opcodeClass, mustBeZero]) rfl
theorem rxSetMinPw (v : Word32) : Statement (.rxSetMinPw v) :=
  of_word rfl (by simp [Command.wellFormed, Command.opcodeAssigned, Command.reservedZero,
    Command.operandBitsZero, opcodeClass, mustBeZero]) rfl
theorem rxSetMaxPw (v : Word32) : Statement (.rxSetMaxPw v) :=
  of_word rfl (by simp [Command.wellFormed, Command.opcodeAssigned, Command.reservedZero,
    Command.operandBitsZero, opcodeClass, mustBeZero]) rfl
theorem txNec (v : Word32) : Statement (.txNec v) :=
  of_word rfl (by simp [Command.wellFormed, Command.opcodeAssigned, Command.reservedZero,
    Command.operandBitsZero, opcodeClass, mustBeZero]) rfl
theorem txRc5 (v : Word16) : Statement (.txRc5 v) := by
  refine of_word rfl (by simp [Command.wellFormed, Command.opcodeAssigned, Command.reservedZero,
    Command.operandBitsZero, opcodeClass, u16_mask_extend]) ?_
  simp [instrOf, operandU16_extend]
theorem txSony (v : Word16) : Statement (.txSony v) := by
  refine of_word rfl (by simp [Command.wellFormed, Command.opcodeAssigned, Command.reservedZero,
    Command.operandBitsZero, opcodeClass, u16_mask_extend]) ?_
  simp [instrOf, operandU16_extend]
theorem txRaw (base len : Word16) : Statement (.txRaw base len) := by
  refine of_word rfl (by simp [Command.wellFormed, Command.opcodeAssigned, Command.reservedZero,
    Command.operandBitsZero, opcodeClass, mustBeZero]) ?_
  simp [instrOf, operandBase_append, operandLen_append]
theorem txUpdate : Statement .txUpdate := of_word rfl rfl rfl
theorem txIsTransmitting : Statement .txIsTransmitting := of_word rfl rfl rfl
theorem txIsComplete : Statement .txIsComplete := of_word rfl rfl rfl
theorem txSetCallback (v : Word32) : Statement (.txSetCallback v) :=
  of_word rfl (by simp [Command.wellFormed, Command.opcodeAssigned, Command.reservedZero,
    Command.operandBitsZero, opcodeClass, mustBeZero]) rfl
theorem txSetCarrier (v : Word32) : Statement (.txSetCarrier v) :=
  of_word rfl (by simp [Command.wellFormed, Command.opcodeAssigned, Command.reservedZero,
    Command.operandBitsZero, opcodeClass, mustBeZero]) rfl
theorem txSetPower (v : Word8) : Statement (.txSetPower v) := by
  refine of_word rfl (by simp [Command.wellFormed, Command.opcodeAssigned, Command.reservedZero,
    Command.operandBitsZero, opcodeClass, u8_mask_extend]) ?_
  simp [instrOf, operandU8_extend]
theorem txSetRepeat (v : Word8) : Statement (.txSetRepeat v) := by
  refine of_word rfl (by simp [Command.wellFormed, Command.opcodeAssigned, Command.reservedZero,
    Command.operandBitsZero, opcodeClass, u8_mask_extend]) ?_
  simp [instrOf, operandU8_extend]
theorem edge : Statement .edge := ⟨rfl, rfl⟩
theorem teardown : Statement .teardown := ⟨rfl, rfl⟩

end Sys2Proof.Laws.Encoding
end

