-- ==== Sys2Proof/Tests/Slice0.lean ====
section
/-! SUPPORT. The model's own tests. Words and results are those of spec/95_test_vectors.md, which each
test names by its ids; the words of `test_decode_…` are written out from R100, R106 and R112. The
theorems `witness_…` show, for each statement with hypotheses, states and operands that meet them. -/

namespace Sys2Proof.Tests

open Sys2Proof.Machine

/-! Decoding (30_encoding.md; V-ENC-1 to V-ENC-22). -/

theorem test_decode_receiver_words :
    decode (.command 0x0000000000000010#64) = .instr .rxStart ∧
    decode (.command 0x0000000000000011#64) = .instr .rxStop ∧
    decode (.command 0x0000000700000012#64) = .instr (.rxStartPeriodic 7#32) ∧
    decode (.command 0x0000000000000013#64) = .instr .rxStopPeriodic ∧
    decode (.command 0x0000000000000014#64) = .instr .rxUpdate ∧
    decode (.command 0x0000000000000015#64) = .instr .rxIsReceiving ∧
    decode (.command 0x0000000000000016#64) = .instr .rxIsDetected ∧
    decode (.command 0x0000000000000017#64) = .instr .rxGetCode ∧
    decode (.command 0x0000000000000018#64) = .instr .rxGetProtocol ∧
    decode (.command 0x0000000000000019#64) = .instr .rxGetRawLen ∧
    decode (.command 0xFFFFFFFF0000001A#64) = .instr (.rxGetRaw 0xFFFFFFFF#32) ∧
    decode (.command 0x000000050000001B#64) = .instr (.rxSetCallback 5#32) ∧
    decode (.command 0x000000320000001C#64) = .instr (.rxSetTimeout 50#32) ∧
    decode (.command 0x00004E200000001D#64) = .instr (.rxSetMinPw 20000#32) ∧
    decode (.command 0x00004E200000001E#64) = .instr (.rxSetMaxPw 20000#32) := by decide

theorem test_decode_transmitter_words :
    decode (.command 0x00FF00FF00000020#64) = .instr (.txNec 0x00FF00FF#32) ∧
    decode (.command 0x0000FFFF00000021#64) = .instr (.txRc5 0xFFFF#16) ∧
    decode (.command 0x000000A500000022#64) = .instr (.txSony 0x0A5#16) ∧
    decode (.command 0x0003001000000023#64) = .instr (.txRaw 0x10#16 3#16) ∧
    decode (.command 0x0000000000000024#64) = .instr .txUpdate ∧
    decode (.command 0x0000000000000025#64) = .instr .txIsTransmitting ∧
    decode (.command 0x0000000000000026#64) = .instr .txIsComplete ∧
    decode (.command 0x0000000900000027#64) = .instr (.txSetCallback 9#32) ∧
    decode (.command 0x0000C35000000028#64) = .instr (.txSetCarrier 50000#32) ∧
    decode (.command 0x000000FF00000029#64) = .instr (.txSetPower 255#8) ∧
    decode (.command 0x000000010000002A#64) = .instr (.txSetRepeat 1#8) := by decide

theorem test_decode_strobes :
    decode (.edgePort 1#1) = .instr .edge ∧ decode (.lifecycle 1#1) = .instr .teardown ∧
    decode (.edgePort 0#1) = .illegal .strobeLow ∧
    decode (.lifecycle 0#1) = .illegal .strobeLow := by decide

/-- V-ENC-3 to V-ENC-11, V-ENC-13, V-ENC-16, V-ENC-17. -/
theorem test_decode_illegal_words :
    decode (.command 0x0000000000000000#64) = .illegal .unassignedOpcode ∧
    decode (.command 0x000000000000000F#64) = .illegal .unassignedOpcode ∧
    decode (.command 0x000000000000001F#64) = .illegal .unassignedOpcode ∧
    decode (.command 0x000000000000002B#64) = .illegal .unassignedOpcode ∧
    decode (.command 0x00000000000000FF#64) = .illegal .unassignedOpcode ∧
    decode (.command 0x0000000000000110#64) = .illegal .reservedBits ∧
    decode (.command 0x0000000080000010#64) = .illegal .reservedBits ∧
    decode (.command 0x0000000100000010#64) = .illegal .operandBits ∧
    decode (.command 0x8000000000000024#64) = .illegal .operandBits ∧
    decode (.command 0x0001000000000021#64) = .illegal .operandBits ∧
    decode (.command 0x0000010000000029#64) = .illegal .operandBits ∧
    decode (.command 0x000001000000002A#64) = .illegal .operandBits := by decide

/-- One ill-formed term for each check of WellFormed.lean, beside a well-formed one. -/
theorem test_wellFormed_refuses :
    Command.opcodeAssigned ⟨0x1F#8, 0#24, 0#32⟩ = false ∧
    Command.reservedZero ⟨0x10#8, 1#24, 0#32⟩ = false ∧
    Command.operandBitsZero ⟨0x29#8, 0#24, 256#32⟩ = false ∧
    Command.wellFormed ⟨0x29#8, 0#24, 255#32⟩ = true ∧
    Input.wellFormed 2 256 (.cmd 2 0x10#64 0#64 0#64) = false ∧
    Input.wellFormed 2 256 (.teardown 2 0#64) = false ∧
    Input.wellFormed 2 256 (.hostWrite 256 0#32) = false ∧
    Input.wellFormed 2 256 (.hostWrite 255 0#32) = true := by decide

/-- The assembler text of R113. -/
theorem test_assembly : assembly (.txRaw 16#16 3#16) = "TX_RAW 16, 3" := by decide

/-! Small states: two instances that share receive pin 4, and one step of the first. -/

/-- An instance at reset, its timestamps, which reset leaves unspecified (R70), put to 0. -/
def fresh (k : Nat) (w : Wiring) : Block :=
  { Block.reset k w with
    rx := { Receiver.reset k with lastEdgeUs := 0#64, rxStartMs := 0#64 }
    tx := { Transmitter.reset k with idxStartUs := 0#64, gapStartUs := 0#64, lastToggleUs := 0#64 } }

/-- Instance 0. -/
def block0 : Block := fresh 0 ⟨4, 5⟩

/-- Instance 1. -/
def block1 : Block := fresh 1 ⟨4, 7⟩

/-- Instance 0 with another receiver. -/
def withRx (r : Receiver) : Block := { block0 with rx := r }

/-- Instance 0 with another transmitter. -/
def withTx (t : Transmitter) : Block := { block0 with tx := t }

/-- A machine with `b` as instance 0, and the table `owners` (R56). -/
def machine (b : Block) (owners : Cells Nat := []) : State :=
  { State.boot ⟨256, .little, 200⟩ [⟨4, 5⟩, ⟨4, 7⟩] with
    blocks := [b, block1], pinOwner := owners, port := ⟨0, 4, 0#64, 0#64⟩ }

/-- What a step makes of instance 0, if it answers a next state. -/
def next (s : State) (i : Input) : Option Block :=
  match step { s with inputs := [i] } with
  | .next t => t.blocks[0]?
  | _ => none

/-- The step of command word `w` answers `(res, stat)`, and `p` holds of instance 0 after it. -/
def gives (s : State) (w : Word64) (tUs tMs : Word64) (res : Word32) (stat : Status)
    (p : Block → Bool) : Bool :=
  match next s (.cmd 0 w tUs tMs) with
  | some b => decide (b.responses = [⟨res, stat⟩]) && p b
  | none => false

/-- An edge at `tUs` leaves instance 0 so that `p` holds. -/
def edgeGives (r : Receiver) (tUs : Word64) (p : Receiver → Bool) : Bool :=
  match next (machine (withRx r) [(4, 0)]) (.edge 4 tUs) with
  | some b => p b.rx
  | none => false

/-- Receiving since `tMs = 0`, capture on. -/
def receiving : Receiver :=
  { block0.rx with rxState := .receiving, capEn := true, bound := true, rxStartMs := 0#64 }

/-- Capturing, the last edge at `t`, `n` intervals taken. -/
def capturing (t : Word64) (n : Word8) : Receiver :=
  { receiving with haveLast := true, lastEdgeUs := t, capLen := n }

/-- A ready capture of 127 intervals of 889 µs. -/
def ready : Receiver :=
  { receiving with
    capBuf := (List.range 127).map (fun k => (k, 889#32))
    capLen := 127#8, capReady := true, capEn := false }

/-- Transmitting host words from word 16 on, in index `idx` of 3 since `t`. -/
def sending (idx : Word8) (t : Word64) : Transmitter :=
  { block0.tx with
    txState := .transmitting, seqSrc := .host 16#16, seqLen := 3#8, txIdx := idx
    idxStartUs := t, lastToggleUs := t }

/-- A machine that sends, with `d` as host words 16, 17 and 18. -/
def sender (t : Transmitter) (d : Word32) : State :=
  { machine (withTx t) with
    hostMem := writeHostWord .little (writeHostWord .little (writeHostWord .little [] 16 d) 17 d) 18 d }

/-! Receiver commands (V-RX, V-CAP, V-SYS). -/

/-- V-RX-1. -/
theorem test_rxStart : gives (machine block0) 0x10#64 0#64 7#64 1#32 .ok (fun b =>
    decide (b.rx.rxState = .receiving ∧ b.rx.rxStartMs = 7#64) && b.rx.capEn && b.rx.bound) = true := by
  decide

/-- V-RX-4. -/
theorem test_rxStart_pin_held : gives (machine block0 [(4, 1)]) 0x10#64 0#64 0#64 0#32 .busy
    (fun b => decide (b.rx.rxState = .idle)) = true := by decide

/-- V-CAP-7. -/
theorem test_rxStop : gives (machine (withRx receiving) [(4, 0)]) 0x11#64 0#64 0#64 1#32 .ok
    (fun b => decide (b.rx.rxState = .idle) && !b.rx.capEn && !b.rx.bound) = true := by decide

/-- V-RX-3, and the accepted start of P3. -/
theorem test_rxStartPeriodic :
    gives (machine (withRx { receiving with rxCb := 3#32 })) 0x0000000700000012#64 0#64 0#64 0#32 .busy
      (fun b => decide (b.rx.rxCb = 3#32) && !b.rx.periodic) = true ∧
    gives (machine block0) 0x0000000700000012#64 0#64 0#64 1#32 .ok
      (fun b => decide (b.rx.rxCb = 7#32 ∧ b.rx.rxState = .receiving) && b.rx.periodic) = true := by
  decide

/-- V-RX-6. -/
theorem test_rxStopPeriodic :
    gives (machine (withRx { receiving with rxState := .timeout, periodic := true, capEn := false }))
      0x13#64 0#64 0#64 0#32 .ok
      (fun b => decide (b.rx.rxState = .idle) && !b.rx.periodic && !b.rx.bound) = true := by decide

/-- V-RX-8, V-RX-9, V-RX-11. -/
theorem test_rxUpdate_timeout :
    gives (machine (withRx receiving)) 0x14#64 0#64 1000#64 0#32 .ok
      (fun b => decide (b.rx = receiving)) = true ∧
    gives (machine (withRx { receiving with rxCb := 5#32 })) 0x14#64 0#64 1001#64 0#32 .ok
      (fun b => decide (b.rx.rxState = .timeout ∧ b.notifs = [.rx 5#32 0#32 .unknown false]) &&
        !b.rx.capEn) = true ∧
    gives (machine (withRx { receiving with rxStartMs := 0xFFFFFFFFFFFFFE0C#64 })) 0x14#64 0#64 501#64
      0#32 .ok (fun b => decide (b.rx.rxState = .timeout)) = true := by decide

/-- V-RX-10 with V-DEC-34, V-SYS-5. -/
theorem test_rxUpdate_decode : gives (machine (withRx ready)) 0x14#64 0#64 5000#64 0#32 .ok (fun b =>
    decide (b.rx.rxState = .signalDetected ∧ b.rx.rawLen = 127#8 ∧ b.rx.rxCode = 0x3FFF#32 ∧
      b.rx.rxProto = .rc5 ∧ readCell? b.rx.rawBuf 126 = some 889#32 ∧ b.notifs = [])) = true := by
  decide +kernel

/-- V-SYS-1. -/
theorem test_queries_at_reset :
    gives (machine block0) 0x15#64 0#64 0#64 0#32 .ok (fun _ => true) = true ∧
    gives (machine block0) 0x16#64 0#64 0#64 0#32 .ok (fun _ => true) = true ∧
    gives (machine block0) 0x17#64 0#64 0#64 0#32 .ok (fun _ => true) = true ∧
    gives (machine block0) 0x18#64 0#64 0#64 4#32 .ok (fun _ => true) = true ∧
    gives (machine block0) 0x19#64 0#64 0#64 0#32 .ok (fun _ => true) = true ∧
    gives (machine block0) 0x25#64 0#64 0#64 0#32 .ok (fun _ => true) = true ∧
    gives (machine block0) 0x26#64 0#64 0#64 0#32 .ok (fun _ => true) = true := by decide

/-- The answers of P2, P4 and V-TX-15. -/
theorem test_queries_in_use :
    gives (machine (withRx receiving)) 0x15#64 0#64 0#64 1#32 .ok (fun _ => true) = true ∧
    gives (machine (withRx { receiving with rxState := .signalDetected })) 0x16#64 0#64 0#64 1#32 .ok
      (fun _ => true) = true ∧
    gives (machine (withRx { receiving with rxCode := 0x00FF00FF#32 })) 0x17#64 0#64 0#64
      0x00FF00FF#32 .ok (fun _ => true) = true ∧
    gives (machine (withRx { receiving with rxProto := .nec })) 0x18#64 0#64 0#64 0#32 .ok
      (fun _ => true) = true ∧
    gives (machine (withRx { receiving with rawLen := 127#8 })) 0x19#64 0#64 0#64 127#32 .ok
      (fun _ => true) = true ∧
    gives (machine (withTx (sending 0#8 0#64))) 0x25#64 0#64 0#64 1#32 .ok (fun _ => true) = true ∧
    gives (machine (withTx { block0.tx with txState := .complete })) 0x26#64 0#64 0#64 1#32 .ok
      (fun _ => true) = true := by decide

/-- V-RX-21, V-RX-22. -/
theorem test_rxGetRaw :
    gives (machine block0) 0x1A#64 0#64 0#64 0#32 .invalidConfig (fun _ => true) = true ∧
    gives (machine (withRx { receiving with rawLen := 127#8, rawBuf := [(126, 600#32)] }))
      0x0000007E0000001A#64 0#64 0#64 600#32 .ok (fun _ => true) = true ∧
    gives (machine (withRx { receiving with rawLen := 127#8, rawBuf := [(126, 600#32)] }))
      0x0000007F0000001A#64 0#64 0#64 0#32 .invalidConfig (fun _ => true) = true := by decide

/-- V-RX-23. -/
theorem test_rxSetCallback :
    gives (machine (withRx { receiving with rxCb := 5#32 })) 0x1B#64 0#64 0#64 0#32 .ok
      (fun b => decide (b.rx.rxCb = 0#32)) = true := by decide

/-- V-RX-15 to V-RX-18. -/
theorem test_rxSetTimeout :
    gives (machine block0) 0x000000630000001C#64 0#64 0#64 0#32 .invalidConfig
      (fun b => decide (b.rx.timeoutMs = 1000#32)) = true ∧
    gives (machine block0) 0x000000640000001C#64 0#64 0#64 0#32 .ok
      (fun b => decide (b.rx.timeoutMs = 100#32)) = true ∧
    gives (machine block0) 0x000027100000001C#64 0#64 0#64 0#32 .ok
      (fun b => decide (b.rx.timeoutMs = 10000#32)) = true ∧
    gives (machine block0) 0x000027110000001C#64 0#64 0#64 0#32 .invalidConfig
      (fun b => decide (b.rx.timeoutMs = 1000#32)) = true := by decide

/-- V-CAP-12, V-RX-19. -/
theorem test_rxSetMinPw_rxSetMaxPw :
    gives (machine block0) 0x00004E200000001D#64 0#64 0#64 0#32 .ok
      (fun b => decide (b.rx.pwMin = 20000#32 ∧ b.rx.pwMax = 10000#32)) = true ∧
    gives (machine block0) 0x00004E200000001E#64 0#64 0#64 0#32 .ok
      (fun b => decide (b.rx.pwMax = 20000#32 ∧ b.rx.pwMin = 50#32)) = true := by decide

/-- V-CAP-1 to V-CAP-5, V-CAP-10. -/
theorem test_edge_window :
    edgeGives receiving 1000#64
      (fun r => decide (r.lastEdgeUs = 1000#64 ∧ r.capLen = 0#8) && r.haveLast) = true ∧
    edgeGives (capturing 1000#64 0#8) 1049#64
      (fun r => decide (r.lastEdgeUs = 1049#64 ∧ r.capLen = 0#8)) = true ∧
    edgeGives (capturing 1049#64 0#8) 1099#64
      (fun r => decide (r.capBuf = [(0, 50#32)] ∧ r.capLen = 1#8)) = true ∧
    edgeGives (capturing 1099#64 1#8) 11099#64
      (fun r => decide (r.capBuf = [(1, 10000#32)] ∧ r.capLen = 2#8)) = true ∧
    edgeGives (capturing 11099#64 2#8) 21100#64
      (fun r => decide (r.lastEdgeUs = 21100#64 ∧ r.capLen = 2#8)) = true ∧
    edgeGives (capturing 0xFFFFFFFFFFFFFF9C#64 0#8) 462#64
      (fun r => decide (r.capBuf = [(0, 562#32)])) = true := by decide

/-- V-CAP-8, V-CAP-9. -/
theorem test_edge_fills :
    edgeGives (capturing 5000#64 126#8) 5600#64 (fun r =>
      decide (r.capBuf = [(126, 600#32)] ∧ r.capLen = 127#8) && r.capReady && !r.capEn) = true ∧
    edgeGives ready 6200#64 (fun r => decide (r = ready)) = true := by decide +kernel

/-! Classifier and encoder (V-DEC, V-ENC). -/

/-- `EncodeNEC(0x00FF00FF)`, and entry `i` of it put to `d`. -/
def nec (i : Nat) (d : Word32) : List Word32 := (encodeNec 0x00FF00FF#32).set i d

/-- V-DEC-3 to V-DEC-7, V-DEC-9 to V-DEC-12. -/
theorem test_classify_nec :
    classify (encodeNec 0x00FF00FF#32) = ⟨.nec, 0x00FF00FF#32, true⟩ ∧
    classify ((encodeNec 0x00FF00FF#32).take 66) = ⟨.nec, 0x00FF00FF#32, true⟩ ∧
    classify ((encodeNec 0x00FF00FF#32).take 65) = ⟨.raw, 0#32, false⟩ ∧
    classify (nec 0 7999#32) = ⟨.raw, 0#32, false⟩ ∧
    classify (nec 0 8000#32) = ⟨.nec, 0x00FF00FF#32, true⟩ ∧
    classify (nec 2 763#32) = ⟨.raw, 0#32, false⟩ ∧
    classify (nec 3 762#32) = ⟨.nec, 0x00FF00FF#32, true⟩ ∧
    classify (nec 3 1386#32) = ⟨.raw, 0#32, false⟩ ∧
    classify (nec 3 1387#32) = ⟨.nec, 0x80FF00FF#32, true⟩ ∧
    classify (nec 66 50000#32) = ⟨.nec, 0x00FF00FF#32, true⟩ := by decide +kernel

/-- V-DEC-14 to V-DEC-18, V-DEC-22 to V-DEC-24. -/
theorem test_classify_sony :
    classify (encodeSony 0x0A5#16) = ⟨.sony, 0x0A5#32, true⟩ ∧
    classify ((encodeSony 0xFFF#16).take 24) = ⟨.sony, 0x7FF#32, true⟩ ∧
    classify ((encodeSony 0x0A5#16).take 23) = ⟨.raw, 0#32, false⟩ ∧
    classify ((encodeSony 0x0A5#16).set 0 2099#32) = ⟨.raw, 0#32, false⟩ ∧
    classify ((encodeSony 0xFFF#16).set 2 899#32) = ⟨.raw, 0#32, false⟩ ∧
    classify ((encodeSony 0xFFF#16).set 2 800#32) = ⟨.sony, 0xFFE#32, true⟩ ∧
    classify ((encodeSony 0x0A5#16).set 25 5000#32) = ⟨.raw, 0#32, false⟩ ∧
    classify (((encodeSony 0x0A5#16).set 25 5000#32).take 25) = ⟨.sony, 0x0A5#32, true⟩ ∧
    classify (encodeSony 0x1ABC#16) = ⟨.sony, 0xABC#32, true⟩ := by decide +kernel

/-- V-DEC-1, V-DEC-30 to V-DEC-33. -/
theorem test_classify_rc5 :
    classify (List.replicate 28 889#32) = ⟨.rc5, 0x3FFF#32, true⟩ ∧
    classify (List.replicate 27 889#32) = ⟨.raw, 0#32, false⟩ ∧
    classify ((List.replicate 28 889#32).set 5 666#32) = ⟨.raw, 0#32, false⟩ ∧
    classify ((List.replicate 28 889#32).set 5 1111#32) = ⟨.rc5, 0x3FFF#32, true⟩ ∧
    classify ((List.replicate 28 889#32).set 3 1778#32) = ⟨.raw, 0#32, false⟩ ∧
    classify (List.replicate 10 600#32) = ⟨.raw, 0#32, false⟩ := by decide +kernel

/-- V-ENC-30, V-ENC-33. -/
theorem test_encoders :
    (encodeNec 0x00FF00FF#32).take 4 = [9000#32, 4500#32, 562#32, 562#32] ∧
    (encodeNec 0x00FF00FF#32).drop 64 = [562#32, 1687#32, 562#32, 0#32] ∧
    ((encodeNec 0x00FF00FF#32).map BitVec.toNat).sum = 68030 ∧
    (encodeSony 0x0A5#16).take 8 = [2400#32, 600#32, 1200#32, 600#32, 600#32, 600#32, 1200#32, 600#32] ∧
    ((encodeSony 0x0A5#16).map BitVec.toNat).sum = 19800 ∧
    ((encodeRc5 0x0123#16).map BitVec.toNat).sum = 24892 := by decide

/-! Transmitter commands (V-TX). -/

/-- V-TX-1. -/
theorem test_txNec : gives (machine block0) 0x00FF00FF00000020#64 3#64 0#64 1#32 .ok (fun b =>
    decide (b.tx.txState = .transmitting ∧ b.tx.seqSrc = .internal ∧ b.tx.seqLen = 68#8 ∧
      b.tx.txIdx = 0#8 ∧ b.tx.idxStartUs = 3#64 ∧ b.tx.lastToggleUs = 3#64 ∧
      readCell? b.tx.txBuf 66 = some 562#32) && !b.tx.txPin) = true := by decide +kernel

/-- V-TX-3. -/
theorem test_txNec_busy : gives (machine (withTx (sending 1#8 9#64))) 0x1234567800000020#64 50#64 0#64
    0#32 .busy (fun b => decide (b.tx = sending 1#8 9#64)) = true := by decide

/-- V-TX-2. -/
theorem test_txSony_txRc5 :
    gives (machine block0) 0x000000A500000022#64 0#64 0#64 1#32 .ok (fun b =>
      decide (b.tx.seqLen = 26#8 ∧ readCell? b.tx.txBuf 2 = some 1200#32)) = true ∧
    gives (machine block0) 0x0000012300000021#64 0#64 0#64 1#32 .ok (fun b =>
      decide (b.tx.seqLen = 28#8 ∧ readCell? b.tx.txBuf 27 = some 889#32)) = true := by decide

/-- V-TX-5 to V-TX-9. -/
theorem test_txRaw :
    gives (machine block0) 0x0000001000000023#64 0#64 0#64 0#32 .invalidConfig (fun _ => true) = true ∧
    gives (machine block0) 0x0081000000000023#64 0#64 0#64 0#32 .invalidConfig (fun _ => true) = true ∧
    gives (machine block0) 0x0080000000000023#64 0#64 0#64 1#32 .ok
      (fun b => decide (b.tx.seqSrc = .host 0#16 ∧ b.tx.seqLen = 128#8)) = true ∧
    gives (machine block0) 0x003900C800000023#64 0#64 0#64 0#32 .invalidConfig (fun _ => true) = true ∧
    gives (machine block0) 0x003800C800000023#64 0#64 0#64 1#32 .ok
      (fun b => decide (b.tx.seqSrc = .host 200#16)) = true ∧
    gives (machine (withTx (sending 0#8 0#64))) 0xFFFFFFFF00000023#64 0#64 0#64 0#32 .busy
      (fun _ => true) = true := by decide

/-- V-TX-20 to V-TX-23, V-TX-25. -/
theorem test_txUpdate_in_frame :
    gives (sender (sending 0#8 100#64) 9000#32) 0x24#64 112#64 0#64 0#32 .ok
      (fun b => decide (b.tx = sending 0#8 100#64)) = true ∧
    gives (sender (sending 0#8 100#64) 9000#32) 0x24#64 113#64 0#64 0#32 .ok
      (fun b => decide (b.tx.lastToggleUs = 113#64 ∧ b.tx.pinTrace = [⟨113#64, true⟩]) && b.tx.txPin) =
      true ∧
    gives (sender { sending 0#8 100#64 with txPin := true } 9000#32) 0x24#64 9100#64 0#64 0#32 .ok
      (fun b => decide (b.tx.txIdx = 1#8 ∧ b.tx.idxStartUs = 9100#64) && b.tx.txPin) = true ∧
    gives (sender { sending 1#8 9100#64 with txPin := true } 4500#32) 0x24#64 9101#64 0#64 0#32 .ok
      (fun b => decide (b.tx.pinTrace = [⟨9101#64, false⟩]) && !b.tx.txPin) = true ∧
    gives (sender (sending 0#8 0xFFFFFFFFFFFFFFD8#64) 100#32) 0x24#64 60#64 0#64 0#32 .ok
      (fun b => decide (b.tx.txIdx = 1#8)) = true := by decide

/-- V-TX-24, V-TX-27, V-TX-28 and the frame end of P4. -/
theorem test_txUpdate_frame_end_and_gap :
    gives (sender { sending 2#8 1150#64 with repeatCount := 1#8 } 30#32) 0x24#64 1180#64 0#64 0#32 .ok
      (fun b => decide (b.tx.txIdx = 3#8 ∧ b.tx.repeatsDone = 1#8 ∧ b.tx.gapStartUs = 1180#64) &&
        b.tx.inGap) = true ∧
    gives (sender { sending 2#8 46330#64 with txCb := 9#32 } 30#32) 0x24#64 46360#64 0#64 0#32 .ok
      (fun b => decide (b.tx.txState = .complete ∧ b.notifs = [.tx 9#32 true])) = true ∧
    gives (machine (withTx { sending 3#8 0#64 with inGap := true, gapStartUs := 1180#64 })) 0x24#64
      46179#64 0#64 0#32 .ok (fun b => b.tx.inGap) = true ∧
    gives (machine (withTx { sending 3#8 0#64 with inGap := true, gapStartUs := 1180#64 })) 0x24#64
      46180#64 0#64 0#32 .ok
      (fun b => decide (b.tx.txIdx = 0#8 ∧ b.tx.idxStartUs = 46180#64) && !b.tx.inGap) = true := by
  decide

/-- V-TX-10, and the table of half-periods. -/
theorem test_txSetCarrier :
    gives (machine block0) 0x0000752F00000028#64 0#64 0#64 0#32 .invalidConfig
      (fun b => decide (b.tx.carrierHz = 38000#32)) = true ∧
    gives (machine block0) 0x0000753000000028#64 0#64 0#64 0#32 .ok
      (fun b => decide (b.tx.carrierHz = 30000#32)) = true ∧
    gives (machine block0) 0x0000EA6000000028#64 0#64 0#64 0#32 .ok
      (fun b => decide (b.tx.carrierHz = 60000#32)) = true ∧
    gives (machine block0) 0x0000EA6100000028#64 0#64 0#64 0#32 .invalidConfig
      (fun b => decide (b.tx.carrierHz = 38000#32)) = true ∧
    halfPeriod 30000#32 = 16 ∧ halfPeriod 38000#32 = 13 ∧ halfPeriod 60000#32 = 8 := by decide

/-- V-TX-11, V-TX-12, and the callback of P1. -/
theorem test_txSetters :
    gives (machine block0) 0x0000000000000029#64 0#64 0#64 0#32 .ok
      (fun b => decide (b.tx.power = 0#8)) = true ∧
    gives (machine block0) 0x000000FF0000002A#64 0#64 0#64 0#32 .ok
      (fun b => decide (b.tx.repeatCount = 255#8)) = true ∧
    gives (machine block0) 0x0000000900000027#64 0#64 0#64 0#32 .ok
      (fun b => decide (b.tx.txCb = 9#32)) = true := by decide

/-! Illegal words, teardown, host memory, placing (V-SYS). -/

/-- V-SYS-4. -/
theorem test_illegal_word : gives (machine block0) 0xFF#64 0#64 0#64 0#32 .illegal
    (fun b => decide (b = replied block0 0#32 .illegal)) = true := by decide

/-- A session to be torn down: Receiving with the pin bound, Transmitting with the pin high. -/
def busyBlock : Block :=
  { block0 with
    rx := { receiving with periodic := true }, tx := { sending 0#8 0#64 with txPin := true } }

/-- V-SYS-2. -/
theorem test_teardown :
    (match step { machine busyBlock [(4, 0)] with inputs := [.teardown 0 77#64] } with
      | .next t => decide (t.pinOwner = []) && (match t.blocks[0]? with
        | some b => b.dead && !b.rx.capEn && !b.rx.periodic && !b.rx.bound && !b.tx.txPin &&
            decide (b.tx.pinTrace = [⟨77#64, false⟩] ∧ b.notifs = [] ∧ b.responses = [])
        | none => false)
      | _ => false) = true := by decide

/-- V-SYS-3, and no move for a command (R62). -/
theorem test_after_teardown :
    (match step { machine { block0 with dead := true } with inputs := [.edge 4 9#64] } with
      | .next t => decide (t.blocks[0]? = some { block0 with dead := true }) | _ => false) = true ∧
    (match step { machine { block0 with dead := true } with inputs := [.cmd 0 0x10#64 0#64 0#64] } with
      | .refused r => decide (r = .deadBlock) | _ => false) = true := by decide

/-- R82: the word 0x01020304 in both byte orders. -/
theorem test_hostWord_bytes :
    writeHostWord .little [] 2 0x01020304#32 = [(8, 4#8), (9, 3#8), (10, 2#8), (11, 1#8)] ∧
    writeHostWord .big [] 2 0x01020304#32 = [(8, 1#8), (9, 2#8), (10, 3#8), (11, 4#8)] ∧
    hostWord? .little [(8, 4#8), (9, 3#8), (10, 2#8), (11, 1#8)] 2 = some 0x01020304#32 := by decide

/-- The step answers a next state. -/
def goesOn (s : State) : Bool := match step s with | .next _ => true | _ => false

/-- A row placed in the state after reset runs (log entry 2). -/
theorem test_first_instruction_after_reset :
    goesOn (State.reset.withFetchWord 64 0x10) = true ∧
    goesOn (State.reset.withFetchWord 64 0x23) = true ∧
    goesOn (State.reset.withFetchWord 64 0x20) = true ∧
    goesOn (State.reset.withFetchWord 8 1) = true := by decide +kernel

/-- GetRawData (R114) of a frozen copy of two entries. -/
theorem test_getRawData :
    (match getRawData 0 0#64 0#64 (machine (withRx { receiving with
        rawLen := 2#8, rawBuf := [(0, 9000#32), (1, 4500#32)] })) with
      | .next p => decide (p.2 = [9000#32, 4500#32]) | _ => false) = true := by decide

/-- TX_SEND_BLOCKING is refused while a transmission runs (R120). -/
theorem test_txSendBlocking_busy :
    (match txSendBlocking 0 (.txNec 5#32) 0#64 0#64 [] (machine (withTx (sending 0#8 0#64))) with
      | .next p => decide (p.2 = some 0#32) | _ => false) = true := by decide

/-! Witnesses: for each statement with hypotheses, states and operands that meet them, clause by clause. -/

/-- `s` with the clock samples of the input being taken. -/
def sampled (s : State) (tUs tMs : Word64) : State := { s with port := ⟨0, 4, tUs, tMs⟩ }

/-- `s` with one input to come. -/
def withInput (s : State) (i : Input) : State := { s with inputs := [i] }

theorem live_machine (b : Block) (owners : Cells Nat) (h : b.dead = false) : Live (machine b owners) b :=
  ⟨rfl, h⟩

/-- The outcome is a next state, and `p` holds of instance 0 in it. -/
def reaches (o : Host.Outcome State Fault Refusal) (p : Block → Bool) : Bool :=
  match o with
  | .next t => t.blocks[0]?.any p
  | _ => false

/-- What `reaches` says in the words of the statements. -/
theorem of_reaches {o : Host.Outcome State Fault Refusal} {p : Block → Bool} (h : reaches o p = true) :
    ∃ t b, o = .next t ∧ t.blocks[0]? = some b ∧ p b = true := by
  unfold reaches at h
  split at h
  · next t =>
    obtain ⟨b, hb, hp⟩ := (Option.any_eq_true _ _).1 h
    exact ⟨t, b, rfl, hb, hp⟩
  · cases h

/-- Instance 0 receiving, with its pin bound, and transmitting host words 16 to 18. -/
def active : State := machine { block0 with rx := receiving, tx := sending 0#8 0#64 } [(4, 0)]

theorem witness_invariants : Inv active := by
  have h1 : TransmitterInv 256 (sending 0#8 0#64) := by
    constructor <;> simp [sending, block0, fresh, Transmitter.reset, withinBuffer, Cells.wf,
      carrierDefault, traceLevel, alternates]
  have h2 : ReceiverInv receiving := by
    constructor <;> simp [receiving, block0, fresh, Receiver.reset, written, withinBuffer, Cells.wf,
      timeoutDefault]
  have h3 : TransmitterInv 256 block1.tx := by
    constructor <;> simp [block1, fresh, Transmitter.reset, withinBuffer, Cells.wf, carrierDefault,
      traceLevel, alternates]
  have h4 : ReceiverInv block1.rx := by
    constructor <;> simp [block1, fresh, Receiver.reset, written, withinBuffer, Cells.wf, timeoutDefault]
  refine ⟨fun k b hb => ?_, ⟨rfl, fun p k h => ?_, fun k b hb h => ?_⟩, rfl⟩
  · match k, hb with
    | 0, hb => cases hb; exact ⟨h2, h1, by decide, by decide⟩
    | 1, hb => cases hb; exact ⟨h4, h3, by decide, by decide⟩
  · by_cases hp : p = 4
    · subst hp; cases h; exact ⟨_, rfl, rfl, rfl⟩
    · simp [active, machine, readCell?, hp] at h
  · match k, hb with
    | 0, hb => cases hb; rfl
    | 1, hb => cases hb; cases h

theorem witness_EncodeInvertsDecode :
    decode (.command 0xFFFFFFFF00000023#64) = .instr (.txRaw 0xFFFF#16 0xFFFF#16) ∧
    decode (.edgePort 1#1) = .instr .edge := by decide

theorem witness_IllegalWordsAndTheirEffect :
    decode (.command 0x2B#64) = .illegal .unassignedOpcode ∧
    decode (.command 0x80000010#64) = .illegal .reservedBits ∧
    decode (.command 0x100000000000029#64) = .illegal .operandBits ∧
    (withInput (machine block0) (.cmd 1 0x2B#64 0#64 0#64)).inputs = [.cmd 1 0x2B#64 0#64 0#64] ∧
    (machine block0).blocks[1]? = some block1 ∧ block1.dead = false := by decide

theorem witness_StepRunsDecodedInstruction :
    (withInput active (.cmd 0 0x14#64 5#64 6#64)).inputs = [.cmd 0 0x14#64 5#64 6#64] ∧
    decode (.command 0x14#64) = .instr .rxUpdate ∧
    (withInput active (.edge 4 7#64)).inputs = [.edge 4 7#64] ∧
    (withInput active (.teardown 1 7#64)).inputs = [.teardown 1 7#64] ∧ active.inputs = [] := by decide

theorem witness_PlacedRowRunsAsItsInstruction :
    decodeTableWord 64 0x10 = some .rxStart ∧ decodeTableWord 8 1 = some .edge ∧
    decodeTableWord 64 0x0003001000000023 = some (.txRaw 0x10#16 3#16) := by decide

theorem witness_HostWriteIsSeenByReads :
    active.params.hostseqWords ≤ 256 ∧ 255 < active.params.hostseqWords ∧
    (withInput active (.hostWrite 255 9#32)).inputs = [.hostWrite 255 9#32] := by decide

theorem witness_FixedByEveryInstruction : ∃ t, exec .txUpdate active = .next t := ⟨_, rfl⟩

theorem witness_CanonicalMemoriesAreEqualData :
    Memory.wf [(8, 4#8), (9, 3#8)] = true ∧ Memory.wf [(9, 3#8), (8, 4#8)] = false := by decide

theorem witness_ClockDifferenceSurvivesWrap : 2 ^ 64 - 1 < 2 ^ 64 := by decide

theorem witness_ResetIsCleanEntry :
    1 < [Wiring.mk 4 5, ⟨4, 7⟩].length ∧ 0 < State.reset.blocks.length :=
  ⟨by decide, Nat.succ_pos _⟩

theorem witness_StepKeepsInvariants :
    Inv (withInput active (.edge 4 50#64)) ∧ ∃ t, step (withInput active (.edge 4 50#64)) = .next t :=
  ⟨inv_deliver witness_invariants active.port _, _, rfl⟩

theorem witness_EveryInputWithAMoveCompletes :
    HasMove active (.cmd 0 0x14#64 0#64 0#64) ∧ HasMove active (.cmd 1 0x2B#64 0#64 0#64) ∧
    HasMove active (.edge 9 0#64) ∧ HasMove active (.teardown 1 0#64) ∧
    HasMove active (.hostWrite 255 0#32) :=
  ⟨⟨by decide, _, rfl, rfl⟩, ⟨by decide, _, rfl, rfl⟩, ⟨rfl, trivial⟩, ⟨by decide, _, rfl, rfl⟩,
    by decide, trivial⟩

theorem witness_RunsFaultOnlyOnHostAddress :
    Host.Core.run core 1 { State.boot ⟨256, .big, 200⟩ [⟨4, 5⟩] with inputs := [.hostWrite 256 0#32] } =
      .fault .hostAddress := rfl

theorem witness_CaptureNeverExceedsCapacity : ∃ t, Host.Core.run core 3
    { State.boot ⟨256, .little, 200⟩ [⟨4, 5⟩] with
      inputs := [.cmd 0 0x10#64 0#64 0#64, .edge 4 0#64, .edge 4 600#64] } = .next t ∧
    t.blocks.map (fun b => b.rx.capLen) = [1#8] := ⟨_, rfl, rfl⟩

theorem witness_RegistersKeepTheirWriters : ∃ t b, exec .teardown active = .next t ∧
    active.blocks[1]? = some block1 ∧ t.blocks[1]? = some b := ⟨_, _, rfl, rfl, rfl⟩

/-- Clauses of EdgeInput: an unbound pin; off, first edge, outside the window on both sides, its two
bounds, and the last free entry. -/
theorem witness_EdgeInput :
    readCell? (machine block0).pinOwner 4 = none ∧ readCell? active.pinOwner active.port.pin = some 0 ∧
    ready.capEn = false ∧ (receiving.capEn = true ∧ receiving.haveLast = false) ∧
    (capturing 100#64 126#8).capEn = true ∧ (capturing 100#64 126#8).haveLast = true ∧
    (capturing 100#64 126#8).capLen.toNat < 127 ∧
    ¬ receiving.pwMin.toNat ≤ (149#64 - (capturing 100#64 126#8).lastEdgeUs).toNat ∧
    receiving.pwMin.toNat ≤ (150#64 - (capturing 100#64 126#8).lastEdgeUs).toNat ∧
    (10100#64 - (capturing 100#64 126#8).lastEdgeUs).toNat ≤ receiving.pwMax.toNat ∧
    ¬ (10101#64 - (capturing 100#64 126#8).lastEdgeUs).toNat ≤ receiving.pwMax.toNat := by decide

theorem witness_RxStarts :
    (Live active { block0 with rx := receiving, tx := sending 0#8 0#64 } ∧ receiving.rxState = .receiving) ∧
    (Live (machine block0 [(4, 1)]) block0 ∧ ¬PinFreeOrOwn (machine block0 [(4, 1)]) block0) ∧
    (block0.rx.rxState ≠ .receiving ∧ PinFreeOrOwn (machine block0) block0) ∧
    PinFreeOrOwn (machine block0 [(4, 0)]) block0 :=
  ⟨⟨⟨rfl, rfl⟩, rfl⟩, ⟨⟨rfl, rfl⟩, fun h => h.elim (by decide) (by decide)⟩,
    ⟨by decide, .inl rfl⟩, .inr rfl⟩

/-- A live instance, for the statements that ask for no more (RxStops, RxQueriesAndSetters, RxSetTimeout,
TxEncodedCommands, TxRaw, TxQueriesAndSetters, TxSetCarrier, StatusOfEachCommand, Teardown); bound and not. -/
theorem witness_live : Live (machine block0) block0 ∧ Live active (active.blocks[0]) ∧
    block0.rx.bound = false ∧ receiving.bound = true ∧ Cells.wf active.pinOwner = true :=
  ⟨⟨rfl, rfl⟩, ⟨rfl, rfl⟩, rfl, rfl, rfl⟩

theorem witness_RxGetRaw :
    let r := { receiving with rawLen := 127#8, rawBuf := [(126, 600#32)] }
    Live (machine (withRx r)) (withRx r) ∧
    (126 < r.rawLen.toNat ∧ readCell? r.rawBuf 126 = some 600#32) ∧
    (125 < r.rawLen.toNat ∧ readCell? r.rawBuf 125 = none) ∧ r.rawLen.toNat ≤ 127 :=
  ⟨⟨rfl, rfl⟩, by decide, by decide, by decide⟩

theorem witness_RxSetTimeout : (100 ≤ (100#32).toNat ∧ (10000#32).toNat ≤ 10000) ∧
    (99#32).toNat < 100 ∧ 10000 < (10001#32).toNat := by decide

theorem witness_RxUpdateDecodesReadyCapture :
    Live (machine (withRx ready)) (withRx ready) ∧ ready.rxState = .receiving ∧ ready.capReady = true ∧
    (List.replicate 127 889#32).length = ready.capLen.toNat ∧
    ∀ j, j < 127 → readCell? ready.capBuf j = (List.replicate 127 889#32)[j]? :=
  ⟨⟨rfl, rfl⟩, rfl, rfl, by simp [ready], by decide +kernel⟩

theorem witness_RxUpdateTimesOut :
    Live (machine (withRx receiving)) (withRx receiving) ∧ receiving.capReady = false ∧
    receiving.timeoutMs.toNat < (1001#64 - receiving.rxStartMs).toNat ∧
    (1000#64 - receiving.rxStartMs).toNat ≤ receiving.timeoutMs.toNat :=
  ⟨⟨rfl, rfl⟩, by decide, by decide, by decide⟩

/-- Instance 0 with its receiver in state `q`. -/
def rxIn (q : RxState) (periodic : Bool) : Block :=
  withRx { receiving with rxState := q, periodic := periodic, capEn := false }

theorem witness_RxUpdateOutsideReceiving (q : RxState) (p : Bool) :
    Live (machine (rxIn q p) [(4, 0)]) (rxIn q p) ∧ (rxIn q p).rx.rxState = q ∧
    (rxIn q p).rx.periodic = p := ⟨⟨rfl, rfl⟩, rfl, rfl⟩

theorem witness_TimeoutFiresIff : Live (sampled active 0#64 1001#64) active.blocks[0] ∧
    reaches (exec .rxUpdate (sampled active 0#64 1001#64)) (fun b => b.rx.rxState = .timeout) = true :=
  ⟨⟨rfl, rfl⟩, by decide⟩

/-- The clauses of ReceiverTransitions: a start, a stop, both exits; `test_rxUpdate_decode` shows the
decode, `witness_TimeoutFiresIff` the timeout. -/
theorem witness_ReceiverTransitions :
    reaches (exec .rxStart (machine block0)) (fun b => b.rx.rxState = .receiving) = true ∧
    reaches (exec .rxStop active) (fun b => b.rx.rxState = .idle) = true ∧
    reaches (exec .rxUpdate (machine (rxIn .timeout true))) (fun b => b.rx.rxState = .receiving) = true ∧
    reaches (exec .rxUpdate (machine (rxIn .signalDetected false)))
      (fun b => b.rx.rxState = .idle) = true := by decide +kernel

/-- An interval in its window, by evaluation. -/
theorem inWindow_of_any {s : List Word32} {i lo hi : Nat}
    (h : s[i]?.any (fun d => decide (lo ≤ d.toNat ∧ d.toNat ≤ hi)) = true) : InWindow s i lo hi := by
  simpa [InWindow, Option.any_eq_true] using h

/-- Rc5AlwaysAllOnes: both bounds of the window. -/
theorem witness_Rc5AlwaysAllOnes : (classify (List.replicate 28 889#32)).proto = .rc5 ∧
    28 ≤ (List.replicate 28 667#32).length ∧
    (∀ j, j < 28 → InWindow (List.replicate 28 667#32) j 667 1111) ∧
    (∀ j, j < 28 → InWindow (List.replicate 29 1111#32) j 667 1111) := by
  have a : ∀ j, j < 28 → (List.replicate 28 667#32)[j]?.any
      (fun d => decide (667 ≤ d.toNat ∧ d.toNat ≤ 1111)) = true := by decide
  have b : ∀ j, j < 28 → (List.replicate 29 1111#32)[j]?.any
      (fun d => decide (667 ≤ d.toNat ∧ d.toNat ≤ 1111)) = true := by decide
  exact ⟨by decide, by decide, fun j h => inWindow_of_any (a j h), fun j h => inWindow_of_any (b j h)⟩

theorem witness_ShortSequencesNeverMatch : (List.replicate 65 600#32).length < 66 ∧
    (List.replicate 23 600#32).length < 24 ∧ (List.replicate 27 889#32).length < 28 := by decide

/-- NecBitsComeFromSpaces, SonyPartialAcceptance, OneMatcherAndValidity. -/
theorem witness_matches :
    matchNec (encodeNec 0x00FF00FF#32) = some 0x00FF00FF#32 ∧
    matchSony (encodeSony 0xFFF#16) = some 0xFFF#32 ∧
    matchSony ((encodeSony 0xFFF#16).take 25) = some 0x7FF#32 ∧
    (classify (List.replicate 27 889#32)).valid = false := by decide +kernel

/-- 66 intervals at the bounds of their NEC windows: zeros, then ones. -/
def necBounds : List Word32 :=
  [8000#32, 5000#32] ++ (List.replicate 16 [362#32, 762#32]).flatten ++
    (List.replicate 16 [762#32, 1387#32]).flatten

/-- NecBitsComeFromSpaces: the hypotheses of its second clause, at the windows' bounds. -/
theorem witness_NecBitsComeFromSpaces :
    InWindow necBounds 0 8000 10000 ∧ InWindow necBounds 1 4000 5000 ∧
    (∀ k, k < 32 → InWindow necBounds (2 + 2 * k) 362 762 ∧
      (InWindow necBounds (3 + 2 * k) 362 762 ∨ InWindow necBounds (3 + 2 * k) 1387 1987)) ∧
    matchNec necBounds = some 0x0000FFFF#32 := by
  have m : ∀ k, k < 32 → necBounds[2 + 2 * k]?.any
      (fun d => decide (362 ≤ d.toNat ∧ d.toNat ≤ 762)) = true := by decide
  have sp : ∀ k, k < 32 →
      necBounds[3 + 2 * k]?.any (fun d => decide (362 ≤ d.toNat ∧ d.toNat ≤ 762)) = true ∨
      necBounds[3 + 2 * k]?.any (fun d => decide (1387 ≤ d.toNat ∧ d.toNat ≤ 1987)) = true := by
    decide
  exact ⟨inWindow_of_any (by decide), inWindow_of_any (by decide),
    fun k h => ⟨inWindow_of_any (m k h), (sp k h).imp inWindow_of_any inWindow_of_any⟩,
    by decide +kernel⟩

/-- 24 intervals at the bounds of their Sony windows: 11 positions, ones, then zeros. -/
def sonyBounds : List Word32 :=
  [2100#32, 800#32] ++ (List.replicate 6 [900#32, 400#32]).flatten ++
    (List.replicate 5 [800#32, 800#32]).flatten

/-- SonyPartialAcceptance: the hypotheses of its second clause, at the windows' bounds and the least
length. -/
theorem witness_SonyPartialAcceptance :
    24 ≤ sonyBounds.length ∧ InWindow sonyBounds 0 2100 2700 ∧ InWindow sonyBounds 1 400 800 ∧
    (∀ k, k < 12 → 3 + 2 * k < sonyBounds.length → InWindow sonyBounds (3 + 2 * k) 400 800 ∧
      (InWindow sonyBounds (2 + 2 * k) 400 800 ∨ InWindow sonyBounds (2 + 2 * k) 900 1500)) ∧
    matchSony sonyBounds = some 0x3F#32 := by
  have sp : ∀ k, k < 11 → sonyBounds[3 + 2 * k]?.any
      (fun d => decide (400 ≤ d.toNat ∧ d.toNat ≤ 800)) = true := by decide
  have m : ∀ k, k < 11 →
      sonyBounds[2 + 2 * k]?.any (fun d => decide (400 ≤ d.toNat ∧ d.toNat ≤ 800)) = true ∨
      sonyBounds[2 + 2 * k]?.any (fun d => decide (900 ≤ d.toNat ∧ d.toNat ≤ 1500)) = true := by
    decide
  have hl : sonyBounds.length = 24 := by decide
  exact ⟨by decide, inWindow_of_any (by decide), inWindow_of_any (by decide),
    fun k _ h => ⟨inWindow_of_any (sp k (by omega)),
      (m k (by omega)).imp inWindow_of_any inWindow_of_any⟩, by decide +kernel⟩

theorem witness_EncoderOutputs : 31 < 32 ∧ 11 < 12 := by decide

theorem witness_TxEncodedCommands :
    (∃ c, Instr.txNec 7#32 = .txNec c ∧ encodeNec 7#32 = encodeNec c ∧ 68#8 = 68#8) ∧
    (∃ c, Instr.txRc5 7#16 = .txRc5 c ∧ encodeRc5 7#16 = encodeRc5 c ∧ 28#8 = 28#8) ∧
    (∃ c, Instr.txSony 7#16 = .txSony c ∧ encodeSony 7#16 = encodeSony c ∧ 26#8 = 26#8) ∧
    (sending 0#8 0#64).txState = .transmitting ∧ block0.tx.txState ≠ .transmitting :=
  ⟨⟨_, rfl, rfl, rfl⟩, ⟨_, rfl, rfl, rfl⟩, ⟨_, rfl, rfl, rfl⟩, rfl, by decide⟩

theorem witness_TxRaw : block0.tx.txState ≠ .transmitting ∧ (0#16).toNat = 0 ∧ 128 < (129#16).toNat ∧
    (machine block0).params.hostseqWords < (200#16).toNat + (57#16).toNat ∧
    ¬((56#16).toNat = 0 ∨ 128 < (56#16).toNat ∨
      (machine block0).params.hostseqWords < (200#16).toNat + (56#16).toNat) := by decide

theorem witness_TxUpdateOutsideFrames (q : TxState) :
    let b := withTx { block0.tx with txState := q }
    Live (machine b) b ∧ b.tx.txState = q ∧ b.tx.seqSrc = .none := ⟨⟨rfl, rfl⟩, rfl, rfl⟩

/-- The three kinds of current interval: a written host word, a draw, a buffer entry. -/
theorem witness_CurrentInterval :
    CurrentInterval (sender (sending 1#8 0#64) 100#32) (sending 1#8 0#64) 100#32 0 ∧
    CurrentInterval active (sending 1#8 0#64) (Config.drawWord 0) 1 ∧
    CurrentInterval active { sending 1#8 0#64 with seqSrc := .internal, txBuf := [(1, 9#32)] } 9#32 0 :=
  ⟨.inr ⟨16#16, rfl, by decide, .inl ⟨by decide, rfl⟩⟩,
    .inr ⟨16#16, rfl, by decide, .inr ⟨rfl, rfl, rfl⟩⟩, .inl ⟨rfl, rfl, rfl⟩⟩

/-- The current interval of each index is a written host word. -/
theorem witness_current (i : Word8) (hi : i ∈ [0#8, 1#8, 2#8]) :
    CurrentInterval (sender (sending i 0#64) 100#32) (sending i 0#64) 100#32 0 := by
  simp only [List.mem_cons, List.not_mem_nil, or_false] at hi
  rcases hi with rfl | rfl | rfl <;> exact .inr ⟨16#16, rfl, by decide, .inl ⟨by decide, rfl⟩⟩

/-- For TxUpdateInMark, TxUpdateInSpaceAndAdvance, TxUpdateEndsFrame and IntervalsAreNeverShortened: at any
time `tUs` within index 0 (a mark), 1 (a space) or 2 (the last, a mark), each begun at 0 with 100 µs;
`witness_frame_bounds` gives the boundary times and counts. -/
theorem witness_frame_steps (tUs : Word64) : ∀ i ∈ [0#8, 1#8, 2#8],
    let t := sending i 0#64
    let s := sampled (sender t 100#32) tUs 0#64
    Live s (withTx t) ∧ InFrame t ∧ CurrentInterval s t 100#32 0 ∧ indexElapsed s t = tUs.toNat ∧
      t.txIdx = i ∧ t.txIdx.toNat < t.seqLen.toNat := by
  intro i hi
  have hx : indexElapsed (sampled (sender (sending i 0#64) 100#32) tUs 0#64) (sending i 0#64) =
      tUs.toNat := by simp [indexElapsed, sampled, sending]
  have hf : InFrame (sending i 0#64) := ⟨rfl, by simp [sending], rfl⟩
  have hc := witness_current i hi
  simp only [List.mem_cons, List.not_mem_nil, or_false] at hi
  rcases hi with rfl | rfl | rfl <;> exact ⟨⟨rfl, rfl⟩, hf, hc, hx, rfl, by decide⟩

theorem witness_frame_bounds : (99#64).toNat < (100#32).toNat ∧ (100#32).toNat ≤ (100#64).toNat ∧
    (12#64 - 0#64).toNat < 1000000 / (2 * (38000#32).toNat) ∧
    1000000 / (2 * (38000#32).toNat) ≤ (13#64 - 0#64).toNat ∧
    (2#8).toNat + 1 = (3#8).toNat ∧ (1#8).toNat + 1 ≠ (3#8).toNat ∧
    (0#8).toNat < (1#8).toNat ∧ (1#8).toNat ≤ (1#8).toNat := by decide

theorem witness_TxUpdateInGap :
    let t := { sending 3#8 0#64 with inGap := true, gapStartUs := 1180#64 }
    Live (machine (withTx t)) (withTx t) ∧ t.txState = .transmitting ∧ t.seqSrc ≠ .none ∧
    (46179#64 - t.gapStartUs).toNat < 45000 ∧ 45000 ≤ (46180#64 - t.gapStartUs).toNat :=
  ⟨⟨rfl, rfl⟩, rfl, by decide, by decide, by decide⟩

theorem witness_TxSetCarrier : (29999#32).toNat < 30000 ∧ 60000 < (60001#32).toNat ∧
    30000 ≤ (30000#32).toNat ∧ (60000#32).toNat ≤ 60000 := by decide

/-- The clauses of TransmitterTransitions and IntervalsAreNeverShortened: a start, an advance, the end of
a frame, the end of a gap, the exits of Complete and of Transmitting without a sequence. -/
theorem witness_TransmitterTransitions :
    reaches (exec (.txNec 5#32) (machine block0)) (fun b => b.tx.txState = .transmitting) = true ∧
    reaches (exec .txUpdate (sampled (sender (sending 1#8 0#64) 100#32) 100#64 0#64))
      (fun b => b.tx.txIdx = 2#8) = true ∧
    reaches (exec .txUpdate (sampled (sender (sending 2#8 0#64) 100#32) 100#64 0#64))
      (fun b => b.tx.txState = .complete) = true ∧
    reaches (exec .txUpdate (sampled (machine (withTx { sending 3#8 0#64 with inGap := true })) 45000#64
      0#64)) (fun b => !b.tx.inGap) = true ∧
    reaches (exec .txUpdate (machine (withTx { block0.tx with txState := .complete })))
      (fun b => b.tx.txState = .idle) = true ∧
    reaches (exec .txUpdate (machine (withTx { block0.tx with txState := .transmitting })))
      (fun b => b.tx.txState = .error) = true := by decide +kernel

theorem witness_PinRisesOnlyInMarks : (sending 0#8 0#64).txPin = false ∧
    reaches (exec .txUpdate (sampled (sender (sending 0#8 0#64) 100#32) 13#64 0#64))
      (fun b => b.tx.txPin) = true := by decide

/-- OneResponsePerCommand, InstancesAndSidesAreIndependent, TransmitterIgnoresReceiver and
ReceiverIgnoresTransmitter: a command to instance 0, seen by both
instances; an edge; a strobe. -/
theorem witness_OneResponsePerCommand :
    sideOf .rxStop = .receiver ∧ sideOf .txUpdate = .transmitter ∧ sideOf .edge = .neither ∧
    (∃ t b c, exec .rxStop active = .next t ∧ t.blocks[0]? = some b ∧ t.blocks[1]? = some c ∧
      active.port.block = 0) ∧
    (∃ t b, exec .edge active = .next t ∧ t.blocks[0]? = some b) ∧
    readCell? active.pinOwner active.port.pin ≠ some 1 :=
  ⟨rfl, rfl, rfl, ⟨_, _, _, rfl, rfl, rfl, rfl⟩, ⟨_, _, rfl, rfl⟩, by decide⟩

/-- StatusOfEachCommand: BUSY and INVALID_CONFIG of each command that has them. -/
theorem witness_StatusOfEachCommand :
    (∀ i ∈ [Instr.rxStart, .rxStartPeriodic 7#32, .txNec 1#32, .txRc5 1#16, .txSony 1#16,
        .txRaw 1#16 1#16],
      (match exec i active with
        | .next t => t.blocks[0]?.map (fun b => b.responses) | _ => none) = some [⟨0#32, .busy⟩]) ∧
    ∀ i ∈ [Instr.rxSetTimeout 99#32, .txSetCarrier 60001#32, .txRaw 0#16 129#16, .rxGetRaw 0#32],
      (match exec i (machine block0) with
        | .next t => t.blocks[0]?.map (fun b => b.responses) | _ => none) =
        some [⟨0#32, .invalidConfig⟩] := by decide

theorem witness_RejectedCommandsWriteNothing : Status.busy ≠ .ok ∧
    reaches (step (withInput active (.cmd 0 0x10#64 3#64 4#64)))
      (fun b => b.responses = [⟨0#32, .busy⟩]) = true := by decide

/-- OneNotificationPerOutcome: a timeout and a completed transmission, each with a callback set. -/
theorem witness_OneNotificationPerOutcome :
    reaches (exec .rxUpdate (sampled (machine (withRx { receiving with rxCb := 5#32 })) 0#64 1001#64))
      (fun b => b.rx.rxState = .timeout) = true ∧
    reaches (exec .txUpdate (sampled (sender { sending 2#8 0#64 with txCb := 9#32 } 100#32) 100#64 0#64))
      (fun b => b.tx.txState = .complete) = true := by decide

theorem witness_DeadInstancesTakeNoInput :
    let b := { block0 with dead := true }
    (machine b).blocks[0]? = some b ∧ b.dead = true ∧ (machine b).port.block = 0 ∧
    ∃ t, step (withInput (machine b) (.cmd 1 0x10#64 0#64 0#64)) = .next t :=
  ⟨rfl, rfl, rfl, _, rfl⟩

theorem witness_GetRawDataReadsFrozenCopy :
    let r := { receiving with rawLen := 2#8, rawBuf := [(0, 9000#32), (1, 4500#32)] }
    (machine (withRx r)).blocks[0]? = some (withRx r) ∧ written r.rawBuf r.rawLen.toNat :=
  ⟨rfl, fun i h => by
    match i, h with
    | 0, _ => rfl
    | 1, _ => rfl⟩

end Sys2Proof.Tests
end

section
/-! SUPPORT. The statements of 00_scope.md: what a step runs, clock differences, reset, and what no
instruction writes. -/

namespace Sys2Proof.Machine

/-! One step (R7, R8). -/

theorem step_of_no_input {s : State} (h : s.inputs = []) : step s = .next s := by
  simp [step, takeInput, h]

theorem step_of_input {s : State} {i : Input} {rest : List Input} (h : s.inputs = i :: rest) :
    step s = runInput i { s with inputs := rest } := by
  simp [step, takeInput, h]

theorem runInput_cmd {w : Word64} {ins : Instr} (h : decode (.command w) = .instr ins) (k : Nat)
    (tUs tMs : Word64) (s : State) :
    runInput (.cmd k w tUs tMs) s = exec ins (deliver (.cmd k w tUs tMs) s) := by
  simp [runInput, h]

/-- Settles O5. -/
theorem stepRunsDecodedInstruction : Obligations.StepRunsDecodedInstruction := by
  intro s rest
  refine ⟨fun k w tUs tMs ins hi hd => ?_, fun pin tUs hi => ?_, fun k tUs hi => ?_,
    step_of_no_input⟩
  · rw [step_of_input hi, runInput_cmd hd]; rfl
  · rw [step_of_input hi]; rfl
  · rw [step_of_input hi]; rfl

/-! A port value placed as the next input (log entry 2). -/

/-- The placed input carries what the port latch already holds, so latching it changes nothing. -/
theorem deliver_inputOf (s : State) (pw : PortWord) : deliver (inputOf s.port pw) s = s := by
  cases pw <;> rfl

theorem step_placeNext (s : State) (pw : PortWord) :
    step (placeNext s pw) = runInput (inputOf s.port pw) s := rfl

/-- On each port an input that decodes runs as the decoded instruction (R102, R103, R107). -/
theorem runInput_inputOf {pw : PortWord} {i : Instr} (h : decode pw = .instr i) (p : Port)
    (s : State) : runInput (inputOf p pw) s = exec i (deliver (inputOf p pw) s) := by
  cases pw with
  | command w => exact runInput_cmd h ..
  | edgePort b =>
    simp only [decode] at h
    split at h <;> cases h
    rfl
  | lifecycle b =>
    simp only [decode] at h
    split at h <;> cases h
    rfl

theorem decode_of_decodeTableWord {nbits w : Nat} {i : Instr}
    (h : decodeTableWord nbits w = some i) : decode (tableWord nbits w) = .instr i := by
  unfold decodeTableWord at h
  split at h
  · next hd => cases h; exact hd
  · cases h

/-- Settles O6. -/
theorem placedRowRunsAsItsInstruction : Obligations.PlacedRowRunsAsItsInstruction := by
  intro s nbits w i h
  calc step (s.withFetchWord nbits w)
      = runInput (inputOf s.port (tableWord nbits w)) s := step_placeNext ..
    _ = exec i (deliver (inputOf s.port (tableWord nbits w)) s) :=
        runInput_inputOf (decode_of_decodeTableWord h) ..
    _ = exec i s := by rw [deliver_inputOf]

/-! Clock differences (R14). -/

theorem delta_toNat (a b : Word64) : (delta a b).toNat = (a.toNat + 2 ^ 64 - b.toNat) % 2 ^ 64 := by
  have hb := b.isLt
  rw [delta, BitVec.toNat_sub]
  congr 1
  omega

theorem delta_add_left (b d : Word64) : delta (b + d) b = d := by
  rw [delta, BitVec.add_comm, BitVec.add_sub_cancel]

/-- Settles O10: the subtraction undoes the addition in the ring of words, wrapped or not. -/
theorem clockDifferenceSurvivesWrap : Obligations.ClockDifferenceSurvivesWrap := by
  refine ⟨delta_toNat, fun b n hn => ?_⟩
  rw [delta_add_left, BitVec.toNat_ofNat, Nat.mod_eq_of_lt hn]

/-! Reset (R70, R340, R343). -/

theorem atReset_reset (k : Nat) (w : Wiring) : AtReset (Block.reset k w) where
  rxState := rfl
  lengths := ⟨rfl, rfl⟩
  flags := ⟨rfl, rfl, rfl⟩
  result := ⟨rfl, rfl, rfl⟩
  session := ⟨rfl, rfl⟩
  callbacks := ⟨rfl, rfl⟩
  rxConfig := ⟨rfl, rfl, rfl⟩
  txState := rfl
  sequence := ⟨rfl, rfl⟩
  progress := ⟨rfl, rfl, rfl⟩
  pin := rfl
  txConfig := ⟨rfl, rfl, rfl⟩
  alive := rfl

theorem buffersUnwritten_reset (k : Nat) (w : Wiring) : BuffersUnwritten (Block.reset k w) :=
  fun _ => ⟨rfl, rfl, rfl⟩

theorem length_boot_blocks (p : Params) (ws : List Wiring) :
    (State.boot p ws).blocks.length = ws.length := length_resetFrom 0 ws

theorem boot_block (p : Params) (ws : List Wiring) {k : Nat} (h : k < ws.length) :
    (State.boot p ws).blocks[k]? = some (Block.reset k ws[k]) := by
  simp [State.boot, resetFrom_get, h]

theorem cleanEntry_boot (p : Params) (ws : List Wiring) {k : Nat} (h : k < ws.length) :
    CleanEntry (State.boot p ws) k :=
  ⟨_, boot_block p ws h, atReset_reset _ _, buffersUnwritten_reset _ _, rfl⟩

/-- Settles O11: `State.reset` is an instance of `State.boot` with at least one wiring. -/
theorem resetIsCleanEntry : Obligations.ResetIsCleanEntry := by
  refine ⟨fun p ws _ hk => cleanEntry_boot p ws hk, fun k hk => ?_, ?_, rfl, rfl, rfl⟩
  · exact cleanEntry_boot _ _ (length_boot_blocks .. ▸ hk)
  · rw [State.reset, length_boot_blocks]
    exact Nat.succ_pos _

/-! No instruction writes the wiring (R9, R345). -/

@[simp] theorem timeoutStep_wiring (b : Block) : (timeoutStep b).wiring = b.wiring := by
  rw [timeoutStep_eq]

@[simp] theorem errorStep_wiring (b : Block) (tUs : Word64) :
    (errorStep b tUs).wiring = b.wiring := by
  rw [errorStep_eq]

theorem decodeStep_wiring {b b' : Block} (h : decodeStep b = .ok b') : b'.wiring = b.wiring := by
  obtain ⟨xs, -, rfl⟩ := decodeStep_eq_ok h
  rfl

@[simp] theorem intervalStep_wiring (b : Block) (d : Word32) (tUs : Word64) :
    (intervalStep b d tUs).wiring = b.wiring := by
  obtain ⟨-, -, h⟩ | ⟨-, -, h⟩ | ⟨-, -, h⟩ | ⟨-, -, h⟩ | ⟨-, -, -, h⟩ | ⟨-, -, -, h⟩ :=
    intervalStep_cases b d tUs <;> rw [h]

/-- Replacing an instance by one with the same wiring keeps the wiring of every instance. -/
theorem map_wiring_set {bs : List Block} {k : Nat} {b c : Block} (hb : bs[k]? = some b)
    (hw : c.wiring = b.wiring) : (bs.set k c).map Block.wiring = bs.map Block.wiring := by
  obtain ⟨hk, rfl⟩ := List.getElem?_eq_some_iff.1 hb
  rw [List.map_set, hw, ← List.getElem_map Block.wiring, List.set_getElem_self]
  simpa using hk

/-- An instruction that ends with instance `c` in place of the live `b` keeps every instance's wiring,
when `c` has the wiring of `b` and nothing else touched the instances before. -/
theorem Ends.keeps_wiring {s u t : State} {b c : Block} {res : Word32} {stat : Status}
    (e : Ends u c res stat t) (hl : Live s b) (hu : u.blocks = s.blocks) (hp : u.port = s.port)
    (hw : c.wiring = b.wiring) : t.blocks.map Block.wiring = s.blocks.map Block.wiring := by
  rw [e, withSelf, hu, hp]
  exact map_wiring_set hl.1 hw

theorem effect_keeps_wiring {i : Instr} {s t : State} {b : Block} (hl : Live s b)
    (e : Effect s b t i) : t.blocks.map Block.wiring = s.blocks.map Block.wiring := by
  cases i with
  | rxStart | rxStartPeriodic _ =>
    obtain ⟨-, e⟩ | ⟨-, -, e⟩ := e <;> exact e.keeps_wiring hl rfl rfl rfl
  | rxStop | rxStopPeriodic =>
    exact Ends.keeps_wiring e hl (unbindPin_blocks s b) (unbindPin_port s b) rfl
  | rxUpdate =>
    obtain ⟨-, e⟩ | ⟨-, -, b', hd, e⟩ | ⟨-, -, -, e⟩ | ⟨-, -, -, e⟩ | ⟨-, -, e⟩ | ⟨-, -, e⟩ := e
    · exact e.keeps_wiring hl rfl rfl rfl
    · exact e.keeps_wiring hl rfl rfl (decodeStep_wiring hd)
    · exact e.keeps_wiring hl rfl rfl (timeoutStep_wiring b)
    · exact e.keeps_wiring hl rfl rfl rfl
    · exact e.keeps_wiring hl rfl rfl rfl
    · exact e.keeps_wiring hl (unbindPin_blocks s b) (unbindPin_port s b) rfl
  | rxGetRaw _ =>
    obtain ⟨-, v, -, e⟩ | ⟨-, e⟩ := e <;> exact e.keeps_wiring hl rfl rfl rfl
  | rxSetTimeout _ | txSetCarrier _ =>
    obtain ⟨-, -, e⟩ | ⟨-, e⟩ := e <;> exact e.keeps_wiring hl rfl rfl rfl
  | txNec _ | txRc5 _ | txSony _ =>
    obtain ⟨-, e⟩ | ⟨-, e⟩ := e <;> exact e.keeps_wiring hl rfl rfl rfl
  | txRaw _ _ =>
    obtain ⟨-, e⟩ | ⟨-, -, e⟩ | ⟨-, -, -, -, e⟩ := e <;> exact e.keeps_wiring hl rfl rfl rfl
  | txUpdate =>
    obtain ⟨-, e⟩ | ⟨-, e⟩ | ⟨-, -, e⟩ | ⟨-, -, -, e⟩ | ⟨-, d, n, -, e⟩ := e
    · exact e.keeps_wiring hl rfl rfl rfl
    · exact e.keeps_wiring hl rfl rfl rfl
    · exact e.keeps_wiring hl rfl rfl (errorStep_wiring ..)
    · exact e.keeps_wiring hl rfl rfl rfl
    · exact e.keeps_wiring hl rfl rfl (intervalStep_wiring ..)
  | rxIsReceiving | rxIsDetected | rxGetCode | rxGetProtocol | rxGetRawLen | txIsTransmitting
  | txIsComplete =>
    obtain ⟨res, e⟩ := e
    exact e.keeps_wiring hl rfl rfl rfl
  | rxSetCallback _ | rxSetMinPw _ | rxSetMaxPw _ | txSetCallback _ | txSetPower _
  | txSetRepeat _ => exact Ends.keeps_wiring e hl rfl rfl rfl
  | edge => exact e.elim
  | teardown =>
    rw [show t = _ from e, withSelf, unbindPin_blocks, unbindPin_port]
    exact map_wiring_set hl.1 rfl

/-- Settles O8. An edge changes at most one receiver (`execEdge_cases`); every other instruction replaces
the addressed instance in a state that differs at most in the binding table and the draws
(`effect_shape`), and that instance keeps its wiring. -/
theorem fixedByEveryInstruction : Obligations.FixedByEveryInstruction := by
  intro i s t h
  by_cases hi : i = .edge
  · subst hi
    obtain rfl | ⟨k, b, r, -, hb, -, -, rfl⟩ := execEdge_cases h
    · exact ⟨rfl, rfl, rfl, rfl, rfl⟩
    · exact ⟨rfl, rfl, rfl, rfl, map_wiring_set hb rfl⟩
  · obtain ⟨b, hl, e⟩ := exec_effect h hi
    have hw := effect_keeps_wiring hl e
    obtain ⟨u, c, -, hport, hparams, hmem, hinputs, rfl⟩ := effect_shape e
    exact ⟨hmem, hparams, hport, hinputs, hw⟩

end Sys2Proof.Machine
end

section
/-! SUPPORT. The statements of 10_state.md: the invariants of R61 at reset, at every step and along every
run, the writers of the registers, and instances that have been torn down. -/

namespace Sys2Proof.Machine

/-! The invariants at reset (R61, R70). -/

theorem blockInv_reset (n k : Nat) (w : Wiring) : BlockInv n (Block.reset k w) where
  rx := receiverInv_reset k
  tx := transmitterInv_reset n k
  bound_iff _ := by simp [Block.reset, Receiver.reset]
  dead_released h := nomatch h

/-- An instance of the platform after reset is `Block.reset` of its number. -/
theorem eq_reset_of_boot {p : Params} {ws : List Wiring} {k : Nat} {b : Block}
    (h : (State.boot p ws).blocks[k]? = some b) : ∃ w, b = Block.reset k w := by
  have hk : k < ws.length := length_boot_blocks p ws ▸ (List.getElem?_eq_some_iff.1 h).1
  rw [boot_block p ws hk] at h
  exact ⟨_, (Option.some.inj h).symm⟩

theorem inv_boot (p : Params) (ws : List Wiring) : Inv (State.boot p ws) where
  blocks k b h := by
    obtain ⟨w, rfl⟩ := eq_reset_of_boot h
    exact blockInv_reset ..
  table := {
    table_wf := rfl
    entry_bound := fun p k h => nomatch h
    bound_entry := fun k b h hb => by
      obtain ⟨w, rfl⟩ := eq_reset_of_boot h
      cases hb }
  mem_wf := rfl

/-- Settles O12: `State.reset` is an instance of `State.boot`. -/
theorem invariantsHoldAtReset : Obligations.InvariantsHoldAtReset :=
  ⟨inv_boot, inv_boot _ _⟩

/-! What a step runs (R7, R8): said once for next states, faults and refusals. -/

/-- The state in which the input `i` runs: taken from the queue, `rest` left, and latched. -/
def taken (s : State) (i : Input) (rest : List Input) : State := deliver i { s with inputs := rest }

theorem inv_taken {s : State} (h : Inv s) (i : Input) (rest : List Input) : Inv (taken s i rest) :=
  inv_deliver h _ _

/-- A step without an input changes nothing; with one it is an instruction, the answer to an illegal word,
or a host write. -/
theorem step_cases (s : State) :
    (s.inputs = [] ∧ step s = .next s) ∨
    ∃ i rest, s.inputs = i :: rest ∧
      ((∃ ins, step s = exec ins (taken s i rest)) ∨
        step s = illegalWord (taken s i rest) ∨
        ∃ a v, i = .hostWrite a v ∧ step s = hostWrite (taken s i rest) a v) := by
  rcases hin : s.inputs with _ | ⟨i, rest⟩
  · exact .inl ⟨rfl, step_of_no_input hin⟩
  · refine .inr ⟨i, rest, rfl, ?_⟩
    rw [step_of_input hin]
    cases i with
    | cmd k w tUs tMs =>
      cases hd : decode (.command w) with
      | instr ins => exact .inl ⟨ins, runInput_cmd hd ..⟩
      | illegal why => exact .inr (.inl (by simp only [runInput, hd]; rfl))
    | edge pin tUs => exact .inl ⟨.edge, rfl⟩
    | teardown k tUs => exact .inl ⟨.teardown, rfl⟩
    | hostWrite a v => exact .inr (.inr ⟨a, v, rfl, rfl⟩)

theorem hostWrite_eq_next {s t : State} {a : Nat} {v : Word32} (h : hostWrite s a v = .next t) :
    t = { s with hostMem := writeHostWord s.params.byteOrder s.hostMem a v } := by
  unfold hostWrite at h
  split at h <;> cases h
  rfl

theorem illegalWord_eq_next {s t : State} (h : illegalWord s = .next t) :
    ∃ b, Live s b ∧ Ends s b 0#32 .illegal t := by
  obtain ⟨b, hl, h⟩ := onSelf_eq_next h
  exact ⟨b, hl, ends_of_answer h⟩

/-! What each instruction keeps of the invariants (R61). -/

/-- The registers of R55 and the callback handle may hold anything, but for the carrier's range. -/
theorem transmitterInv_config {n : Nat} {t : Transmitter} (h : TransmitterInv n t) (cb f : Word32)
    (p r : Word8) (hf : 30000 ≤ f.toNat ∧ f.toNat ≤ 60000) :
    TransmitterInv n { t with txCb := cb, carrierHz := f, power := p, repeatCount := r } :=
  { h with carrier_range := hf }

/-- Outside Receiving the capture is off (R61 item 2). -/
theorem ReceiverInv.disabled {r : Receiver} (h : ReceiverInv r) (hs : r.rxState ≠ .receiving) :
    r.capEn = false :=
  Bool.eq_false_iff.2 fun he => hs (h.enabled_receiving he)

theorem rxUpdate_keeps_inv {s t : State} {b : Block} (hI : Inv s) (hl : Live s b)
    (e : Effect s b t .rxUpdate) : Inv t := by
  have hrx := (hI.blocks _ _ hl.1).rx
  obtain ⟨-, e⟩ | ⟨hr, hc, b', hd, e⟩ | ⟨hr, -, -, e⟩ | ⟨-, -, -, e⟩ | ⟨hr, -, e⟩ | ⟨hr, -, e⟩ := e
  · exact inv_same hI hl e
  · have hrx' := receiverInv_decode hrx hc hd
    obtain ⟨xs, -, rfl⟩ := decodeStep_eq_ok hd
    exact inv_rx hI hl e rfl rfl rfl hrx' rfl (by simp [replied, hr])
  · rw [timeoutStep_eq] at e
    exact inv_rx hI hl e rfl rfl rfl (receiverInv_off hrx _ rfl rfl rfl nofun rfl rfl rfl rfl) rfl
      (by simp [replied, hr])
  · exact inv_same hI hl e
  · exact inv_rx hI hl e rfl rfl rfl (receiverInv_enter hrx _ rfl rfl rfl rfl rfl rfl rfl) rfl
      (by rcases hr with hr | hr <;> simp [replied, hr])
  · have hoff : b.rx.capEn = false := hrx.disabled (by rcases hr with hr | hr <;> simp [hr])
    exact inv_release hI hl e rfl rfl (receiverInv_off hrx _ rfl rfl hoff nofun rfl rfl rfl rfl)

@[simp] theorem intervalStep_rx (b : Block) (d : Word32) (tUs : Word64) :
    (intervalStep b d tUs).rx = b.rx := by
  obtain ⟨-, -, h⟩ | ⟨-, -, h⟩ | ⟨-, -, h⟩ | ⟨-, -, h⟩ | ⟨-, -, -, h⟩ | ⟨-, -, -, h⟩ :=
    intervalStep_cases b d tUs <;> rw [h]

@[simp] theorem intervalStep_dead (b : Block) (d : Word32) (tUs : Word64) :
    (intervalStep b d tUs).dead = b.dead := by
  obtain ⟨-, -, h⟩ | ⟨-, -, h⟩ | ⟨-, -, h⟩ | ⟨-, -, h⟩ | ⟨-, -, -, h⟩ | ⟨-, -, -, h⟩ :=
    intervalStep_cases b d tUs <;> rw [h]

/-- An end with another transmitter and, for the draws of R95, another count. -/
theorem Ends.keeps_inv_of_tx {s t : State} {b c : Block} {res : Word32} {stat : Status} {n : Nat}
    (e : Ends { s with drawCount := n } c res stat t) (hI : Inv s) (hl : Live s b)
    (htx : TransmitterInv s.params.hostseqWords c.tx) (hrx : c.rx = b.rx) (hw : c.wiring = b.wiring)
    (hd : c.dead = b.dead) : Inv t :=
  inv_tx hI hl (replied c res stat) hrx hw hd htx n e

/-- The three encoded transmissions in one form: refused, or started with the encoder's output. -/
theorem encoded_keeps_inv {s t : State} {b : Block} (hI : Inv s) (hl : Live s b) {xs : List Word32}
    {len : Nat} (hlen : xs.length = len) (h1 : 1 ≤ len) (h2 : len ≤ 128)
    (e : (b.tx.txState = .transmitting ∧ Ends s b 0#32 .busy t) ∨
      (b.tx.txState ≠ .transmitting ∧ Ends s (startEncoded b xs len s.port.tUs) 1#32 .ok t)) :
    Inv t := by
  obtain ⟨-, e⟩ | ⟨-, e⟩ := e
  · exact inv_same hI hl e
  · have htx := transmitterInv_encoded (hI.blocks _ _ hl.1).tx hlen h1 h2 s.port.tUs
    exact e.keeps_inv_of_tx hI hl htx rfl rfl rfl

theorem txUpdate_keeps_inv {s t : State} {b : Block} (hI : Inv s) (hl : Live s b)
    (e : Effect s b t .txUpdate) : Inv t := by
  have htx := (hI.blocks _ _ hl.1).tx
  obtain ⟨-, e⟩ | ⟨hc, e⟩ | ⟨ht, hs, -⟩ | ⟨ht, -, -, e⟩ | ⟨hf, d, n, -, e⟩ := e
  · exact inv_same hI hl e
  · have hs : b.tx.txState ≠ .transmitting := by rcases hc with hc | hc <;> simp [hc]
    exact e.keeps_inv_of_tx hI hl (transmitterInv_idle htx hs) rfl rfl rfl
  · exact absurd hs (htx.running ht).1
  · exact e.keeps_inv_of_tx hI hl (transmitterInv_gap htx ht _) rfl rfl rfl
  · exact e.keeps_inv_of_tx hI hl (transmitterInv_interval htx hf d _) (intervalStep_rx ..)
      (intervalStep_wiring ..) (intervalStep_dead ..)

/-- What TEARDOWN at `tUs` makes of an instance (R347). -/
def tornDown (b : Block) (tUs : Word64) : Block :=
  { b with
    rx := unbound { disarm b.rx with periodic := false }
    tx := pinOut b.tx tUs false
    dead := true }

/-- TEARDOWN releases the binding, ends the capture and drives the pin low, which is all that the
invariants ask of a torn-down instance (log entry 11). -/
theorem blockInv_tornDown {n : Nat} {b : Block} (h : BlockInv n b) (tUs : Word64) :
    BlockInv n (tornDown b tUs) where
  rx := receiverInv_off h.rx _ rfl rfl rfl h.rx.not_decoding rfl rfl rfl rfl
  tx := transmitterInv_low h.tx tUs
  bound_iff := nofun
  dead_released _ := ⟨rfl, rfl, rfl⟩

theorem teardown_keeps_inv {s t : State} {b : Block} (hI : Inv s) (hl : Live s b)
    (e : Effect s b t .teardown) : Inv t := by
  have ht : t = withSelf (unbindPin s b) (tornDown b s.port.tUs) := e
  have hblocks : t.blocks = s.blocks.set s.port.block (tornDown b s.port.tUs) := by
    simp [ht, withSelf]
  have hparams : t.params = s.params := by simp [ht, withSelf]
  have hmem : t.hostMem = s.hostMem := by simp [ht, withSelf]
  have htable : t.pinOwner = (unbindPin s b).pinOwner := by rw [ht]; rfl
  exact ⟨inv_blocks hI hl.1 hblocks hparams (blockInv_tornDown (hI.blocks _ _ hl.1) _),
    table_unbind hI.table hl.1 hblocks htable rfl rfl, hmem ▸ hI.mem_wf⟩

theorem edge_keeps_inv {s t : State} (hI : Inv s) (h : execEdge s = .next t) : Inv t := by
  obtain rfl | ⟨k, b, r, -, hb, hd, he, rfl⟩ := execEdge_cases h
  · exact hI
  have hB := hI.blocks k b hb
  obtain ⟨hst, -, -, -, -, -, -, -, -, hbound, -⟩ := edgeStep_frm he
  have hc : BlockInv s.params.hostseqWords { b with rx := r } := {
    rx := receiverInv_edge hB.rx he
    tx := hB.tx
    bound_iff := by simpa only [hst, hbound] using hB.bound_iff
    dead_released := fun h => absurd hd (by simpa using h) }
  exact ⟨inv_blocks hI hb rfl rfl hc, table_same hI.table hb rfl rfl rfl hbound, hI.mem_wf⟩

theorem effect_keeps_inv {i : Instr} {s t : State} {b : Block} (hI : Inv s) (hl : Live s b)
    (e : Effect s b t i) : Inv t := by
  have hrx := (hI.blocks _ _ hl.1).rx
  have htx := (hI.blocks _ _ hl.1).tx
  cases i with
  | rxStart | rxStartPeriodic _ =>
    obtain ⟨-, e⟩ | ⟨-, hf, e⟩ := e
    · exact inv_same hI hl e
    · exact inv_start hI hl hf e ⟨rfl, rfl, rfl, rfl⟩
  | rxStop | rxStopPeriodic =>
    exact inv_release hI hl e rfl rfl (receiverInv_off hrx _ rfl rfl rfl nofun rfl rfl rfl rfl)
  | rxUpdate => exact rxUpdate_keeps_inv hI hl e
  | rxIsReceiving | rxIsDetected | rxGetCode | rxGetProtocol | rxGetRawLen | txIsTransmitting
  | txIsComplete =>
    obtain ⟨res, e⟩ := e
    exact inv_same hI hl e
  | rxGetRaw _ =>
    obtain ⟨-, v, -, e⟩ | ⟨-, e⟩ := e <;> exact inv_same hI hl e
  | rxSetTimeout _ =>
    obtain ⟨h1, h2, e⟩ | ⟨-, e⟩ := e
    · exact inv_rx hI hl e rfl rfl rfl
        (receiverInv_same hrx _ rfl rfl rfl rfl rfl rfl rfl ⟨h1, h2⟩) rfl Iff.rfl
    · exact inv_same hI hl e
  | rxSetCallback _ | rxSetMinPw _ | rxSetMaxPw _ =>
    exact inv_rx hI hl e rfl rfl rfl
      (receiverInv_same hrx _ rfl rfl rfl rfl rfl rfl rfl hrx.timeout_range) rfl Iff.rfl
  | txNec c => exact encoded_keeps_inv hI hl (length_encodeNec c) (by decide) (by decide) e
  | txRc5 c => exact encoded_keeps_inv hI hl (length_encodeRc5 c) (by decide) (by decide) e
  | txSony c => exact encoded_keeps_inv hI hl (length_encodeSony c) (by decide) (by decide) e
  | txRaw _ _ =>
    obtain ⟨-, e⟩ | ⟨-, -, e⟩ | ⟨-, h1, h2, h3, e⟩ := e
    · exact inv_same hI hl e
    · exact inv_same hI hl e
    · exact e.keeps_inv_of_tx hI hl (transmitterInv_raw htx h1 h2 h3 _) rfl rfl rfl
  | txUpdate => exact txUpdate_keeps_inv hI hl e
  | txSetCarrier f =>
    obtain ⟨h1, h2, e⟩ | ⟨-, e⟩ := e
    · exact e.keeps_inv_of_tx hI hl (transmitterInv_config htx _ f _ _ ⟨h1, h2⟩) rfl rfl rfl
    · exact inv_same hI hl e
  | txSetCallback _ | txSetPower _ | txSetRepeat _ =>
    exact Ends.keeps_inv_of_tx e hI hl (transmitterInv_config htx _ _ _ _ htx.carrier_range) rfl rfl rfl
  | edge => exact e.elim
  | teardown => exact teardown_keeps_inv hI hl e

theorem exec_keeps_inv {i : Instr} {s t : State} (hI : Inv s) (h : exec i s = .next t) : Inv t := by
  by_cases hi : i = .edge
  · subst hi
    exact edge_keeps_inv hI h
  · obtain ⟨b, hl, e⟩ := exec_effect h hi
    exact effect_keeps_inv hI hl e

/-- Settles O13. Taking the input keeps the invariants (`inv_taken`), and so does what it runs: an
instruction (`exec_keeps_inv`, by cases on what it can do), the answer to an illegal word, which adds a
response, or a host write, which changes only host memory. -/
theorem stepKeepsInvariants : Obligations.StepKeepsInvariants := by
  intro s t hI h
  obtain ⟨-, e⟩ | ⟨i, rest, -, ⟨ins, e⟩ | e | ⟨a, v, -, e⟩⟩ := step_cases s <;> rw [e] at h
  · cases h
    exact hI
  · exact exec_keeps_inv (inv_taken hI i rest) h
  · obtain ⟨b, hl, e⟩ := illegalWord_eq_next h
    exact inv_same (inv_taken hI i rest) hl e
  · obtain rfl := hostWrite_eq_next h
    obtain ⟨hblocks, htable, hmem⟩ := inv_taken hI i rest
    exact ⟨hblocks, ⟨htable.table_wf, htable.entry_bound, htable.bound_entry⟩,
      wf_writeHostWord hmem _ _ _⟩

/-! Where a run can fault (R61, R305, R342). -/

/-- A fault of an addressed input comes only from a live instance. -/
theorem onSelf_eq_fault {s : State} {f : Block → Host.Outcome State Fault Refusal} {r : Fault}
    (h : onSelf s f = .fault r) : ∃ b, Live s b ∧ f b = .fault r := by
  unfold onSelf self? at h
  split at h
  · cases h
  · next b hb =>
    split at h
    · cases h
    · next hd => exact ⟨b, ⟨hb, by simpa using hd⟩, h⟩

/-- The decode step reads only what the capture has written. -/
theorem decodeStep_ok {b : Block} (h : ReceiverInv b.rx) : ∃ b', decodeStep b = .ok b' := by
  obtain ⟨xs, hx⟩ := readCells?_of_written (base := 0) (by simpa [written] using h.cap_written)
  exact decodeStep_of_written hx

theorem execRxUpdate_no_fault {s : State} {r : Fault} (hI : Inv s) : execRxUpdate s ≠ .fault r := by
  intro h
  obtain ⟨b, hl, h⟩ := onSelf_eq_fault h
  have hrx := (hI.blocks _ _ hl.1).rx
  split at h
  · cases h
  · obtain ⟨b', hd⟩ := decodeStep_ok hrx
    rw [hd] at h
    split at h
    · cases h
    · split at h <;> cases h
  · cases h
  · cases h
  · next hr => exact hrx.not_decoding hr

theorem execRxGetRaw_no_fault {s : State} {i : Word32} {r : Fault} (hI : Inv s) :
    execRxGetRaw i s ≠ .fault r := by
  intro h
  obtain ⟨b, hl, h⟩ := onSelf_eq_fault h
  have hrx := (hI.blocks _ _ hl.1).rx
  split at h
  · next hi =>
    obtain ⟨v, hv⟩ := Option.isSome_iff_exists.1 (hrx.raw_written _ hi)
    rw [hv] at h
    cases h
  · cases h

theorem execTxUpdate_no_fault {s : State} {r : Fault} (hI : Inv s) : execTxUpdate s ≠ .fault r := by
  intro h
  obtain ⟨b, hl, h⟩ := onSelf_eq_fault h
  split at h
  · cases h
  · cases h
  · cases h
  · next ht =>
    split at h
    · cases h
    · next hs =>
      split at h
      · cases h
      · next hg =>
        obtain ⟨p, hp⟩ := curInterval_ok (hI.blocks _ _ hl.1) ⟨ht, hs, by simpa using hg⟩
        rw [hp] at h
        cases h

theorem execEdge_no_fault {s : State} {r : Fault} (hI : Inv s) : execEdge s ≠ .fault r := by
  intro h
  unfold execEdge at h
  split at h
  · cases h
  · next k hk =>
    split at h
    · cases h
    · next b hb =>
      split at h
      · cases h
      · split at h
        · next f hf =>
          obtain ⟨hen, hfull, -⟩ := edgeStep_error hf
          have hroom := (hI.blocks k b hb).rx.enabled_room hen
          omega
        · cases h

/-- From a state with the invariants no instruction faults. -/
theorem exec_no_fault {i : Instr} {s : State} {r : Fault} (hI : Inv s) : exec i s ≠ .fault r := by
  cases i with
  | rxUpdate => exact execRxUpdate_no_fault hI
  | rxGetRaw _ => exact execRxGetRaw_no_fault hI
  | txUpdate => exact execTxUpdate_no_fault hI
  | edge => exact execEdge_no_fault hI
  | rxStart | rxStartPeriodic _ | txRaw _ _ =>
    intro h
    obtain ⟨b, -, h⟩ := onSelf_eq_fault h
    split at h
    · cases h
    · split at h <;> cases h
  | rxSetTimeout _ | txSetCarrier _ | txNec _ | txRc5 _ | txSony _ =>
    intro h
    obtain ⟨b, -, h⟩ := onSelf_eq_fault h
    split at h <;> cases h
  | rxStop | rxStopPeriodic | rxIsReceiving | rxIsDetected | rxGetCode | rxGetProtocol
  | rxGetRawLen | rxSetCallback _ | rxSetMinPw _ | rxSetMaxPw _ | txIsTransmitting | txIsComplete
  | txSetCallback _ | txSetPower _ | txSetRepeat _ | teardown =>
    intro h
    obtain ⟨b, -, h⟩ := onSelf_eq_fault h
    cases h

theorem hostWrite_eq_fault {s : State} {a : Nat} {v : Word32} {r : Fault}
    (h : hostWrite s a v = .fault r) : r = .hostAddress ∧ s.params.hostseqWords ≤ a := by
  unfold hostWrite at h
  split at h
  · cases h
  · next ha =>
    cases h
    exact ⟨rfl, Nat.le_of_not_lt ha⟩

/-- From a state with the invariants a step faults only on a host write past host memory. -/
theorem step_eq_fault {s : State} {r : Fault} (hI : Inv s) (h : step s = .fault r) :
    r = .hostAddress ∧ ∃ a v, s.inputs[0]? = some (.hostWrite a v) ∧ s.params.hostseqWords ≤ a := by
  obtain ⟨-, e⟩ | ⟨i, rest, hin, ⟨ins, e⟩ | e | ⟨a, v, rfl, e⟩⟩ := step_cases s <;> rw [e] at h
  · cases h
  · exact absurd h (exec_no_fault (inv_taken hI i rest))
  · obtain ⟨b, -, h⟩ := onSelf_eq_fault h
    cases h
  · obtain ⟨hr, ha⟩ := hostWrite_eq_fault h
    exact ⟨hr, a, v, by rw [hin]; rfl, ha⟩

/-- A step takes the oldest input, if there is one, and changes no parameter. -/
theorem step_takes_input {s t : State} (h : step s = .next t) :
    t.inputs = s.inputs.tail ∧ t.params = s.params := by
  obtain ⟨hin, e⟩ | ⟨i, rest, hin, ⟨ins, e⟩ | e | ⟨a, v, rfl, e⟩⟩ := step_cases s <;>
    rw [e] at h <;> rw [hin]
  · cases h
    exact ⟨hin, rfl⟩
  · obtain ⟨-, hparams, -, hinputs, -⟩ := fixedByEveryInstruction ins _ _ h
    exact ⟨hinputs, hparams⟩
  · obtain ⟨b, -, rfl⟩ := illegalWord_eq_next h
    exact ⟨rfl, rfl⟩
  · obtain rfl := hostWrite_eq_next h
    exact ⟨rfl, rfl⟩

theorem run_succ_of_next {s s' : State} (h : step s = .next s') (n : Nat) :
    Host.Core.run core (n + 1) s = Host.Core.run core n s' := by
  simp only [Host.Core.run]
  rw [show core.step s = .next s' from h]

/-- A run that faults from a state with the invariants does so after the first `m` of its inputs, at a
host write past host memory. -/
theorem run_eq_fault {n : Nat} {s : State} {r : Fault} (hI : Inv s)
    (h : Host.Core.run core n s = .fault r) :
    r = .hostAddress ∧ ∃ m a v t, m < n ∧ Host.Core.run core m s = .next t ∧
      t.inputs = s.inputs.drop m ∧ s.inputs[m]? = some (.hostWrite a v) ∧
      s.params.hostseqWords ≤ a ∧ step t = .fault r := by
  induction n generalizing s with
  | zero => cases h
  | succ n ih =>
    cases hs : step s with
    | next s' =>
      rw [run_succ_of_next hs] at h
      obtain ⟨hinputs, hparams⟩ := step_takes_input hs
      obtain ⟨hr, m, a, v, t, hm, hrun, hin, hw, ha, hf⟩ := ih (stepKeepsInvariants s s' hI hs) h
      refine ⟨hr, m + 1, a, v, t, by omega, by rw [run_succ_of_next hs, hrun], ?_, ?_, ?_, hf⟩
      · rw [hin, hinputs, List.drop_tail]
      · rw [← hw, hinputs, List.getElem?_tail]
      · rwa [← hparams]
    | fault f =>
      simp only [Host.Core.run, show core.step s = .fault f from hs] at h
      cases h
      obtain ⟨hr, a, v, hin, ha⟩ := step_eq_fault hI hs
      exact ⟨hr, 0, a, v, s, by omega, rfl, rfl, hin, ha, hs⟩
    | refused f =>
      simp only [Host.Core.run, show core.step s = .refused f from hs] at h
      cases h

/-- Settles O15: the run starts at reset, where the invariants hold (`inv_boot`), with the script as its
queue (`inv_deliver`). -/
theorem runsFaultOnlyOnHostAddress : Obligations.RunsFaultOnlyOnHostAddress :=
  fun p ws script _ _ h => run_eq_fault (inv_deliver (inv_boot p ws) _ script) h

/-! Instances that have been torn down (R62, R347). -/

theorem onSelf_of_dead {s : State} {b : Block} (hb : s.blocks[s.port.block]? = some b)
    (hd : b.dead = true) (f : Block → Host.Outcome State Fault Refusal) :
    onSelf s f = .refused .deadBlock := by
  simp [onSelf, self?, hb, hd]

/-- Every instruction but EDGE is an input of the addressed instance. -/
theorem exec_eq_onSelf {i : Instr} (hi : i ≠ .edge) (s : State) : ∃ f, exec i s = onSelf s f := by
  cases i with
  | edge => exact absurd rfl hi
  | _ => exact ⟨_, rfl⟩

theorem Live.ne_of_dead {s : State} {b c : Block} {k : Nat} (hl : Live s b)
    (hc : s.blocks[k]? = some c) (hd : c.dead = true) : k ≠ s.port.block := by
  rintro rfl
  have := hl.2
  rw [← hl.unique hc, hd] at this
  cases this

theorem exec_keeps_dead {i : Instr} {s t : State} {k : Nat} {b : Block}
    (hb : s.blocks[k]? = some b) (hd : b.dead = true) (h : exec i s = .next t) :
    t.blocks[k]? = some b := by
  by_cases hi : i = .edge
  · subst hi
    obtain rfl | ⟨j, c, r, -, hc, hlive, -, rfl⟩ := execEdge_cases h
    · exact hb
    · have hj : j ≠ k := by
        rintro rfl
        rw [hb] at hc
        cases hc
        rw [hd] at hlive
        cases hlive
      simpa [hj] using hb
  · obtain ⟨c, hl, e⟩ := exec_effect h hi
    obtain ⟨u, c', hblocks, hport, -, -, -, rfl⟩ := effect_shape e
    have hk := hl.ne_of_dead hb hd
    rw [withSelf_other u c' (hport ▸ hk), hblocks, hb]

theorem step_keeps_dead {s t : State} {k : Nat} {b : Block} (hb : s.blocks[k]? = some b)
    (hd : b.dead = true) (h : step s = .next t) : t.blocks[k]? = some b := by
  obtain ⟨-, e⟩ | ⟨i, rest, -, ⟨ins, e⟩ | e | ⟨a, v, -, e⟩⟩ := step_cases s <;> rw [e] at h
  · cases h
    exact hb
  · exact exec_keeps_dead (s := taken s i rest) hb hd h
  · obtain ⟨c, hl, rfl⟩ := illegalWord_eq_next h
    rw [withSelf_other _ _ (hl.ne_of_dead hb hd)]
    exact hb
  · obtain rfl := hostWrite_eq_next h
    exact hb

/-- Settles O58. -/
theorem deadInstancesTakeNoInput : Obligations.DeadInstancesTakeNoInput := by
  refine ⟨fun p ws b hb => ?_, fun s k b hb hd => ⟨fun t h => step_keeps_dead hb hd h, ?_⟩⟩
  · obtain ⟨k, hk⟩ := List.mem_iff_getElem?.1 hb
    obtain ⟨w, rfl⟩ := eq_reset_of_boot hk
    rfl
  · rintro i hi rfl
    obtain ⟨f, hf⟩ := exec_eq_onSelf hi s
    rw [hf, onSelf_of_dead hb hd]

/-! The writers of the registers (R33, R39, R44, R46, R55, R89). -/

/-- Every register and buffer of an instance that has writers of its own. -/
def ownedRegisters (b : Block) :=
  (b.rx.timeoutMs, b.rx.pwMin, b.rx.pwMax, b.rx.rxCb, b.tx.txCb, b.tx.carrierHz, b.tx.power,
    b.tx.repeatCount, b.rx.capBuf, b.rx.rawBuf, b.rx.rawLen, b.rx.rxCode, b.rx.rxProto, b.rx.rxValid,
    b.tx.txBuf)

/-- What RegistersKeepTheirWriters says of an instance `b` that instruction `i` makes into `c`. -/
def WritersKept (i : Instr) (b c : Block) : Prop :=
  ((∀ v, i ≠ .rxSetTimeout v) → c.rx.timeoutMs = b.rx.timeoutMs) ∧
  ((∀ v, i ≠ .rxSetMinPw v) → c.rx.pwMin = b.rx.pwMin) ∧
  ((∀ v, i ≠ .rxSetMaxPw v) → c.rx.pwMax = b.rx.pwMax) ∧
  ((∀ v, i ≠ .rxSetCallback v ∧ i ≠ .rxStartPeriodic v) → c.rx.rxCb = b.rx.rxCb) ∧
  ((∀ v, i ≠ .txSetCallback v) → c.tx.txCb = b.tx.txCb) ∧
  ((∀ v, i ≠ .txSetCarrier v) → c.tx.carrierHz = b.tx.carrierHz) ∧
  ((∀ v, i ≠ .txSetPower v) → c.tx.power = b.tx.power) ∧
  ((∀ v, i ≠ .txSetRepeat v) → c.tx.repeatCount = b.tx.repeatCount) ∧
  (i ≠ .edge → c.rx.capBuf = b.rx.capBuf) ∧
  (i ≠ .rxUpdate → c.rx.rawBuf = b.rx.rawBuf ∧ c.rx.rawLen = b.rx.rawLen ∧
    c.rx.rxCode = b.rx.rxCode ∧ c.rx.rxProto = b.rx.rxProto ∧ c.rx.rxValid = b.rx.rxValid) ∧
  ((∀ x y, i ≠ .txNec x ∧ i ≠ .txRc5 y ∧ i ≠ .txSony y) → c.tx.txBuf = b.tx.txBuf)

theorem WritersKept.of_eq {b c : Block} (h : ownedRegisters c = ownedRegisters b) (i : Instr) :
    WritersKept i b c := by
  simp only [ownedRegisters, Prod.mk.injEq] at h
  simp [WritersKept, h]

theorem ownedRegisters_intervalStep (b : Block) (d : Word32) (tUs : Word64) :
    ownedRegisters (intervalStep b d tUs) = ownedRegisters b := by
  obtain ⟨-, -, h⟩ | ⟨-, -, h⟩ | ⟨-, -, h⟩ | ⟨-, -, h⟩ | ⟨-, -, -, h⟩ | ⟨-, -, -, h⟩ :=
    intervalStep_cases b d tUs <;> rw [h] <;> rfl

/-- An end replaces the addressed instance; its response is no register. -/
theorem Ends.writersKept {i : Instr} {s u t : State} {b c : Block} {res : Word32} {stat : Status}
    (e : Ends u c res stat t) (hu : u.blocks = s.blocks) (hp : u.port = s.port)
    (hc : WritersKept i b c) :
    ∃ c', t.blocks = s.blocks.set s.port.block c' ∧ WritersKept i b c' :=
  ⟨replied c res stat, by rw [e, withSelf, hu, hp], hc⟩

/-- Only an instruction that `WritersKept` names as a writer can end in a change of an owned register. -/
theorem effect_writersKept {i : Instr} {s t : State} {b : Block} (e : Effect s b t i) :
    ∃ c, t.blocks = s.blocks.set s.port.block c ∧ WritersKept i b c := by
  cases i with
  | rxStart =>
    obtain ⟨-, e⟩ | ⟨-, -, e⟩ := e <;> exact e.writersKept rfl rfl (.of_eq rfl _)
  | rxStartPeriodic v =>
    obtain ⟨-, e⟩ | ⟨-, -, e⟩ := e
    · exact e.writersKept rfl rfl (.of_eq rfl _)
    · exact e.writersKept rfl rfl (by simp [WritersKept])
  | rxStop | rxStopPeriodic =>
    exact Ends.writersKept e (unbindPin_blocks s b) (unbindPin_port s b) (.of_eq rfl _)
  | rxUpdate =>
    obtain ⟨-, e⟩ | ⟨-, -, b', hd, e⟩ | ⟨-, -, -, e⟩ | ⟨-, -, -, e⟩ | ⟨-, -, e⟩ | ⟨-, -, e⟩ := e
    · exact e.writersKept rfl rfl (.of_eq rfl _)
    · obtain ⟨xs, -, rfl⟩ := decodeStep_eq_ok hd
      exact e.writersKept rfl rfl (by simp [WritersKept])
    · rw [timeoutStep_eq] at e
      exact e.writersKept rfl rfl (by simp [WritersKept])
    · exact e.writersKept rfl rfl (.of_eq rfl _)
    · exact e.writersKept rfl rfl (.of_eq rfl _)
    · exact e.writersKept (unbindPin_blocks s b) (unbindPin_port s b) (.of_eq rfl _)
  | rxGetRaw _ =>
    obtain ⟨-, v, -, e⟩ | ⟨-, e⟩ := e <;> exact e.writersKept rfl rfl (.of_eq rfl _)
  | rxSetTimeout _ | txSetCarrier _ =>
    obtain ⟨-, -, e⟩ | ⟨-, e⟩ := e
    · exact e.writersKept rfl rfl (by simp [WritersKept])
    · exact e.writersKept rfl rfl (.of_eq rfl _)
  | rxSetCallback _ | rxSetMinPw _ | rxSetMaxPw _ | txSetCallback _ | txSetPower _
  | txSetRepeat _ => exact Ends.writersKept e rfl rfl (by simp [WritersKept])
  | rxIsReceiving | rxIsDetected | rxGetCode | rxGetProtocol | rxGetRawLen | txIsTransmitting
  | txIsComplete =>
    obtain ⟨res, e⟩ := e
    exact e.writersKept rfl rfl (.of_eq rfl _)
  | txNec _ | txRc5 _ | txSony _ =>
    obtain ⟨-, e⟩ | ⟨-, e⟩ := e
    · exact e.writersKept rfl rfl (.of_eq rfl _)
    · exact e.writersKept rfl rfl (by simp [WritersKept, startEncoded_eq])
  | txRaw _ _ =>
    obtain ⟨-, e⟩ | ⟨-, -, e⟩ | ⟨-, -, -, -, e⟩ := e <;>
      exact e.writersKept rfl rfl (.of_eq rfl _)
  | txUpdate =>
    obtain ⟨-, e⟩ | ⟨-, e⟩ | ⟨-, -, e⟩ | ⟨-, -, -, e⟩ | ⟨-, d, n, -, e⟩ := e
    · exact e.writersKept rfl rfl (.of_eq rfl _)
    · exact e.writersKept rfl rfl (.of_eq rfl _)
    · rw [errorStep_eq] at e
      exact e.writersKept rfl rfl (.of_eq rfl _)
    · refine e.writersKept rfl rfl (.of_eq ?_ _)
      obtain ⟨-, h⟩ | ⟨-, h⟩ := gapStep_cases b.tx s.port.tUs <;> rw [h] <;> rfl
    · exact e.writersKept rfl rfl (.of_eq (ownedRegisters_intervalStep ..) _)
  | edge => exact e.elim
  | teardown =>
    refine ⟨tornDown b s.port.tUs, ?_, .of_eq rfl _⟩
    rw [show t = _ from e, withSelf, unbindPin_blocks, unbindPin_port, tornDown]

/-- An edge writes no owned register but the entries of the live buffer. -/
theorem edge_writersKept {b : Block} {r : Receiver} {tUs : Word64}
    (h : edgeStep b.rx tUs = .ok r) : WritersKept .edge b { b with rx := r } := by
  obtain ⟨-, hraw, hlen, hcode, hproto, hvalid, -, -, hcb, -, htimeout, hmin, hmax⟩ := edgeStep_frm h
  simp [WritersKept, hraw, hlen, hcode, hproto, hvalid, hcb, htimeout, hmin, hmax]

/-- Replacing instance `j` as `WritersKept` allows changes every instance as it allows. -/
theorem writersKept_of_set {i : Instr} {bs : List Block} {j k : Nat} {a c b b' : Block}
    (ha : bs[j]? = some a) (hc : WritersKept i a c) (hb : bs[k]? = some b)
    (hb' : (bs.set j c)[k]? = some b') : WritersKept i b b' := by
  by_cases hk : j = k
  · subst hk
    rw [List.getElem?_set_self (List.getElem?_eq_some_iff.1 ha).1] at hb'
    obtain rfl := Option.some.inj hb'
    obtain rfl := Option.some.inj (ha.symm.trans hb)
    exact hc
  · rw [List.getElem?_set_ne hk, hb] at hb'
    obtain rfl := Option.some.inj hb'
    exact .of_eq rfl i

/-- Settles O18. -/
theorem registersKeepTheirWriters : Obligations.RegistersKeepTheirWriters := by
  intro i s t k b b' h hb hb'
  change WritersKept i b b'
  by_cases hi : i = .edge
  · subst hi
    obtain rfl | ⟨j, a, r, -, ha, -, he, rfl⟩ := execEdge_cases h
    · obtain rfl := Option.some.inj (hb.symm.trans hb')
      exact .of_eq rfl _
    · exact writersKept_of_set ha (edge_writersKept he) hb hb'
  · obtain ⟨a, hl, e⟩ := exec_effect h hi
    obtain ⟨c, hblocks, hc⟩ := effect_writersKept e
    exact writersKept_of_set hl.1 hc hb (hblocks ▸ hb')

end Sys2Proof.Machine
end

section
/-! SUPPORT. The statements of 20_memory.md: the host's write of a word of its sequence memory, and the
canonical form of that memory. -/

namespace Sys2Proof.Machine

/-! The bytes of a word in the byte order (R82). -/

theorem getElem?_bytesOfWord_little {n : Nat} (v : Word32) (h : n < 4) :
    (bytesOfWord .little v)[n]? = some (v.extractLsb' (8 * n) 8) := by
  match n, h with
  | 0, _ | 1, _ | 2, _ | 3, _ => rfl

/-- The big byte order is the little one reversed. -/
theorem getElem?_bytesOfWord_big {n : Nat} (v : Word32) (h : n < 4) :
    (bytesOfWord .big v)[n]? = some (v.extractLsb' (8 * (3 - n)) 8) := by
  change (bytesOfWord .little v).reverse[n]? = _
  rw [List.getElem?_reverse (by rwa [length_bytesOfWord]), length_bytesOfWord]
  exact getElem?_bytesOfWord_little v (by omega)

/-- The bytes of a written word stand at `4i .. 4i+3` (R82). -/
theorem readCell?_writeHostWord_self (o : ByteOrder) (m : List Host.Cell) (i : Nat) (v : Word32)
    {n : Nat} (h : n < 4) :
    readCell? (writeHostWord o m i v) (4 * i + n) = (bytesOfWord o v)[n]? := by
  rw [writeHostWord, readCell?_writeCells, length_bytesOfWord, if_pos (by omega),
    Nat.add_sub_cancel_left]

/-- A write of a word leaves every byte outside the word as it was. -/
theorem readCell?_writeHostWord_of_outside (o : ByteOrder) (m : List Host.Cell) {i x : Nat}
    (v : Word32) (h : x < 4 * i ∨ 4 * i + 4 ≤ x) :
    readCell? (writeHostWord o m i v) x = readCell? m x := by
  rw [writeHostWord, readCell?_writeCells, length_bytesOfWord, if_neg (by omega)]

/-! The host's write (R93, R81). -/

theorem hostWrite_of_lt (s : State) {a : Nat} (v : Word32) (h : a < s.params.hostseqWords) :
    hostWrite s a v =
      .next { s with hostMem := writeHostWord s.params.byteOrder s.hostMem a v } := if_pos h

theorem hostWrite_of_le (s : State) {a : Nat} (v : Word32) (h : s.params.hostseqWords ≤ a) :
    hostWrite s a v = .fault .hostAddress := if_neg (Nat.not_lt.2 h)

/-- Settles O7. The step is the host's write itself, and host memory afterwards is `writeHostWord` of host
memory before; the word and byte clauses are what a read gives after it. -/
theorem hostWriteIsSeenByReads : Obligations.HostWriteIsSeenByReads := by
  intro s a v rest hin
  have hstep : step s = hostWrite { s with inputs := rest } a v := step_of_input hin
  constructor
  · intro ha
    exact hstep.trans (hostWrite_of_le { s with inputs := rest } v ha)
  · intro ha
    refine ⟨writeHostWord s.params.byteOrder s.hostMem a v,
      hstep.trans (hostWrite_of_lt { s with inputs := rest } v ha), hostWord?_writeHostWord_self ..,
      fun j hj => hostWord?_writeHostWord_of_ne _ _ v hj, fun n hn => ?_,
      fun x hx => readCell?_writeHostWord_of_outside _ _ v hx⟩
    rw [readCell?_writeHostWord_self _ _ _ _ hn]
    cases s.params.byteOrder with
    | little => exact getElem?_bytesOfWord_little v hn
    | big => exact getElem?_bytesOfWord_big v hn

/-- Settles O9. Both halves hold of indexed storage with any entries. -/
theorem canonicalMemoriesAreEqualData : Obligations.CanonicalMemoriesAreEqualData :=
  ⟨fun _ _ => Cells.ext_of_wf, fun _ o a v h => wf_writeHostWord h o a v⟩

end Sys2Proof.Machine
end

section
/-! SUPPORT. The statements of 30_encoding.md about words: the decoder and the encoder undo each other, and
which words are illegal and how they are answered. -/

namespace Sys2Proof

open Machine

/-! What the decoder makes of a word's fields (R106, R107). -/

/-- An opcode has an instruction exactly when it is in the opcode map, whatever the operand. -/
theorem isSome_instrOf (opc : BitVec 8) (arg : Word32) :
    (instrOf opc arg).isSome = (opcodeClass opc).isSome := by
  unfold instrOf opcodeClass
  split <;> simp [*]

/-- A legal word decodes to the instruction of its opcode and operand, any other word to none. -/
theorem decodeCommand_cases (c : Command) :
    (c.wellFormed = true ∧ ∃ i, instrOf c.opc c.arg = some i ∧ decodeCommand c = .instr i) ∨
    (c.wellFormed = false ∧ ∃ why, decodeCommand c = .illegal why) := by
  have ha : c.opcodeAssigned = (instrOf c.opc c.arg).isSome := (isSome_instrOf ..).symm
  cases hi : instrOf c.opc c.arg with
  | none =>
    exact .inr ⟨by simp [Command.wellFormed, ha, hi], .unassignedOpcode,
      by simp [decodeCommand, hi]⟩
  | some i =>
    cases hr : c.reservedZero <;> cases hz : c.operandBitsZero <;>
      simp [decodeCommand, Command.wellFormed, ha, hi, hr, hz]

theorem decodeCommand_eq_instr_iff {c : Command} {i : Instr} :
    decodeCommand c = .instr i ↔ c.wellFormed = true ∧ instrOf c.opc c.arg = some i := by
  obtain ⟨hw, j, hj, hd⟩ | ⟨hw, why, hd⟩ := decodeCommand_cases c
  · simp [hw, hj, hd]
  · simp [hw, hd]

theorem decodeCommand_eq_illegal_iff {c : Command} :
    (∃ why, decodeCommand c = .illegal why) ↔ c.wellFormed = false := by
  obtain ⟨hw, j, hj, hd⟩ | ⟨hw, why, hd⟩ := decodeCommand_cases c <;> simp [hw, hd]

/-! Decoding what was encoded. -/

/-- The encoding of every instruction is legal and stands for it, instruction by instruction. -/
theorem encoding_statement : ∀ i, Laws.Encoding.Statement i
  | .rxStart => Laws.Encoding.rxStart
  | .rxStop => Laws.Encoding.rxStop
  | .rxStartPeriodic h => Laws.Encoding.rxStartPeriodic h
  | .rxStopPeriodic => Laws.Encoding.rxStopPeriodic
  | .rxUpdate => Laws.Encoding.rxUpdate
  | .rxIsReceiving => Laws.Encoding.rxIsReceiving
  | .rxIsDetected => Laws.Encoding.rxIsDetected
  | .rxGetCode => Laws.Encoding.rxGetCode
  | .rxGetProtocol => Laws.Encoding.rxGetProtocol
  | .rxGetRawLen => Laws.Encoding.rxGetRawLen
  | .rxGetRaw j => Laws.Encoding.rxGetRaw j
  | .rxSetCallback h => Laws.Encoding.rxSetCallback h
  | .rxSetTimeout ms => Laws.Encoding.rxSetTimeout ms
  | .rxSetMinPw us => Laws.Encoding.rxSetMinPw us
  | .rxSetMaxPw us => Laws.Encoding.rxSetMaxPw us
  | .txNec c => Laws.Encoding.txNec c
  | .txRc5 c => Laws.Encoding.txRc5 c
  | .txSony c => Laws.Encoding.txSony c
  | .txRaw base len => Laws.Encoding.txRaw base len
  | .txUpdate => Laws.Encoding.txUpdate
  | .txIsTransmitting => Laws.Encoding.txIsTransmitting
  | .txIsComplete => Laws.Encoding.txIsComplete
  | .txSetCallback h => Laws.Encoding.txSetCallback h
  | .txSetCarrier f => Laws.Encoding.txSetCarrier f
  | .txSetPower p => Laws.Encoding.txSetPower p
  | .txSetRepeat n => Laws.Encoding.txSetRepeat n
  | .edge => Laws.Encoding.edge
  | .teardown => Laws.Encoding.teardown

/-- Settles O1, port by port: a command by the decoder on its fields, a strobe because it is raised. -/
theorem decodeInvertsEncode : Obligations.DecodeInvertsEncode := by
  intro i
  have h := encoding_statement i
  unfold Laws.Encoding.Statement at h
  cases he : encode i with
  | command w =>
    simp only [he] at h
    exact decodeCommand_eq_instr_iff.2 h
  | edgePort b | lifecycle b =>
    simp only [he] at h
    obtain ⟨rfl, rfl⟩ := h
    rfl

/-! Encoding what was decoded. -/

/-- The ARG field that holds the operands which a class assembles from `arg` (R105, R112). -/
def argOfOperands : OperandClass → Word32 → Word32
  | .none, _ => 0#32
  | .u16, arg => 0#16 ++ operandU16 arg
  | .u8, arg => 0#24 ++ operandU8 arg
  | .rawref, arg => operandLen arg ++ operandBase arg
  | .u32, arg | .handle, arg | .index, arg => arg

/-- The assembled operands leave out only bits that the class requires to be 0. -/
theorem argOfOperands_eq {cls : OperandClass} {arg : Word32} (h : arg &&& mustBeZero cls = 0#32) :
    argOfOperands cls arg = arg := by
  cases cls with
  | none => exact ((none_mask_iff arg).1 h).symm
  | u16 => exact extend_operandU16 h
  | u8 => exact extend_operandU8 h
  | rawref => exact append_operands arg
  | u32 | handle | index => rfl

/-- Row by row of the opcode map, the encoder writes the opcode and the assembled operands back. -/
theorem encode_of_instrOf {opc : BitVec 8} {arg : Word32} {cls : OperandClass} {i : Instr}
    (hi : instrOf opc arg = some i) (hc : opcodeClass opc = some cls) :
    encode i = commandWord opc (argOfOperands cls arg) := by
  have hopc : opc = BitVec.ofNat 8 opc.toNat := by simp
  unfold instrOf at hi
  split at hi <;> cases hi
  all_goals
    next h =>
      rw [h] at hopc
      subst hopc
      cases hc
      rfl

theorem encode_of_decodeCommand {c : Command} {i : Instr} (h : decodeCommand c = .instr i) :
    encode i = .command (wordOfCommand c) := by
  obtain ⟨hw, hi⟩ := decodeCommand_eq_instr_iff.1 h
  simp only [Command.wellFormed, Bool.and_eq_true] at hw
  obtain ⟨⟨ha, hr⟩, hz⟩ := hw
  obtain ⟨cls, hc⟩ := Option.isSome_iff_exists.1 ha
  have hrsv : c.rsv = 0#24 := by simpa [Command.reservedZero] using hr
  have harg : c.arg &&& mustBeZero cls = 0#32 := by simpa [Command.operandBitsZero, hc] using hz
  rw [encode_of_instrOf hi hc, argOfOperands_eq harg, commandWord, ← hrsv]

/-- Settles O2. -/
theorem encodeInvertsDecode : Obligations.EncodeInvertsDecode := by
  intro pw i h
  cases pw with
  | command w => rw [encode_of_decodeCommand h, wordOfCommand_commandOfWord]
  | edgePort b | lifecycle b =>
    simp only [decode] at h
    split at h <;> cases h
    next hb => rw [hb]; rfl

/-- Settles O3. -/
theorem sampleWordsDecode : Obligations.SampleWordsDecode := by
  unfold Obligations.SampleWordsDecode
  decide

/-! The illegal words (R108). -/

/-- The opcodes of a class (R106). -/
def opcodesOf : OperandClass → List Nat
  | .none => [0x10, 0x11, 0x13, 0x14, 0x15, 0x16, 0x17, 0x18, 0x19, 0x24, 0x25, 0x26]
  | .u32 => [0x1C, 0x1D, 0x1E, 0x20, 0x28]
  | .u16 => [0x21, 0x22]
  | .u8 => [0x29, 0x2A]
  | .handle => [0x12, 0x1B, 0x27]
  | .index => [0x1A]
  | .rawref => [0x23]

theorem opcodeClass_eq_some_iff (opc : BitVec 8) (cls : OperandClass) :
    opcodeClass opc = some cls ↔ opc.toNat ∈ opcodesOf cls := by
  cases cls <;> revert opc <;> decide

theorem opcodeClass_eq_none_iff (opc : BitVec 8) :
    opcodeClass opc = none ↔ opc.toNat < 0x10 ∨ opc.toNat = 0x1F ∨ 0x2A < opc.toNat := by
  revert opc
  decide

/-- The classes that require operand bits to be 0, and which bits (R105). -/
theorem operandBitsZero_eq_false_iff (c : Command) :
    c.operandBitsZero = false ↔
      (opcodeClass c.opc = some .none ∧ c.arg ≠ 0#32) ∨
      (opcodeClass c.opc = some .u16 ∧ c.arg.extractLsb' 16 16 ≠ 0#16) ∨
      (opcodeClass c.opc = some .u8 ∧ c.arg.extractLsb' 8 24 ≠ 0#24) := by
  unfold Command.operandBitsZero
  cases opcodeClass c.opc with
  | none => simp
  | some cls =>
    cases cls with
    | none => simp [none_mask_iff]
    | u16 => simp [u16_mask_iff]
    | u8 => simp [u8_mask_iff]
    | u32 | handle | index | rawref => simp [mustBeZero]

/-- The three ways in which a word is illegal (R107, R108). -/
theorem wellFormed_eq_false_iff (c : Command) :
    c.wellFormed = false ↔
      opcodeClass c.opc = none ∨ c.rsv ≠ 0#24 ∨ c.operandBitsZero = false := by
  simp only [Command.wellFormed, Bool.and_eq_false_iff, or_assoc]
  simp [Command.opcodeAssigned, Command.reservedZero]

/-- Bits of the ARG field as bits of the word (R100). -/
theorem extractLsb'_arg (w : Word64) {lo n : Nat} (h : lo + n ≤ 32) :
    (w.extractLsb' 32 32).extractLsb' lo n = w.extractLsb' (32 + lo) n := by
  ext i hi
  have hlo : lo + i < 32 := by omega
  simp [hlo, Nat.add_assoc]

theorem illegalWord_of_live {s : State} {b : Block} (hl : Live s b) :
    illegalWord s = .next (withSelf s (replied b 0#32 .illegal)) := by
  rw [illegalWord, onSelf_of_live hl, answer_eq]

/-- Settles O4. -/
theorem illegalWordsAndTheirEffect : Obligations.IllegalWordsAndTheirEffect := by
  intro w
  constructor
  · rw [show decode (.command w) = decodeCommand (commandOfWord w) from rfl,
      decodeCommand_eq_illegal_iff, wellFormed_eq_false_iff, operandBitsZero_eq_false_iff,
      opcodeClass_eq_none_iff, opcodeClass_eq_some_iff, opcodeClass_eq_some_iff,
      opcodeClass_eq_some_iff]
    simp only [commandOfWord, opcodesOf, extractLsb'_arg, Nat.reduceAdd, Nat.reduceLeDiff]
  · intro why s k b tUs tMs rest hd hin hb hlive
    have hl : Live (taken s (.cmd k w tUs tMs) rest) b := ⟨hb, hlive⟩
    calc step s = runInput (.cmd k w tUs tMs) { s with inputs := rest } := step_of_input hin
      _ = illegalWord (taken s (.cmd k w tUs tMs) rest) := by simp only [runInput, hd]; rfl
      _ = .next (withSelf (taken s (.cmd k w tUs tMs) rest) (replied b 0#32 .illegal)) :=
        illegalWord_of_live hl

end Sys2Proof
end

section
/-! SUPPORT. Responses (R101): the one that each command adds, and what the host reads by them in GetRawData
(R114). -/

namespace Sys2Proof.Machine

/-! The one response of a command (R101 to R103). -/

theorem sideOf_eq_neither_iff {i : Instr} : sideOf i = .neither ↔ i = .edge ∨ i = .teardown := by
  cases i <;> simp [sideOf]

@[simp] theorem timeoutStep_responses (b : Block) : (timeoutStep b).responses = b.responses := by
  rw [timeoutStep_eq]

@[simp] theorem errorStep_responses (b : Block) (tUs : Word64) :
    (errorStep b tUs).responses = b.responses := by
  rw [errorStep_eq]

theorem decodeStep_responses {b b' : Block} (h : decodeStep b = .ok b') :
    b'.responses = b.responses := by
  obtain ⟨xs, -, rfl⟩ := decodeStep_eq_ok h
  rfl

@[simp] theorem intervalStep_responses (b : Block) (d : Word32) (tUs : Word64) :
    (intervalStep b d tUs).responses = b.responses := by
  obtain ⟨-, -, h⟩ | ⟨-, -, h⟩ | ⟨-, -, h⟩ | ⟨-, -, h⟩ | ⟨-, -, -, h⟩ | ⟨-, -, -, h⟩ :=
    intervalStep_cases b d tUs <;> rw [h]

/-- The addressed instance of `s`, `b`, is replaced by one with one more response. -/
def OneMoreResponse (s : State) (b : Block) (t : State) : Prop :=
  ∃ c r, t.blocks = s.blocks.set s.port.block c ∧ c.responses = b.responses ++ [r]

theorem Ends.oneMoreResponse {s u t : State} {b c : Block} {res : Word32} {stat : Status}
    (e : Ends u c res stat t) (hu : u.blocks = s.blocks) (hp : u.port = s.port)
    (hc : c.responses = b.responses) : OneMoreResponse s b t :=
  ⟨replied c res stat, ⟨res, stat⟩, by rw [e, withSelf, hu, hp], by rw [replied, hc]⟩

/-- Every case in which a command can end is an end with a response, added to those there were. -/
theorem effect_oneMoreResponse {i : Instr} {s t : State} {b : Block} (e : Effect s b t i)
    (hi : i ≠ .teardown) : OneMoreResponse s b t := by
  cases i with
  | rxStart | rxStartPeriodic _ =>
    obtain ⟨-, e⟩ | ⟨-, -, e⟩ := e <;> exact e.oneMoreResponse rfl rfl rfl
  | rxStop | rxStopPeriodic =>
    exact Ends.oneMoreResponse e (unbindPin_blocks s b) (unbindPin_port s b) rfl
  | rxUpdate =>
    obtain ⟨-, e⟩ | ⟨-, -, b', hd, e⟩ | ⟨-, -, -, e⟩ | ⟨-, -, -, e⟩ | ⟨-, -, e⟩ | ⟨-, -, e⟩ := e
    · exact e.oneMoreResponse rfl rfl rfl
    · exact e.oneMoreResponse rfl rfl (decodeStep_responses hd)
    · exact e.oneMoreResponse rfl rfl (timeoutStep_responses b)
    · exact e.oneMoreResponse rfl rfl rfl
    · exact e.oneMoreResponse rfl rfl rfl
    · exact e.oneMoreResponse (unbindPin_blocks s b) (unbindPin_port s b) rfl
  | rxGetRaw _ =>
    obtain ⟨-, v, -, e⟩ | ⟨-, e⟩ := e <;> exact e.oneMoreResponse rfl rfl rfl
  | rxSetTimeout _ | txSetCarrier _ =>
    obtain ⟨-, -, e⟩ | ⟨-, e⟩ := e <;> exact e.oneMoreResponse rfl rfl rfl
  | rxSetCallback _ | rxSetMinPw _ | rxSetMaxPw _ | txSetCallback _ | txSetPower _
  | txSetRepeat _ => exact Ends.oneMoreResponse e rfl rfl rfl
  | rxIsReceiving | rxIsDetected | rxGetCode | rxGetProtocol | rxGetRawLen | txIsTransmitting
  | txIsComplete =>
    obtain ⟨res, e⟩ := e
    exact e.oneMoreResponse rfl rfl rfl
  | txNec _ | txRc5 _ | txSony _ =>
    obtain ⟨-, e⟩ | ⟨-, e⟩ := e <;> exact e.oneMoreResponse rfl rfl rfl
  | txRaw _ _ =>
    obtain ⟨-, e⟩ | ⟨-, -, e⟩ | ⟨-, -, -, -, e⟩ := e <;> exact e.oneMoreResponse rfl rfl rfl
  | txUpdate =>
    obtain ⟨-, e⟩ | ⟨-, e⟩ | ⟨-, -, e⟩ | ⟨-, -, -, e⟩ | ⟨-, d, n, -, e⟩ := e
    · exact e.oneMoreResponse rfl rfl rfl
    · exact e.oneMoreResponse rfl rfl rfl
    · exact e.oneMoreResponse rfl rfl (errorStep_responses ..)
    · exact e.oneMoreResponse rfl rfl rfl
    · exact e.oneMoreResponse rfl rfl (intervalStep_responses ..)
  | edge => exact e.elim
  | teardown => exact absurd rfl hi

/-- Any instance `b0` after instance `j`, which was `a`, has been replaced by `c`. -/
theorem block_after_set {bs : List Block} {j k : Nat} {a c b0 b' : Block} (ha : bs[j]? = some a)
    (hb : bs[k]? = some b0) (hb' : (bs.set j c)[k]? = some b') :
    (k = j ∧ b0 = a ∧ b' = c) ∨ (k ≠ j ∧ b' = b0) := by
  by_cases hk : j = k
  · subst hk
    rw [List.getElem?_set_self (List.getElem?_eq_some_iff.1 ha).1] at hb'
    exact .inl ⟨rfl, Option.some.inj (hb.symm.trans ha), (Option.some.inj hb').symm⟩
  · rw [List.getElem?_set_ne hk, hb] at hb'
    exact .inr ⟨Ne.symm hk, (Option.some.inj hb').symm⟩

/-- EDGE adds no response to any instance (R102). -/
theorem edge_keeps_responses {s t : State} {k : Nat} {b b' : Block} (h : execEdge s = .next t)
    (hb : s.blocks[k]? = some b) (hb' : t.blocks[k]? = some b') : b'.responses = b.responses := by
  obtain rfl | ⟨j, a, r, -, ha, -, -, rfl⟩ := execEdge_cases h
  · rw [Option.some.inj (hb.symm.trans hb')]
  · obtain ⟨-, rfl, rfl⟩ | ⟨-, rfl⟩ := block_after_set ha hb hb' <;> rfl

/-- TEARDOWN adds no response to any instance (R103). -/
theorem teardown_keeps_responses {s t : State} {k : Nat} {a b b' : Block} (hl : Live s a)
    (e : Effect s a t .teardown) (hb : s.blocks[k]? = some b) (hb' : t.blocks[k]? = some b') :
    b'.responses = b.responses := by
  obtain ⟨-, rfl, rfl⟩ | ⟨-, rfl⟩ :=
    block_after (unbindPin_blocks s a) (unbindPin_port s a) e hl hb hb' <;> rfl

/-- Settles O50. -/
theorem oneResponsePerCommand : Obligations.OneResponsePerCommand := by
  intro i s t k b b' h hb hb'
  by_cases hi : sideOf i = .neither
  · refine ⟨fun hn => absurd hi hn, fun _ => ?_⟩
    obtain rfl | rfl := sideOf_eq_neither_iff.1 hi
    · exact edge_keeps_responses h hb hb'
    · obtain ⟨a, hl, e⟩ := exec_effect h nofun
      exact teardown_keeps_responses hl e hb hb'
  · obtain ⟨hedge, hteardown⟩ : i ≠ .edge ∧ i ≠ .teardown := by
      rwa [sideOf_eq_neither_iff, not_or] at hi
    obtain ⟨a, hl, e⟩ := exec_effect h hedge
    obtain ⟨c, r, hblocks, hc⟩ := effect_oneMoreResponse e hteardown
    obtain ⟨hk, rfl, rfl⟩ | ⟨hk, rfl⟩ := block_after_set hl.1 hb (hblocks ▸ hb')
    · exact ⟨fun _ _ => ⟨r, hc⟩, fun hn => absurd hk (hn.resolve_left hi)⟩
    · exact ⟨fun _ hk' => absurd hk' hk, fun _ => rfl⟩

/-! GetRawData (R114, R180, R181). -/

/-- The state in which a command issued to instance `k` runs. -/
def addressing (s : State) (k : Nat) (tUs tMs : Word64) : State :=
  { s with port := { s.port with block := k, tUs := tUs, tMs := tMs } }

/-- The host gets the `RES` with which a command it issues is answered. -/
theorem issue_of_answer {k : Nat} {i : Instr} {tUs tMs : Word64} {s : State} {b c : Block}
    {res : Word32} {stat : Status} (hb : s.blocks[k]? = some b)
    (h : exec i (addressing s k tUs tMs) = answer (addressing s k tUs tMs) c res stat) :
    ∃ t, issue k i tUs tMs s = .next (t, res) ∧ t.blocks[k]? = some (replied c res stat) := by
  have hk : (withSelf (addressing s k tUs tMs) (replied c res stat)).blocks[k]? =
      some (replied c res stat) := List.getElem?_set_self (List.getElem?_eq_some_iff.1 hb).1
  refine ⟨withSelf (addressing s k tUs tMs) (replied c res stat), ?_, hk⟩
  rw [issue, show exec i { s with port := _ } = _ from h, answer_eq]
  simp only [andThen, hk]
  simp [replied]

theorem issue_rxGetRawLen {k : Nat} {tUs tMs : Word64} {s : State} {b : Block}
    (hb : s.blocks[k]? = some b) (hd : b.dead = false) :
    ∃ t, issue k .rxGetRawLen tUs tMs s = .next (t, b.rx.rawLen.setWidth 32) ∧
      t.blocks[k]? = some (replied b (b.rx.rawLen.setWidth 32) .ok) :=
  issue_of_answer hb (onSelf_of_live (s := addressing s k tUs tMs) ⟨hb, hd⟩ _)

theorem issue_rxGetRaw {k j : Nat} {tUs tMs : Word64} {s : State} {b : Block} {v : Word32}
    (hb : s.blocks[k]? = some b) (hd : b.dead = false) (hj : j < b.rx.rawLen.toNat)
    (hv : readCell? b.rx.rawBuf j = some v) :
    ∃ t, issue k (.rxGetRaw (BitVec.ofNat 32 j)) tUs tMs s = .next (t, v) ∧
      t.blocks[k]? = some (replied b v .ok) := by
  have hidx : (BitVec.ofNat 32 j).toNat = j := by
    have := b.rx.rawLen.isLt
    rw [BitVec.toNat_ofNat, Nat.mod_eq_of_lt (by omega)]
  refine issue_of_answer hb ?_
  rw [exec, execRxGetRaw, onSelf_of_live (s := addressing s k tUs tMs) ⟨hb, hd⟩]
  simp only [hidx, hj, if_true, hv]

/-- The commands of the loop read the block of entries `j .. j+n-1`; each leaves the receiver as it is. -/
theorem getRawFrom_of_readCells? {k n j : Nat} {tUs tMs : Word64} {s : State} {b : Block}
    {xs : List Word32} (hb : s.blocks[k]? = some b) (hd : b.dead = false)
    (hj : j + n ≤ b.rx.rawLen.toNat) (hx : readCells? b.rx.rawBuf j n = some xs) :
    ∃ t, getRawFrom k tUs tMs j n s = .next (t, xs) := by
  induction n generalizing j s b xs with
  | zero => cases hx; exact ⟨s, rfl⟩
  | succ n ih =>
    rw [readCells?] at hx
    split at hx
    · next v vs hv hvs =>
      cases hx
      obtain ⟨u, hu, hub⟩ := issue_rxGetRaw (tUs := tUs) (tMs := tMs) hb hd (by omega) hv
      obtain ⟨t, ht⟩ := ih (b := replied b v .ok) hub hd (by simp only [replied]; omega) hvs
      exact ⟨t, by simp only [getRawFrom, hu, andThen, ht]⟩
    · cases hx

/-- Settles O59. -/
theorem getRawDataReadsFrozenCopy : Obligations.GetRawDataReadsFrozenCopy := by
  intro s k b tUs tMs hb hd hw
  obtain ⟨xs, hx⟩ := readCells?_of_written (base := 0) fun j hj => by
    simpa only [Nat.zero_add] using hw j hj
  obtain ⟨hlen, hread⟩ := readCells?_eq_some.1 hx
  obtain ⟨u, hu, hub⟩ := issue_rxGetRawLen (tUs := tUs) (tMs := tMs) hb hd
  obtain ⟨t, ht⟩ := getRawFrom_of_readCells? (n := b.rx.rawLen.toNat) (tUs := tUs) (tMs := tMs)
    hub hd (Nat.zero_add _).le hx
  have hn : (b.rx.rawLen.setWidth 32).toNat = b.rx.rawLen.toNat :=
    BitVec.toNat_setWidth_of_le (by decide)
  exact ⟨t, xs, by simp only [getRawData, hu, andThen, hn, ht], hlen,
    by simpa only [Nat.zero_add] using hread⟩

end Sys2Proof.Machine
end

section
/-! SUPPORT. The statements of 40_capture.md: the capture's bounds along every run, and the EDGE input. -/

namespace Sys2Proof.Machine

/-! The bounds of the buffers along a run (R61, R160). -/

/-- Every state that a run reaches from a state with the invariants has them. -/
theorem run_keeps_inv {n : Nat} {s t : State} (hI : Inv s) (h : Host.Core.run core n s = .next t) :
    Inv t := by
  induction n generalizing s with
  | zero =>
    cases h
    exact hI
  | succ n ih =>
    cases hs : step s with
    | next s' =>
      rw [run_succ_of_next hs] at h
      exact ih (stepKeepsInvariants s s' hI hs) h
    | fault f =>
      simp only [Host.Core.run, show core.step s = .fault f from hs] at h
      cases h
    | refused f =>
      simp only [Host.Core.run, show core.step s = .refused f from hs] at h
      cases h

/-- Settles O16: the bounds are R61 items 1 and 4, which hold at reset and along every run. -/
theorem captureNeverExceedsCapacity : Obligations.CaptureNeverExceedsCapacity := by
  intro p ws script n t h b hb
  obtain ⟨k, hk⟩ := List.mem_iff_getElem?.1 hb
  have hrx := ((run_keeps_inv (inv_deliver (inv_boot p ws) _ script) h).blocks k b hk).rx
  exact ⟨hrx.capLen_le, hrx.rawLen_cases⟩

/-! What an edge does to the receiver that its pin is bound to (R150, R153, R155). -/

theorem edgeStep_of_disabled {r : Receiver} (tUs : Word64) (he : r.capEn = false) :
    edgeStep r tUs = .ok r := by
  simp [edgeStep, he]

theorem edgeStep_of_first {r : Receiver} (tUs : Word64) (he : r.capEn = true)
    (hl : r.haveLast = false) :
    edgeStep r tUs = .ok { r with lastEdgeUs := tUs, haveLast := true } := by
  simp [edgeStep, he, hl]

theorem edgeStep_of_outside {r : Receiver} {tUs : Word64} (he : r.capEn = true)
    (hl : r.haveLast = true)
    (hd : ¬(r.pwMin.toNat ≤ (delta tUs r.lastEdgeUs).toNat ∧
      (delta tUs r.lastEdgeUs).toNat ≤ r.pwMax.toNat)) :
    edgeStep r tUs = .ok { r with lastEdgeUs := tUs } := by
  simp only [edgeStep, he, hl, hd, Bool.not_true, Bool.false_eq_true, if_false]

theorem edgeStep_of_inside {r : Receiver} {tUs : Word64} (he : r.capEn = true)
    (hl : r.haveLast = true)
    (hd : r.pwMin.toNat ≤ (delta tUs r.lastEdgeUs).toNat ∧
      (delta tUs r.lastEdgeUs).toNat ≤ r.pwMax.toNat) :
    edgeStep r tUs =
      appendInterval { r with lastEdgeUs := tUs } ((delta tUs r.lastEdgeUs).setWidth 32) := by
  simp only [edgeStep, he, hl, hd, and_self, Bool.not_true, Bool.false_eq_true, if_true, if_false]

/-- R154 for an enabled capture with room: the append that writes entry 126 ends it. -/
theorem appendInterval_of_enabled {r : Receiver} (d : Word32) (he : r.capEn = true)
    (h : r.capLen.toNat < 127) :
    appendInterval r d = .ok { r with
      capBuf := writeCell r.capBuf r.capLen.toNat d
      capLen := BitVec.ofNat 8 (r.capLen.toNat + 1)
      capEn := decide (r.capLen.toNat ≠ 126)
      capReady := if r.capLen.toNat = 126 then true else r.capReady } := by
  have hnext : r.capLen + 1#8 = BitVec.ofNat 8 (r.capLen.toNat + 1) := by simp [BitVec.ofNat_add]
  have hfull : (BitVec.ofNat 8 (r.capLen.toNat + 1)).toNat = 127 ↔ r.capLen.toNat = 126 := by
    rw [BitVec.toNat_ofNat]
    omega
  rw [appendInterval_of_room d (by omega), hnext]
  simp only [hfull, he]
  by_cases hf : r.capLen.toNat = 126 <;> simp [hf]

theorem execEdge_of_unbound {s : State} (h : readCell? s.pinOwner s.port.pin = none) :
    execEdge s = .next s := by
  simp only [execEdge, h]

theorem execEdge_of_bound {s : State} {k : Nat} {b : Block} {r : Receiver}
    (hk : readCell? s.pinOwner s.port.pin = some k) (hb : s.blocks[k]? = some b)
    (hd : b.dead = false) (hr : edgeStep b.rx s.port.tUs = .ok r) :
    execEdge s = .next (putBlock s k { b with rx := r }) := by
  simp only [execEdge, hk, hb, hd, hr, Bool.false_eq_true, if_false]

/-- Settles O19. What the edge does to the receiver is `edgeStep_of_disabled`, `edgeStep_of_first`,
`edgeStep_of_outside` or `edgeStep_of_inside`; `execEdge_of_bound` carries it to the instance. -/
theorem edgeInput : Obligations.EdgeInput := by
  refine ⟨fun s h => execEdge_of_unbound h, fun s k b hk hb hd hroom => ?_⟩
  have hrun {r : Receiver} := execEdge_of_bound (r := r) hk hb hd
  refine ⟨fun he => ?_, fun he hl => hrun (edgeStep_of_first _ he hl),
    fun he hl hout => hrun (edgeStep_of_outside he hl hout), fun he hl hlo hhi => ?_⟩
  · exact (hrun (edgeStep_of_disabled _ he)).trans (congrArg _ (putBlock_self hb))
  · have hin := edgeStep_of_inside he hl ⟨hlo, hhi⟩
    have happend := appendInterval_of_enabled (r := { b.rx with lastEdgeUs := s.port.tUs })
      ((delta s.port.tUs b.rx.lastEdgeUs).setWidth 32) he (hroom he)
    refine ⟨_, hrun (hin.trans happend), ?_, fun j hj => readCell?_writeCell_of_ne _ _ hj⟩
    have hfit := Nat.lt_of_le_of_lt hhi b.rx.pwMax.isLt
    rw [readCell?_writeCell_self, Option.map_some, BitVec.toNat_setWidth, delta, Nat.mod_eq_of_lt hfit]

end Sys2Proof.Machine
end

section
/-! SUPPORT. The statements of 41_receiver.md: what each receiver command makes of a live instance, and the
receiver's transition table. -/

namespace Sys2Proof.Machine

/-! The starts and the stops (R171 to R175). -/

/-- Both starts test first what refuses them (R172). -/
theorem startTest_of_refused {α : Type} {s : State} {b : Block}
    (h : b.rx.rxState = .receiving ∨ ¬PinFreeOrOwn s b) (busy start : α) :
    (if b.rx.rxState = .receiving then busy else if heldByOther s b then busy else start) = busy := by
  rw [← heldByOther_iff] at h
  obtain hr | hh := h
  · rw [if_pos hr]
  · rw [if_pos hh, ite_self]

theorem startTest_of_accepted {α : Type} {s : State} {b : Block} (hr : b.rx.rxState ≠ .receiving)
    (hf : PinFreeOrOwn s b) (busy start : α) :
    (if b.rx.rxState = .receiving then busy else if heldByOther s b then busy else start) = start := by
  rw [if_neg hr, if_neg (by rwa [heldByOther_iff, not_not])]

/-- Settles O20. An accepted start answers in `bindPin s b`, which differs from `s` only in the table. -/
theorem rxStarts : Obligations.RxStarts := by
  intro s b h hl
  have hstart := onSelf_of_live hl
  refine ⟨fun hbusy => ⟨?_, ?_⟩, fun hr hf => ⟨_, rebound_bindPin s b, ?_, ?_⟩⟩
  · exact (hstart _).trans (startTest_of_refused hbusy _ _)
  · exact (hstart _).trans (startTest_of_refused hbusy _ _)
  · exact (hstart _).trans (startTest_of_accepted hr hf _ _)
  · exact (hstart _).trans (startTest_of_accepted hr hf _ _)

/-- An answer with the binding released changes of the shared state only the table (R171). -/
theorem answer_unbindPin (s : State) (b c : Block) (res : Word32) (stat : Status) :
    answer (unbindPin s b) c res stat =
      .next (withSelf { s with pinOwner := (unbindPin s b).pinOwner } (replied c res stat)) := by
  rw [answer_eq, ← unbindPin_eq]

/-- Settles O21. -/
theorem rxStops : Obligations.RxStops := by
  intro s b hl
  refine ⟨_, released_unbindPin s b, ?_, ?_⟩
  · exact (onSelf_of_live hl _).trans (answer_unbindPin ..)
  · exact (onSelf_of_live hl _).trans (answer_unbindPin ..)

/-! The queries and the setters (R176 to R182, R188 to R190). -/

theorem boolWord_decide (p : Prop) [Decidable p] :
    boolWord (decide p) = if p then 1#32 else 0#32 := by
  simp only [boolWord, decide_eq_true_eq]

/-- The zero-extended code of a protocol, as R179 lists it. -/
theorem protocolCode_setWidth (p : Protocol) : (protocolCode p).setWidth 32 = match p with
    | .nec => 0#32 | .sony => 1#32 | .rc5 => 2#32 | .raw => 3#32 | .unknown => 4#32 := by
  cases p <;> rfl

/-- Settles O22. A query answers in the state it found, and a setter in its one register's new value;
`hres` carries the model's form of a result to the spec's. -/
theorem rxQueriesAndSetters : Obligations.RxQueriesAndSetters := by
  intro s b v hl
  have hrun := onSelf_of_live hl
  have hres {x y : Word32} (h : x = y) : answer s b x .ok = .next (withSelf s (replied b y .ok)) := by
    rw [answer_eq, h]
  refine ⟨?_, ?_, hrun _, ?_, ?_, hrun _, hrun _, hrun _⟩
  · exact (hrun _).trans (hres (boolWord_decide _))
  · exact (hrun _).trans (hres (boolWord_decide _))
  · exact (hrun _).trans (hres (protocolCode_setWidth _))
  · exact (hrun _).trans (hres (BitVec.ofNat_toNat ..).symm)

/-- Settles O23. -/
theorem rxGetRaw : Obligations.RxGetRaw := by
  intro s b i hl
  have hrun : exec (.rxGetRaw i) s = _ := onSelf_of_live hl _
  refine ⟨fun v hi hv => ?_, fun hi hv => ?_, fun hi => ?_⟩
  · simp only [hrun, hi, if_true, hv, answer_eq]
  · simp only [hrun, hi, if_true, hv]
  · rw [hrun, if_neg (Nat.not_lt.2 hi), answer_eq]

/-- Settles O24. -/
theorem rxSetTimeout : Obligations.RxSetTimeout := by
  intro s b ms hl
  refine ⟨fun hin => ?_, fun hout => ?_⟩
  · exact (onSelf_of_live hl _).trans (if_pos hin)
  · have hout : ¬(100 ≤ ms.toNat ∧ ms.toNat ≤ 10000) := by omega
    exact (onSelf_of_live hl _).trans (if_neg hout)

/-! RX_UPDATE in each state (R183 to R187). -/

section
variable {s : State} {b : Block} (hl : Live s b)
include hl

theorem execRxUpdate_of_idle (hr : b.rx.rxState = .idle) :
    execRxUpdate s = .next (withSelf s (replied b 0#32 .ok)) := by
  simp only [execRxUpdate, onSelf_of_live hl, hr, answer_eq]

theorem execRxUpdate_of_decoding (hr : b.rx.rxState = .decoding) :
    execRxUpdate s = .fault .decodingHeld := by
  simp only [execRxUpdate, onSelf_of_live hl, hr]

theorem execRxUpdate_of_ready {b' : Block} (hr : b.rx.rxState = .receiving)
    (hc : b.rx.capReady = true) (hd : decodeStep b = .ok b') :
    execRxUpdate s = .next (withSelf s (replied b' 0#32 .ok)) := by
  simp only [execRxUpdate, onSelf_of_live hl, hr, hc, hd, if_true, answer_eq]

/-- Without a ready capture what decides is whether the timeout has been exceeded (R183). -/
theorem execRxUpdate_of_not_ready (hr : b.rx.rxState = .receiving) (hc : b.rx.capReady = false) :
    execRxUpdate s = .next (withSelf s
      (replied (if timedOut b.rx s.port.tMs then timeoutStep b else b) 0#32 .ok)) := by
  simp only [execRxUpdate, onSelf_of_live hl, hr, hc, Bool.false_eq_true, if_false, answer_eq]
  split <;> rfl

/-- SignalDetected and Timeout are left by the exit step (R186). -/
theorem execRxUpdate_of_result (hr : b.rx.rxState = .signalDetected ∨ b.rx.rxState = .timeout) :
    execRxUpdate s = answer (exitStep s b).1 (exitStep s b).2 0#32 .ok := by
  obtain hr | hr := hr <;> simp only [execRxUpdate, onSelf_of_live hl, hr]

end

/-- Settles O25. The entries that the live buffer reads as are the block the snapshot takes. -/
theorem rxUpdateDecodesReadyCapture : Obligations.RxUpdateDecodesReadyCapture := by
  intro s b xs hl hr hc hlen hread
  have hx : readCells? b.rx.capBuf 0 b.rx.capLen.toNat = some xs :=
    readCells?_eq_some.2 ⟨hlen, by simpa only [Nat.zero_add] using hread⟩
  obtain ⟨b', hd⟩ := decodeStep_of_written hx
  obtain ⟨ys, hy, rfl⟩ := decodeStep_eq_ok hd
  obtain rfl : ys = xs := Option.some.inj (hy.symm.trans hx)
  refine ⟨_, execRxUpdate_of_ready hl hr hc hd, fun j => ?_⟩
  simp only [readCell?_writeCells, hlen, Nat.zero_le, true_and, Nat.zero_add, Nat.sub_zero]

/-- Settles O26. -/
theorem rxUpdateTimesOut : Obligations.RxUpdateTimesOut := by
  intro s b hl hr hc
  have hrun : exec .rxUpdate s = _ := execRxUpdate_of_not_ready hl hr hc
  refine ⟨fun hlate => ?_, fun hearly => ?_⟩
  · rw [hrun, if_pos ((timedOut_iff ..).2 hlate), timeoutStep_eq]
  · rw [hrun, if_neg (mt (timedOut_iff ..).1 (Nat.not_lt.2 hearly))]

/-- Settles O27. -/
theorem rxUpdateOutsideReceiving : Obligations.RxUpdateOutsideReceiving := by
  intro s b hl
  refine ⟨execRxUpdate_of_idle hl, execRxUpdate_of_decoding hl, fun hr hp => ?_, fun hr hp => ?_⟩
  · have hrun := execRxUpdate_of_result hl hr
    rw [exitStep_of_periodic s hp] at hrun
    exact hrun
  · have hrun := execRxUpdate_of_result hl hr
    rw [exitStep_of_single s hp] at hrun
    exact ⟨_, released_unbindPin s b, hrun.trans (answer_unbindPin ..)⟩

/-! The transition table (R170). -/

/-- The rows of RX_UPDATE. In Decoding it faults (R187), so that the row is never taken. -/
def updatedRxState (r : Receiver) (tMs : Word64) : RxState :=
  match r.rxState with
  | .idle => .idle
  | .receiving =>
    if r.capReady then .signalDetected else if timedOut r tMs then .timeout else .receiving
  | .signalDetected | .timeout => if r.periodic then .receiving else .idle
  | .decoding => .decoding

/-- The table as a function of the instruction: a start that is not refused enters Receiving (while
Receiving it is refused, and stays there), a stop Idle. -/
def tableRxState (s : State) (b : Block) : Instr → RxState
  | .rxStart | .rxStartPeriodic _ => if heldByOther s b then b.rx.rxState else .receiving
  | .rxStop | .rxStopPeriodic => .idle
  | .rxUpdate => updatedRxState b.rx s.port.tMs
  | _ => b.rx.rxState

theorem tableRxState_start (s : State) (b : Block) : tableRxState s b .rxStart =
    if heldByOther s b then b.rx.rxState else .receiving := rfl

theorem tableRxState_rxUpdate (s : State) (b : Block) :
    tableRxState s b .rxUpdate = updatedRxState b.rx s.port.tMs := rfl

theorem tableRxState_start_of_refused {s : State} {b : Block}
    (h : b.rx.rxState = .receiving ∨ ¬PinFreeOrOwn s b) :
    tableRxState s b .rxStart = b.rx.rxState := by
  rw [← heldByOther_iff] at h
  rw [tableRxState_start]
  obtain hr | hh := h
  · rw [hr, ite_self]
  · rw [if_pos hh]

theorem tableRxState_start_of_accepted {s : State} {b : Block} (hf : PinFreeOrOwn s b) :
    tableRxState s b .rxStart = .receiving :=
  if_neg (by rwa [heldByOther_iff, not_not])

theorem updatedRxState_eq_timeout_iff (r : Receiver) (tMs : Word64) :
    updatedRxState r tMs = .timeout ↔
      r.rxState = .receiving ∧ timedOut r tMs = true ∧ r.capReady = false := by
  unfold updatedRxState
  cases hr : r.rxState with
  | receiving => cases r.capReady <;> cases timedOut r tMs <;> simp
  | signalDetected | timeout => cases r.periodic <;> simp
  | idle | decoding => simp

/-- The addressed instance after an end is the one it ended in, with its response. -/
theorem Ends.rxState {s u t : State} {b b' c : Block} {res : Word32} {stat : Status} {st : RxState}
    (e : Ends u c res stat t) (hl : Live s b) (hb' : t.blocks[s.port.block]? = some b')
    (hu : u.blocks = s.blocks) (hp : u.port = s.port) (hc : c.rx.rxState = st) :
    b'.rx.rxState = st := by
  obtain ⟨-, -, rfl⟩ | ⟨hne, -⟩ := block_after hu hp e hl hl.1 hb'
  · exact hc
  · exact absurd rfl hne

section
variable {s t : State} {b b' : Block} (hl : Live s b)
  (hb' : t.blocks[s.port.block]? = some b')
include hl hb'

theorem rxUpdate_rxState (e : Effect s b t .rxUpdate) :
    b'.rx.rxState = updatedRxState b.rx s.port.tMs := by
  unfold updatedRxState
  obtain ⟨hr, e⟩ | ⟨hr, hc, c, hd, e⟩ | ⟨hr, hc, ht, e⟩ | ⟨hr, hc, ht, e⟩ | ⟨hr, hp, e⟩ |
    ⟨hr, hp, e⟩ := e
  · exact e.rxState hl hb' rfl rfl (by simp [hr])
  · obtain ⟨xs, -, rfl⟩ := decodeStep_eq_ok hd
    exact e.rxState hl hb' rfl rfl (by simp [hr, hc])
  · exact e.rxState hl hb' rfl rfl (by simp [timeoutStep_eq, hr, hc, ht])
  · exact e.rxState hl hb' rfl rfl (by simp [hr, hc, ht])
  · exact e.rxState hl hb' rfl rfl (by obtain hr | hr := hr <;> simp [hr, hp])
  · exact e.rxState hl hb' (unbindPin_blocks s b) (unbindPin_port s b)
      (by obtain hr | hr := hr <;> simp [hr, hp])

/-- A command of the transmitter changes no receiver state. -/
theorem transmitter_keeps_rxState {i : Instr} (hi : sideOf i = .transmitter) (e : Effect s b t i) :
    b'.rx.rxState = b.rx.rxState := by
  cases i with
  | txNec _ | txRc5 _ | txSony _ =>
    obtain ⟨-, e⟩ | ⟨-, e⟩ := e <;> exact e.rxState hl hb' rfl rfl rfl
  | txRaw _ _ =>
    obtain ⟨-, e⟩ | ⟨-, -, e⟩ | ⟨-, -, -, -, e⟩ := e <;> exact e.rxState hl hb' rfl rfl rfl
  | txUpdate =>
    obtain ⟨-, e⟩ | ⟨-, e⟩ | ⟨-, -, e⟩ | ⟨-, -, -, e⟩ | ⟨-, d, n, -, e⟩ := e
    · exact e.rxState hl hb' rfl rfl rfl
    · exact e.rxState hl hb' rfl rfl rfl
    · exact e.rxState hl hb' rfl rfl (by rw [errorStep_eq])
    · exact e.rxState hl hb' rfl rfl rfl
    · exact e.rxState hl hb' rfl rfl (by rw [intervalStep_rx])
  | txIsTransmitting | txIsComplete =>
    obtain ⟨res, e⟩ := e
    exact e.rxState hl hb' rfl rfl rfl
  | txSetCarrier _ =>
    obtain ⟨-, -, e⟩ | ⟨-, e⟩ := e <;> exact e.rxState hl hb' rfl rfl rfl
  | txSetCallback _ | txSetPower _ | txSetRepeat _ => exact Ends.rxState e hl hb' rfl rfl rfl
  | _ => cases hi

/-- Every case in which an instruction can end is a row of the table. -/
theorem effect_rxState {i : Instr} (e : Effect s b t i) : b'.rx.rxState = tableRxState s b i := by
  cases i with
  | rxStart | rxStartPeriodic _ =>
    obtain ⟨hbusy, e⟩ | ⟨-, hf, e⟩ := e
    · exact e.rxState hl hb' rfl rfl (tableRxState_start_of_refused hbusy).symm
    · exact e.rxState hl hb' rfl rfl (tableRxState_start_of_accepted hf).symm
  | rxStop | rxStopPeriodic =>
    exact Ends.rxState e hl hb' (unbindPin_blocks s b) (unbindPin_port s b) rfl
  | rxUpdate => exact rxUpdate_rxState hl hb' e
  | rxIsReceiving | rxIsDetected | rxGetCode | rxGetProtocol | rxGetRawLen =>
    obtain ⟨res, e⟩ := e
    exact e.rxState hl hb' rfl rfl rfl
  | rxGetRaw _ =>
    obtain ⟨-, v, -, e⟩ | ⟨-, e⟩ := e <;> exact e.rxState hl hb' rfl rfl rfl
  | rxSetTimeout _ =>
    obtain ⟨-, -, e⟩ | ⟨-, e⟩ := e <;> exact e.rxState hl hb' rfl rfl rfl
  | rxSetCallback _ | rxSetMinPw _ | rxSetMaxPw _ => exact Ends.rxState e hl hb' rfl rfl rfl
  | txNec _ | txRc5 _ | txSony _ | txRaw _ _ | txUpdate | txIsTransmitting | txIsComplete
  | txSetCallback _ | txSetCarrier _ | txSetPower _ | txSetRepeat _ =>
    exact transmitter_keeps_rxState hl hb' rfl e
  | edge => exact e.elim
  | teardown =>
    obtain ⟨-, -, rfl⟩ | ⟨hne, -⟩ :=
      block_after (unbindPin_blocks s b) (unbindPin_port s b) e hl hl.1 hb'
    · rfl
    · exact absurd rfl hne

/-- An edge moves no receiver's state, neither that of the instance its pin is bound to nor another's. -/
theorem edge_keeps_rxState (h : execEdge s = .next t) : b'.rx.rxState = b.rx.rxState := by
  obtain rfl | ⟨k, a, r, -, ha, -, he, rfl⟩ := execEdge_cases h
  · rw [hl.unique hb']
  · obtain ⟨-, rfl, rfl⟩ | ⟨-, rfl⟩ := block_after_set ha hl.1 hb'
    · exact (edgeStep_frm he).1
    · rfl

theorem exec_rxState {i : Instr} (h : exec i s = .next t) :
    b'.rx.rxState = tableRxState s b i := by
  by_cases hi : i = .edge
  · subst hi
    exact edge_keeps_rxState hl hb' h
  · obtain ⟨a, ha, e⟩ := exec_effect h hi
    obtain rfl := hl.unique ha.1
    exact effect_rxState hl hb' e

end

/-- Settles O28: Timeout stands in one row of RX_UPDATE. -/
theorem timeoutFiresIff : Obligations.TimeoutFiresIff := by
  intro s t b b' hl h hb'
  rw [exec_rxState hl hb' h, tableRxState_rxUpdate, updatedRxState_eq_timeout_iff, timedOut_iff]

/-- Settles O29: each clause reads its rows of `tableRxState`. -/
theorem receiverTransitions : Obligations.ReceiverTransitions := by
  intro i s t b b' hl h hb'
  have htable := exec_rxState hl hb' h
  refine ⟨fun hi => ?_, fun hi => ?_, fun hi hr => ?_, fun hi hr => ?_, fun hi hr => ?_,
    fun h1 h2 h3 h4 h5 => ?_⟩
  · have hstart : b'.rx.rxState = tableRxState s b .rxStart := by
      obtain rfl | ⟨v, rfl⟩ := hi <;> exact htable
    exact ⟨fun _ hf => hstart.trans (tableRxState_start_of_accepted hf),
      fun hbusy => hstart.trans (tableRxState_start_of_refused hbusy)⟩
  · obtain rfl | rfl := hi <;> exact htable
  · subst hi
    simp only [htable, tableRxState_rxUpdate, updatedRxState, hr]
  · subst hi
    simp only [htable, tableRxState_rxUpdate, updatedRxState, hr, timedOut_iff]
  · subst hi
    obtain hr | hr := hr <;> simp only [htable, tableRxState_rxUpdate, updatedRxState, hr]
  · rw [htable]
    cases i with
    | rxStart => exact absurd rfl h1
    | rxStartPeriodic v => exact absurd rfl (h2 v)
    | rxStop => exact absurd rfl h3
    | rxStopPeriodic => exact absurd rfl h4
    | rxUpdate => exact absurd rfl h5
    | _ => rfl

end Sys2Proof.Machine
end

section
/-! SUPPORT. The statements of 42_decoder.md: exactly when each matcher answers, and the round trips. A
matcher that answers has read every bit position of its frame, so each matcher is characterised by what
its positions hold; everything else follows from the three characterisations. -/

namespace Sys2Proof.Machine

/-! Intervals and words. -/

/-- An interval lies in at most one of two windows that do not meet (R202). -/
theorem InWindow.not_of_gap {s : List Word32} {i lo hi lo' hi' : Nat} (h : InWindow s i lo hi)
    (hgap : hi < lo' ∨ hi' < lo) : ¬InWindow s i lo' hi' := by
  obtain ⟨d, hd, hlo, hhi⟩ := h
  rw [inWindow_of_getElem? hd]
  omega

theorem inWindow_congr {s s' : List Word32} {i lo hi : Nat} (h : s[i]? = s'[i]?) :
    InWindow s i lo hi ↔ InWindow s' i lo hi := by
  simp only [InWindow, h]

/-- The intervals before index `n` are read whatever follows them. -/
theorem getElem?_take_append {s : List Word32} {i n : Nat} (rest : List Word32) (hn : n ≤ s.length)
    (hi : i < n) : (s.take n ++ rest)[i]? = s[i]? := by
  rw [List.getElem?_append_left (by rw [List.length_take]; omega), List.getElem?_take_of_lt hi]

theorem le_length_take_append {s : List Word32} {m n : Nat} (rest : List Word32) (hm : m ≤ n)
    (hn : n ≤ s.length) : m ≤ (s.take n ++ rest).length := by
  rw [List.length_append, List.length_take]
  omega

/-- A word is below `2 ^ n` when its bits from `n` on are 0. -/
theorem toNat_lt_two_pow_iff {w n : Nat} {v : BitVec w} :
    v.toNat < 2 ^ n ↔ ∀ i, n ≤ i → v.getLsbD i = false :=
  ⟨fun h _ hi => Nat.testBit_lt_two_pow (h.trans_le (Nat.pow_le_pow_right (by decide) hi)),
    fun h => Nat.lt_pow_two_of_testBit _ h⟩

/-- Shifting in a bit at the low end, as the NEC and the RC5 matcher do (R204, R208). -/
theorem getLsbD_shiftIn (u : Word32) (b : Bool) (i : Nat) :
    ((u <<< 1) ||| (if b then 1#32 else 0#32)).getLsbD i =
      if i = 0 then b else decide (i < 32) && u.getLsbD (i - 1) := by
  cases i with
  | zero => cases b <;> simp
  | succ i => cases b <;> simp

/-- A word is its upper 31 bits with its lowest bit shifted in. -/
theorem eq_shiftIn (v : Word32) :
    v = ((v >>> 1) <<< 1) ||| (if v.getLsbD 0 then 1#32 else 0#32) := by
  refine BitVec.eq_of_getLsbD_eq fun i hi => ?_
  rw [getLsbD_shiftIn]
  cases i with
  | zero => simp
  | succ i => simp [hi, Nat.add_comm 1 i]

/-- Writing a bit into its own place, as the Sony matcher does (R205). -/
theorem getLsbD_or_bit (u : Word16) (b : Bool) {k : Nat} (hk : k < 16) (i : Nat) :
    (u ||| ((if b then 1#16 else 0#16) <<< k)).getLsbD i = (u.getLsbD i || (b && decide (i = k))) := by
  cases b with
  | false => simp
  | true =>
    have hone : ((1#16) <<< k).getLsbD i = decide (i = k) := by
      rw [BitVec.getLsbD_shiftLeft, BitVec.getLsbD_one]
      grind
    simp [hone]

/-- A word of `n + 1` bits is its lower `n` bits with bit `n` written into its place. -/
theorem exists_eq_or_bit {v : Word16} {n : Nat} (hn : n < 16) (hv : v.toNat < 2 ^ (n + 1)) :
    ∃ u : Word16, u.toNat < 2 ^ n ∧ (∀ k, k < n → u.getLsbD k = v.getLsbD k) ∧
      v = u ||| ((if v.getLsbD n then 1#16 else 0#16) <<< n) := by
  have hlow (i : Nat) : (v &&& BitVec.ofNat 16 (2 ^ n - 1)).getLsbD i =
      (v.getLsbD i && decide (i < n)) := by
    rw [BitVec.getLsbD_and, BitVec.getLsbD_ofNat, Nat.testBit_two_pow_sub_one]
    grind
  refine ⟨v &&& BitVec.ofNat 16 (2 ^ n - 1), toNat_lt_two_pow_iff.2 fun i hi => ?_,
    fun k hk => ?_, BitVec.eq_of_getLsbD_eq fun i _ => ?_⟩
  · simp [hlow, hi]
  · simp [hlow, hk]
  · rw [getLsbD_or_bit _ _ hn, hlow]
    obtain hi | rfl | hi : i < n ∨ i = n ∨ n + 1 ≤ i := by omega
    · simp [hi, hi.ne]
    · simp
    · simp [toNat_lt_two_pow_iff.1 hv i hi, show i ≠ n by omega]

/-! NEC (R203, R204). -/

/-- Position `k` of an NEC frame holds bit `b`. -/
def NecPosition (s : List Word32) (k : Nat) (b : Bool) : Prop :=
  InWindow s (2 + 2 * k) 362 762 ∧
    if b then InWindow s (3 + 2 * k) 1387 1987 else InWindow s (3 + 2 * k) 362 762

theorem necPosition_iff {s : List Word32} {k : Nat} {b : Bool} : NecPosition s k b ↔
    ∃ m sp, s[2 + 2 * k]? = some m ∧ s[3 + 2 * k]? = some sp ∧ necBit m sp = some b := by
  have short (i : Nat) : InWindow s i 362 762 ↔ _ := inWindow_iff (n := 562) (t := 200)
  have long (i : Nat) : InWindow s i 1387 1987 ↔ _ := inWindow_iff (n := 1687) (t := 300)
  simp only [NecPosition, short, long, necBit_eq_some]
  cases b <;> grind

/-- A position holds a bit when its two intervals lie in windows of NEC (R202). -/
theorem exists_necPosition_iff {s : List Word32} {k : Nat} : (∃ b, NecPosition s k b) ↔
    InWindow s (2 + 2 * k) 362 762 ∧
      (InWindow s (3 + 2 * k) 362 762 ∨ InWindow s (3 + 2 * k) 1387 1987) := by
  simp [NecPosition, Bool.exists_bool, and_or_left]

theorem necBits_succ_iff {s : List Word32} {n : Nat} {v : Word32} : necBits s (n + 1) = some v ↔
    ∃ u b, necBits s n = some u ∧ NecPosition s n b ∧
      v = (u <<< 1) ||| (if b then 1#32 else 0#32) := by
  constructor
  · intro h
    obtain ⟨u, m, sp, b, hu, hm, hsp, hb, rfl⟩ := necBits_succ h
    exact ⟨u, b, hu, necPosition_iff.2 ⟨m, sp, hm, hsp, hb⟩, rfl⟩
  · rintro ⟨u, b, hu, hp, rfl⟩
    obtain ⟨m, sp, hm, hsp, hb⟩ := necPosition_iff.1 hp
    exact necBits_of hu hm hsp hb

theorem necBits_eq_some_iff {s : List Word32} {n : Nat} {v : Word32} (hn : n ≤ 32) :
    necBits s n = some v ↔
      v.toNat < 2 ^ n ∧ ∀ k, k < n → NecPosition s k (v.getLsbD (n - 1 - k)) := by
  induction n generalizing v with
  | zero => simp [necBits, BitVec.toNat_eq, eq_comm]
  | succ n ih =>
    have hn' : n ≤ 32 := by omega
    rw [necBits_succ_iff]
    constructor
    · rintro ⟨u, b, hu, hp, rfl⟩
      obtain ⟨hlt, hps⟩ := (ih hn').1 hu
      refine ⟨toNat_lt_two_pow_iff.2 fun i hi => ?_, fun k hk => ?_⟩
      · rw [getLsbD_shiftIn, if_neg (by omega), toNat_lt_two_pow_iff.1 hlt _ (by omega),
          Bool.and_false]
      · rw [getLsbD_shiftIn]
        obtain rfl | hk : k = n ∨ k < n := by omega
        · simpa using hp
        · have := hps k hk
          rwa [if_neg (by omega), decide_eq_true (by omega), Bool.true_and,
            show n + 1 - 1 - k - 1 = n - 1 - k by omega]
    · rintro ⟨hlt, hps⟩
      refine ⟨v >>> 1, v.getLsbD 0, (ih hn').2 ⟨?_, fun k hk => ?_⟩, ?_, eq_shiftIn v⟩
      · rw [BitVec.toNat_ushiftRight, Nat.shiftRight_eq_div_pow]
        omega
      · rw [BitVec.getLsbD_ushiftRight, show 1 + (n - 1 - k) = n + 1 - 1 - k by omega]
        exact hps k (by omega)
      · simpa using hps n (by omega)

/-- Bits are read when every position holds one. -/
theorem exists_necBits {s : List Word32} {n : Nat} (h : ∀ k, k < n → ∃ b, NecPosition s k b) :
    ∃ v, necBits s n = some v := by
  induction n with
  | zero => exact ⟨_, rfl⟩
  | succ n ih =>
    obtain ⟨u, hu⟩ := ih fun k hk => h k (by omega)
    obtain ⟨b, hb⟩ := h n (by omega)
    exact ⟨_, necBits_succ_iff.2 ⟨u, b, hu, hb, rfl⟩⟩

/-- The length gate, the header and the bits of a match, the header in windows (R202, R203). -/
theorem matchNec_iff_necBits {s : List Word32} {v : Word32} : matchNec s = some v ↔
    34 ≤ s.length ∧ InWindow s 0 8000 10000 ∧ InWindow s 1 4000 5000 ∧ necBits s 32 = some v := by
  have mark : InWindow s 0 8000 10000 ↔ _ := inWindow_iff (n := 9000) (t := 1000)
  have space : InWindow s 1 4000 5000 ↔ _ := inWindow_iff (n := 4500) (t := 500)
  rw [matchNec_eq_some, mark, space]
  grind

/-- The last position makes the length gate superfluous, and 32 bits fill the word. -/
theorem matchNec_eq_some_iff {s : List Word32} {v : Word32} : matchNec s = some v ↔
    InWindow s 0 8000 10000 ∧ InWindow s 1 4000 5000 ∧
      ∀ k, k < 32 → NecPosition s k (v.getLsbD (31 - k)) := by
  rw [matchNec_iff_necBits, necBits_eq_some_iff (by decide)]
  constructor
  · rintro ⟨-, hm, hsp, -, hps⟩
    exact ⟨hm, hsp, hps⟩
  · rintro ⟨hm, hsp, hps⟩
    have := (hps 31 (by decide)).1.lt_length
    exact ⟨by omega, hm, hsp, v.isLt, hps⟩

theorem length_of_matchNec {s : List Word32} {v : Word32} (h : matchNec s = some v) :
    66 ≤ s.length := by
  obtain ⟨-, -, hps⟩ := matchNec_eq_some_iff.1 h
  obtain ⟨m, sp, -, hsp, -⟩ := necPosition_iff.1 (hps 31 (by decide))
  have := (List.getElem?_eq_some_iff.1 hsp).1
  omega

/-- Settles O34: a match has 66 intervals, and those decide it. -/
theorem necBitsComeFromSpaces : Obligations.NecBitsComeFromSpaces := by
  intro s
  refine ⟨fun v => matchNec_eq_some_iff, fun hm hsp hps => ?_, fun v rest h => ?_⟩
  · obtain ⟨v, hv⟩ := exists_necBits fun k hk => exists_necPosition_iff.2 (hps k hk)
    have := (hps 31 (by decide)).1.lt_length
    exact ⟨v, matchNec_iff_necBits.2 ⟨by omega, hm, hsp, hv⟩⟩
  · have hl := length_of_matchNec h
    have hget : ∀ i, i < 66 → (s.take 66 ++ rest)[i]? = s[i]? :=
      fun i hi => getElem?_take_append rest hl hi
    obtain ⟨-, hm, hsp, hv⟩ := matchNec_iff_necBits.1 h
    exact matchNec_iff_necBits.2 ⟨le_length_take_append rest (by decide) hl,
      (inWindow_congr (hget 0 (by decide))).2 hm, (inWindow_congr (hget 1 (by decide))).2 hsp,
      (necBits_congr hget).trans hv⟩

/-! Sony (R205, R206). -/

/-- Position `k` of a Sony frame holds bit `b`; a position whose space is absent counts as 0. -/
def SonyPosition (s : List Word32) (k : Nat) (b : Bool) : Prop :=
  if 3 + 2 * k < s.length then
    InWindow s (3 + 2 * k) 400 800 ∧
      if b then InWindow s (2 + 2 * k) 900 1500 else InWindow s (2 + 2 * k) 400 800
  else b = false

theorem sonyPosition_of_present {s : List Word32} {k : Nat} {b : Bool} (h : 3 + 2 * k < s.length) :
    SonyPosition s k b ↔
      ∃ m sp, s[2 + 2 * k]? = some m ∧ s[3 + 2 * k]? = some sp ∧ sonyBit m sp = some b := by
  have short (i : Nat) : InWindow s i 400 800 ↔ _ := inWindow_iff (n := 600) (t := 200)
  have long (i : Nat) : InWindow s i 900 1500 ↔ _ := inWindow_iff (n := 1200) (t := 300)
  simp only [SonyPosition, if_pos h, short, long, sonyBit_eq_some]
  cases b <;> grind

theorem sonyPosition_of_absent {s : List Word32} {k : Nat} {b : Bool} (h : ¬3 + 2 * k < s.length) :
    SonyPosition s k b ↔ b = false := by
  rw [SonyPosition, if_neg h]

/-- A position holds a bit when it is absent or its two intervals lie in windows of Sony (R202). -/
theorem exists_sonyPosition {s : List Word32} {k : Nat}
    (h : 3 + 2 * k < s.length → InWindow s (3 + 2 * k) 400 800 ∧
      (InWindow s (2 + 2 * k) 400 800 ∨ InWindow s (2 + 2 * k) 900 1500)) :
    ∃ b, SonyPosition s k b := by
  by_cases hl : 3 + 2 * k < s.length
  · obtain ⟨hsp, hm | hm⟩ := h hl
    · exact ⟨false, by simp [SonyPosition, hl, hsp, hm]⟩
    · exact ⟨true, by simp [SonyPosition, hl, hsp, hm]⟩
  · exact ⟨false, (sonyPosition_of_absent hl).2 rfl⟩

theorem sonyBits_succ_iff {s : List Word32} {n : Nat} {v : Word16} : sonyBits s (n + 1) = some v ↔
    ∃ u b, sonyBits s n = some u ∧ SonyPosition s n b ∧
      v = u ||| ((if b then 1#16 else 0#16) <<< n) := by
  rw [sonyBits_succ]
  refine exists_congr fun u => ?_
  by_cases hl : 3 + 2 * n < s.length
  · simp only [if_pos hl, sonyPosition_of_present hl]
    grind
  · simp [if_neg hl, sonyPosition_of_absent hl]

theorem sonyBits_eq_some_iff {s : List Word32} {n : Nat} {v : Word16} (hn : n ≤ 16) :
    sonyBits s n = some v ↔ v.toNat < 2 ^ n ∧ ∀ k, k < n → SonyPosition s k (v.getLsbD k) := by
  induction n generalizing v with
  | zero => simp [sonyBits, BitVec.toNat_eq, eq_comm]
  | succ n ih =>
    have hn' : n ≤ 16 := by omega
    rw [sonyBits_succ_iff]
    constructor
    · rintro ⟨u, b, hu, hp, rfl⟩
      obtain ⟨hlt, hps⟩ := (ih hn').1 hu
      have hhigh := toNat_lt_two_pow_iff.1 hlt
      have hbit := getLsbD_or_bit u b hn
      refine ⟨toNat_lt_two_pow_iff.2 fun i hi => ?_, fun k hk => ?_⟩
      · simp [hbit, hhigh i (by omega), show i ≠ n by omega]
      · obtain rfl | hk : k = n ∨ k < n := by omega
        · simpa [hbit, hhigh k] using hp
        · simpa [hbit, hk.ne] using hps k hk
    · rintro ⟨hlt, hps⟩
      obtain ⟨u, hu, hlow, hv⟩ := exists_eq_or_bit hn hlt
      exact ⟨u, v.getLsbD n, (ih hn').2 ⟨hu, fun k hk => hlow k hk ▸ hps k (by omega)⟩,
        hps n (by omega), hv⟩

/-- Bits are read when every position holds one. -/
theorem exists_sonyBits {s : List Word32} {n : Nat} (h : ∀ k, k < n → ∃ b, SonyPosition s k b) :
    ∃ v, sonyBits s n = some v := by
  induction n with
  | zero => exact ⟨_, rfl⟩
  | succ n ih =>
    obtain ⟨u, hu⟩ := ih fun k hk => h k (by omega)
    obtain ⟨b, hb⟩ := h n (by omega)
    exact ⟨_, sonyBits_succ_iff.2 ⟨u, b, hu, hb, rfl⟩⟩

theorem matchSony_iff_sonyBits {s : List Word32} {v : Word32} : matchSony s = some v ↔
    24 ≤ s.length ∧ InWindow s 0 2100 2700 ∧ InWindow s 1 400 800 ∧
      ∃ u, sonyBits s 12 = some u ∧ v = u.setWidth 32 := by
  have mark : InWindow s 0 2100 2700 ↔ _ := inWindow_iff (n := 2400) (t := 300)
  have space : InWindow s 1 400 800 ↔ _ := inWindow_iff (n := 600) (t := 200)
  rw [matchSony_eq_some, mark, space]
  grind

/-- A word of 12 bits held in 32 is the one that 16 bits hold. -/
theorem exists_word16_iff {v : Word32} {p : Word16 → Prop} :
    (∃ u : Word16, (u.toNat < 2 ^ 12 ∧ p u) ∧ v = u.setWidth 32) ↔
      v.toNat < 2 ^ 12 ∧ p (v.setWidth 16) := by
  constructor
  · rintro ⟨u, ⟨hu, hp⟩, rfl⟩
    have e : (u.setWidth 32).setWidth 16 = u := by simp
    exact ⟨by rw [BitVec.toNat_setWidth]; omega, e.symm ▸ hp⟩
  · rintro ⟨hv, hp⟩
    refine ⟨v.setWidth 16, ⟨?_, hp⟩, ?_⟩ <;> bv_omega

theorem matchSony_eq_some_iff {s : List Word32} {v : Word32} : matchSony s = some v ↔
    24 ≤ s.length ∧ InWindow s 0 2100 2700 ∧ InWindow s 1 400 800 ∧ v.toNat < 4096 ∧
      ∀ k, k < 12 → SonyPosition s k (v.getLsbD k) := by
  have hbit (k : Nat) (hk : k < 12) : (v.setWidth 16).getLsbD k = v.getLsbD k := by
    rw [BitVec.getLsbD_setWidth, decide_eq_true (by omega), Bool.true_and]
  simp only [matchSony_iff_sonyBits, sonyBits_eq_some_iff (show 12 ≤ 16 by decide),
    exists_word16_iff]
  grind

/-- A frame of 24 or 25 intervals has no twelfth position, which then counts as 0 (R206). -/
theorem matchSony_lt_of_short {s : List Word32} {v : Word32} (h : matchSony s = some v)
    (hs : s.length < 26) : v.toNat < 2048 := by
  obtain ⟨-, -, -, hlt, hps⟩ := matchSony_eq_some_iff.1 h
  have hlast : v.getLsbD 11 = false :=
    (sonyPosition_of_absent (by omega)).1 (hps 11 (by decide))
  refine toNat_lt_two_pow_iff (n := 11).2 fun i hi => ?_
  obtain rfl | hi : i = 11 ∨ 12 ≤ i := by omega
  · exact hlast
  · exact toNat_lt_two_pow_iff (n := 12).1 hlt i hi

/-- Settles O35: the first 26 intervals decide a match, and the twelfth position is absent below 26. -/
theorem sonyPartialAcceptance : Obligations.SonyPartialAcceptance := by
  intro s
  refine ⟨fun v => matchSony_eq_some_iff, fun hl hm hsp hps => ?_, fun v h =>
    ⟨?_, matchSony_lt_of_short h, fun hl rest => ?_⟩⟩
  · obtain ⟨u, hu⟩ := exists_sonyBits fun k hk => exists_sonyPosition (hps k hk)
    exact ⟨_, matchSony_iff_sonyBits.2 ⟨hl, hm, hsp, u, hu, rfl⟩⟩
  · obtain ⟨-, -, -, hlt, -⟩ := matchSony_eq_some_iff.1 h
    exact hlt
  · have hget : ∀ i, i < 26 → (s.take 26 ++ rest)[i]? = s[i]? :=
      fun i hi => getElem?_take_append rest hl hi
    obtain ⟨-, hm, hsp, u, hu, rfl⟩ := matchSony_iff_sonyBits.1 h
    exact matchSony_iff_sonyBits.2 ⟨le_length_take_append rest (by decide) hl,
      (inWindow_congr (hget 0 (by decide))).2 hm, (inWindow_congr (hget 1 (by decide))).2 hsp,
      u, (sonyBits_congr hget).trans hu, rfl⟩

/-! RC5 (R207, R208). -/

theorem rc5Bits_succ_iff {s : List Word32} {n : Nat} {v : Word32} : rc5Bits s (n + 1) = some v ↔
    ∃ u, rc5Bits s n = some u ∧ InWindow s (2 * n) 667 1111 ∧ InWindow s (2 * n + 1) 667 1111 ∧
      v = (u <<< 1) ||| 1#32 := by
  have half (i : Nat) : InWindow s i 667 1111 ↔ _ := inWindow_iff (n := 889) (t := 222)
  simp only [half]
  constructor
  · intro h
    obtain ⟨u, a, b, hu, ha, hb, wa, wb, rfl⟩ := rc5Bits_succ h
    exact ⟨u, hu, ⟨a, ha, wa⟩, ⟨b, hb, wb⟩, rfl⟩
  · rintro ⟨u, hu, ⟨a, ha, wa⟩, ⟨b, hb, wb⟩, rfl⟩
    exact rc5Bits_of hu ha hb wa wb

/-- `n` ones and one more. -/
theorem shiftIn_one (n : Nat) :
    (BitVec.ofNat 32 (2 ^ n - 1) <<< 1) ||| 1#32 = BitVec.ofNat 32 (2 ^ (n + 1) - 1) := by
  refine BitVec.eq_of_getLsbD_eq fun i hi => ?_
  have := getLsbD_shiftIn (BitVec.ofNat 32 (2 ^ n - 1)) true i
  rw [if_pos rfl] at this
  simp only [this, BitVec.getLsbD_ofNat, Nat.testBit_two_pow_sub_one]
  grind

theorem rc5Bits_eq_some_iff {s : List Word32} {n : Nat} {v : Word32} : rc5Bits s n = some v ↔
    v = BitVec.ofNat 32 (2 ^ n - 1) ∧ ∀ j, j < 2 * n → InWindow s j 667 1111 := by
  induction n generalizing v with
  | zero => simp [rc5Bits, eq_comm (a := v)]
  | succ n ih =>
    have hall : (∀ j, j < 2 * (n + 1) → InWindow s j 667 1111) ↔
        (∀ j, j < 2 * n → InWindow s j 667 1111) ∧
          InWindow s (2 * n) 667 1111 ∧ InWindow s (2 * n + 1) 667 1111 := by
      rw [show 2 * (n + 1) = 2 * n + 1 + 1 by omega, Nat.forall_lt_succ_right,
        Nat.forall_lt_succ_right, and_assoc]
    rw [rc5Bits_succ_iff, hall, ← shiftIn_one]
    simp only [ih]
    grind

theorem matchRc5_eq_some_iff {s : List Word32} {v : Word32} : matchRc5 s = some v ↔
    v = 0x3FFF#32 ∧ 28 ≤ s.length ∧ ∀ j, j < 28 → InWindow s j 667 1111 := by
  unfold matchRc5 rc5Min
  by_cases hl : s.length < 28
  · simp [hl]
  · rw [if_neg hl, rc5Bits_eq_some_iff]
    exact and_congr_right fun _ => (and_iff_right (Nat.not_lt.1 hl)).symm

/-! At most one matcher answers (R211): the windows of the first interval do not meet. -/

theorem matchSony_eq_none_of_nec {s : List Word32} {v : Word32} (h : matchNec s = some v) :
    matchSony s = none :=
  Option.eq_none_iff_forall_ne_some.2 fun _ h' =>
    (matchNec_eq_some_iff.1 h).1.not_of_gap (by decide) (matchSony_eq_some_iff.1 h').2.1

theorem matchRc5_eq_none_of_nec {s : List Word32} {v : Word32} (h : matchNec s = some v) :
    matchRc5 s = none :=
  Option.eq_none_iff_forall_ne_some.2 fun _ h' =>
    (matchNec_eq_some_iff.1 h).1.not_of_gap (by decide)
      ((matchRc5_eq_some_iff.1 h').2.2 0 (by decide))

theorem matchRc5_eq_none_of_sony {s : List Word32} {v : Word32} (h : matchSony s = some v) :
    matchRc5 s = none :=
  Option.eq_none_iff_forall_ne_some.2 fun _ h' =>
    (matchSony_eq_some_iff.1 h).2.1.not_of_gap (by decide)
      ((matchRc5_eq_some_iff.1 h').2.2 0 (by decide))

/-- What the classifier can answer: the answer of the one matcher that answers, or Raw (R200, R209). -/
theorem classify_cases (s : List Word32) :
    (∃ v, classify s = ⟨.nec, v, true⟩ ∧
      matchNec s = some v ∧ matchSony s = none ∧ matchRc5 s = none) ∨
    (∃ v, classify s = ⟨.sony, v, true⟩ ∧
      matchNec s = none ∧ matchSony s = some v ∧ matchRc5 s = none) ∨
    (∃ v, classify s = ⟨.rc5, v, true⟩ ∧
      matchNec s = none ∧ matchSony s = none ∧ matchRc5 s = some v) ∨
    (classify s = ⟨.raw, 0#32, false⟩ ∧
      matchNec s = none ∧ matchSony s = none ∧ matchRc5 s = none) := by
  unfold classify
  cases hn : matchNec s with
  | some v => exact .inl ⟨v, rfl, rfl, matchSony_eq_none_of_nec hn, matchRc5_eq_none_of_nec hn⟩
  | none =>
    cases hs : matchSony s with
    | some v => exact .inr (.inl ⟨v, rfl, rfl, rfl, matchRc5_eq_none_of_sony hs⟩)
    | none =>
      cases hr : matchRc5 s with
      | some v => exact .inr (.inr (.inl ⟨v, rfl, rfl, rfl, rfl⟩))
      | none => exact .inr (.inr (.inr ⟨rfl, rfl, rfl, rfl⟩))

/-- Settles O36: each clause holds in each of the four cases. -/
theorem oneMatcherAndValidity : Obligations.OneMatcherAndValidity := by
  intro s
  obtain ⟨v, hc, hn, hs, hr⟩ | ⟨v, hc, hn, hs, hr⟩ | ⟨v, hc, hn, hs, hr⟩ | ⟨hc, hn, hs, hr⟩ :=
    classify_cases s <;> simp [hc, hn, hs, hr]

theorem classify_eq_nec_iff {s : List Word32} {v : Word32} :
    classify s = ⟨.nec, v, true⟩ ↔ matchNec s = some v := by
  obtain ⟨-, -, h, -⟩ := oneMatcherAndValidity s
  exact (h v).1

theorem classify_eq_sony_iff {s : List Word32} {v : Word32} :
    classify s = ⟨.sony, v, true⟩ ↔ matchSony s = some v := by
  obtain ⟨-, -, h, -⟩ := oneMatcherAndValidity s
  exact (h v).2.1

theorem classify_eq_rc5_iff {s : List Word32} {v : Word32} :
    classify s = ⟨.rc5, v, true⟩ ↔ matchRc5 s = some v := by
  obtain ⟨-, -, h, -⟩ := oneMatcherAndValidity s
  exact (h v).2.2

/-! Short sequences (R212). -/

/-- Settles O33: position 31 of an NEC match is present; the other two are the length gates. -/
theorem shortSequencesNeverMatch : Obligations.ShortSequencesNeverMatch := by
  intro s
  have hnec (h : s.length < 66) : matchNec s = none :=
    Option.eq_none_iff_forall_ne_some.2 fun v hv => by have := length_of_matchNec hv; omega
  have hsony (h : s.length < 24) : matchSony s = none := if_pos h
  have hrc5 (h : s.length < 28) : matchRc5 s = none := if_pos h
  refine ⟨hnec, hsony, hrc5, fun h => ?_⟩
  simp only [classify, hnec (by omega), hsony h, hrc5 (by omega)]

/-! The round trips (R213, R214, R215). -/

/-- The header of `encodeNec` and each of its 32 positions (R261). -/
theorem encodeNec_get (c : Word32) :
    (encodeNec c)[0]? = some 9000#32 ∧ (encodeNec c)[1]? = some 4500#32 ∧
    ∀ k, k < 32 → (encodeNec c)[2 + 2 * k]? = some 562#32 ∧
      (encodeNec c)[3 + 2 * k]? = some (if c.getLsbD (31 - k) then 1687#32 else 562#32) := by
  refine ⟨rfl, rfl, fun k hk => ?_⟩
  have hpairs := necPairs_get c hk
  have hskip (i : Nat) (hi : i < 64) : (encodeNec c)[2 + i]? = (necPairs c 32)[i]? := by
    rw [encodeNec, List.append_assoc, List.getElem?_append_right (by simp),
      List.getElem?_append_left (by simpa [length_necPairs] using hi)]
    simp
  rw [show 3 + 2 * k = 2 + (2 * k + 1) by omega, hskip _ (by omega), hskip _ (by omega)]
  exact hpairs

/-- The header of `encodeSony` and each of its 12 positions (R263). -/
theorem encodeSony_get (c : Word16) :
    (encodeSony c)[0]? = some 2400#32 ∧ (encodeSony c)[1]? = some 600#32 ∧
    ∀ k, k < 12 → (encodeSony c)[2 + 2 * k]? = some (if c.getLsbD k then 1200#32 else 600#32) ∧
      (encodeSony c)[3 + 2 * k]? = some 600#32 := by
  refine ⟨rfl, rfl, fun k hk => ?_⟩
  have hpairs := sonyPairs_get c 0 hk
  have hskip (i : Nat) : (encodeSony c)[2 + i]? = (sonyPairs c 0 12)[i]? := by
    rw [encodeSony, List.getElem?_append_right (by simp)]
    simp
  rw [show 3 + 2 * k = 2 + (2 * k + 1) by omega, hskip, hskip]
  simpa using hpairs

theorem encodeRc5_eq (c : Word16) : encodeRc5 c = List.replicate 28 889#32 := rc5Pairs_eq _ 14

theorem matchNec_encodeNec (c : Word32) : matchNec (encodeNec c) = some c := by
  obtain ⟨hm, hsp, hps⟩ := encodeNec_get c
  refine matchNec_eq_some_iff.2 ⟨?_, ?_, fun k hk => ?_⟩
  · simp [inWindow_of_getElem? hm]
  · simp [inWindow_of_getElem? hsp]
  · obtain ⟨hk1, hk2⟩ := hps k hk
    simp only [NecPosition, inWindow_of_getElem? hk1, inWindow_of_getElem? hk2]
    cases c.getLsbD (31 - k) <;> simp

/-- The low 12 bits of a code are what is sent of it. -/
theorem matchSony_encodeSony (c : Word16) :
    matchSony (encodeSony c) = some (BitVec.ofNat 32 (c.toNat % 4096)) := by
  obtain ⟨hm, hsp, hps⟩ := encodeSony_get c
  refine matchSony_eq_some_iff.2 ⟨by simp, ?_, ?_, ?_, fun k hk => ?_⟩
  · simp [inWindow_of_getElem? hm]
  · simp [inWindow_of_getElem? hsp]
  · rw [BitVec.toNat_ofNat]
    omega
  · obtain ⟨hk1, hk2⟩ := hps k hk
    have hbit : (BitVec.ofNat 32 (c.toNat % 4096)).getLsbD k = c.getLsbD k := by
      rw [BitVec.getLsbD_ofNat, show 4096 = 2 ^ 12 by rfl, Nat.testBit_mod_two_pow]
      simp [hk, BitVec.getLsbD, show k < 32 by omega]
    rw [hbit, SonyPosition, if_pos (by rw [length_encodeSony]; omega), inWindow_of_getElem? hk1,
      inWindow_of_getElem? hk1, inWindow_of_getElem? hk2]
    cases c.getLsbD k <;> simp

theorem matchRc5_encodeRc5 (c : Word16) : matchRc5 (encodeRc5 c) = some 0x3FFF#32 := by
  refine matchRc5_eq_some_iff.2 ⟨rfl, by simp, fun j hj => ?_⟩
  have hget : (encodeRc5 c)[j]? = some 889#32 := by
    rw [encodeRc5_eq, List.getElem?_replicate_of_lt hj]
  simp [inWindow_of_getElem? hget]

/-- Settles O30: each encoded position holds its bit of the code. -/
theorem necRoundTrip : Obligations.NecRoundTrip :=
  fun c => classify_eq_nec_iff.2 (matchNec_encodeNec c)

/-- Settles O31: each encoded position holds its bit of the code, 12 of them. -/
theorem sonyRoundTrip : Obligations.SonyRoundTrip :=
  fun c => classify_eq_sony_iff.2 (matchSony_encodeSony c)

/-- Settles O32: the value of an RC5 match does not depend on the sequence. -/
theorem rc5AlwaysAllOnes : Obligations.Rc5AlwaysAllOnes := by
  refine ⟨fun s v => matchRc5_eq_some_iff, fun s h => ?_,
    fun c => classify_eq_rc5_iff.2 (matchRc5_encodeRc5 c)⟩
  obtain ⟨v, hc, -⟩ | ⟨v, hc, -⟩ | ⟨v, hc, -, -, hr⟩ | ⟨hc, -⟩ := classify_cases s
  · simp [hc] at h
  · simp [hc] at h
  · rw [hc, (matchRc5_eq_some_iff.1 hr).1]
  · simp [hc] at h

end Sys2Proof.Machine
end

section
/-! SUPPORT. The statements of 43_transmitter.md: what each transmitter command makes of a live instance,
the transmitter's transition table, and what no step does to an interval, a gap or the pin. -/

namespace Sys2Proof.Machine

/-! The starts (R230 to R234). -/

/-- The three encoded transmissions in one form, with the length the encoder's output has. -/
theorem exec_encoded {s : State} {b : Block} {i : Instr} {xs : List Word32} {len : Word8}
    (hl : Live s b)
    (hi : (∃ c, i = .txNec c ∧ xs = encodeNec c ∧ len = 68#8) ∨
      (∃ c, i = .txRc5 c ∧ xs = encodeRc5 c ∧ len = 28#8) ∨
      (∃ c, i = .txSony c ∧ xs = encodeSony c ∧ len = 26#8)) :
    xs.length = len.toNat ∧ exec i s =
      if b.tx.txState = .transmitting then answer s b 0#32 .busy
      else answer s (startEncoded b xs len.toNat s.port.tUs) 1#32 .ok := by
  obtain ⟨c, rfl, rfl, rfl⟩ | ⟨c, rfl, rfl, rfl⟩ | ⟨c, rfl, rfl, rfl⟩ := hi
  · exact ⟨length_encodeNec c, onSelf_of_live hl _⟩
  · exact ⟨length_encodeRc5 c, onSelf_of_live hl _⟩
  · exact ⟨length_encodeSony c, onSelf_of_live hl _⟩

/-- Settles O38. -/
theorem txEncodedCommands : Obligations.TxEncodedCommands := by
  intro s b i xs len hl hi
  obtain ⟨hlen, hrun⟩ := exec_encoded hl hi
  refine ⟨fun ht => ?_, fun ht => ⟨writeCells b.tx.txBuf 0 xs, ?_, fun j => ?_⟩⟩
  · rw [hrun, if_pos ht, answer_eq]
  · rw [hrun, if_neg ht, answer_eq, startEncoded_eq, BitVec.ofNat_toNat, BitVec.setWidth_eq]
  · simp only [readCell?_writeCells, hlen, Nat.zero_le, true_and, Nat.zero_add, Nat.sub_zero]

/-- Settles O39. -/
theorem txRaw : Obligations.TxRaw := by
  intro s b base len hl bad
  have hrun : exec (.txRaw base len) s = _ := onSelf_of_live hl _
  refine ⟨fun ht => ?_, fun ht hbad => ?_, fun ht hgood => ?_⟩
  · rw [hrun, if_pos ht, answer_eq]
  · rw [hrun, if_neg ht, if_pos ((rawRefused_iff ..).2 hbad), answer_eq]
  · rw [hrun, if_neg ht, if_neg (mt (rawRefused_iff ..).1 hgood), BitVec.ofNat_toNat]
    rfl

/-! The queries and the setters (R243 to R248). -/

/-- Settles O45. -/
theorem txQueriesAndSetters : Obligations.TxQueriesAndSetters := by
  intro s b v u hl
  have hrun := onSelf_of_live hl
  refine ⟨?_, ?_, hrun _, hrun _, hrun _⟩
  · exact (hrun _).trans (by rw [boolWord_decide, answer_eq])
  · exact (hrun _).trans (by rw [boolWord_decide, answer_eq])

/-- The half-period of every carrier that can be set (R242, R246). -/
theorem halfPeriod_bounds {f : Word32} (h : 30000 ≤ f.toNat ∧ f.toNat ≤ 60000) :
    8 ≤ halfPeriod f ∧ halfPeriod f ≤ 16 := by
  have hpos : 0 < 2 * f.toNat := by omega
  constructor
  · exact (Nat.le_div_iff_mul_le hpos).2 (by omega)
  · exact Nat.le_of_lt_succ ((Nat.div_lt_iff_lt_mul hpos).2 (by omega))

/-- Settles O46. -/
theorem txSetCarrier : Obligations.TxSetCarrier := by
  intro s b f hl
  refine ⟨fun hout => ?_, fun hin => ⟨?_, halfPeriod_bounds hin⟩⟩
  · exact (onSelf_of_live hl _).trans (if_pos hout)
  · have hin : ¬(f.toNat < 30000 ∨ 60000 < f.toNat) := by omega
    exact (onSelf_of_live hl _).trans (if_neg hin)

/-! TX_UPDATE in each state (R235 to R242). -/

section
variable {s : State} {b : Block} (hl : Live s b)
include hl

theorem execTxUpdate_of_idle (ht : b.tx.txState = .idle) :
    execTxUpdate s = .next (withSelf s (replied b 0#32 .ok)) := by
  simp only [execTxUpdate, onSelf_of_live hl, ht, answer_eq]

theorem execTxUpdate_of_result (ht : b.tx.txState = .complete ∨ b.tx.txState = .error) :
    execTxUpdate s =
      .next (withSelf s (replied { b with tx := { b.tx with txState := .idle } } 0#32 .ok)) := by
  obtain ht | ht := ht <;> simp only [execTxUpdate, onSelf_of_live hl, ht, answer_eq]

theorem execTxUpdate_of_noSequence (ht : b.tx.txState = .transmitting)
    (hs : b.tx.seqSrc = .none) :
    execTxUpdate s = .next (withSelf s (replied (errorStep b s.port.tUs) 0#32 .ok)) := by
  simp only [execTxUpdate, onSelf_of_live hl, ht, hs, if_true, answer_eq]

theorem execTxUpdate_of_gap (ht : b.tx.txState = .transmitting) (hs : b.tx.seqSrc ≠ .none)
    (hg : b.tx.inGap = true) : execTxUpdate s =
      .next (withSelf s (replied { b with tx := gapStep b.tx s.port.tUs } 0#32 .ok)) := by
  simp only [execTxUpdate, onSelf_of_live hl, ht, hs, hg, if_true, if_false, answer_eq]

end

/-- Settles O40. -/
theorem txUpdateOutsideFrames : Obligations.TxUpdateOutsideFrames := by
  intro s b hl
  refine ⟨execTxUpdate_of_idle hl, execTxUpdate_of_result hl, fun ht hs => ?_⟩
  have hrun := execTxUpdate_of_noSequence hl ht hs
  rwa [errorStep_eq] at hrun

/-- Settles O44. -/
theorem txUpdateInGap : Obligations.TxUpdateInGap := by
  intro s b hl ht hs hg
  have hrun : exec .txUpdate s = _ := execTxUpdate_of_gap hl ht hs hg
  obtain ⟨hearly, hstep⟩ | ⟨hlate, hstep⟩ := gapStep_cases b.tx s.port.tUs
  · exact ⟨fun _ => by rw [hrun, hstep], fun hlate => absurd hearly (Nat.not_lt.2 hlate)⟩
  · exact ⟨fun hearly => absurd hearly (Nat.not_lt.2 hlate), fun _ => by rw [hrun, hstep]⟩

/-! The step within the current interval (R238, R239). -/

/-- The next index as a number, when it does not wrap. -/
theorem add_one_eq_iff {x y : Word8} (h : x.toNat < y.toNat) :
    x + 1#8 = y ↔ x.toNat + 1 = y.toNat := by
  have hy := y.isLt
  rw [← BitVec.toNat_inj, BitVec.toNat_add, BitVec.toNat_ofNat]
  omega

theorem add_one_eq_ofNat (x : Word8) : x + 1#8 = BitVec.ofNat 8 (x.toNat + 1) := by
  simp [BitVec.ofNat_add]

section
variable {b : Block} {d : Word32} {tUs : Word64}

theorem intervalStep_of_mark (h : (tUs - b.tx.idxStartUs).toNat < d.toNat)
    (hm : b.tx.txIdx.toNat % 2 = 0) :
    intervalStep b d tUs = { b with tx := carrier b.tx tUs } :=
  (if_pos h).trans (if_pos hm)

theorem intervalStep_of_space (h : (tUs - b.tx.idxStartUs).toNat < d.toNat)
    (hm : b.tx.txIdx.toNat % 2 = 1) : intervalStep b d tUs =
      { b with tx := { b.tx with txPin := false, pinTrace := tracedTo b.tx tUs false } } :=
  (if_pos h).trans (if_neg (by omega))

theorem intervalStep_of_advance (h : d.toNat ≤ (tUs - b.tx.idxStartUs).toNat)
    (hi : b.tx.txIdx + 1#8 ≠ b.tx.seqLen) : intervalStep b d tUs =
      { b with tx := { b.tx with txIdx := b.tx.txIdx + 1#8, idxStartUs := tUs } } :=
  (if_neg (Nat.not_lt.2 h)).trans (if_neg hi)

section
variable (h : d.toNat ≤ (tUs - b.tx.idxStartUs).toNat) (hi : b.tx.txIdx + 1#8 = b.tx.seqLen)
include h hi

theorem intervalStep_of_repeat (hr : b.tx.repeatsDone.toNat < b.tx.repeatCount.toNat) :
    intervalStep b d tUs = { b with tx := { b.tx with
      txIdx := b.tx.seqLen, idxStartUs := tUs, repeatsDone := b.tx.repeatsDone + 1#8
      inGap := true, gapStartUs := tUs, txPin := false
      pinTrace := tracedTo b.tx tUs false } } := by
  rw [← hi]
  exact (if_neg (Nat.not_lt.2 h)).trans ((if_pos hi).trans (endOfFrame_of_repeat tUs hr))

theorem intervalStep_of_complete (hr : b.tx.repeatCount.toNat ≤ b.tx.repeatsDone.toNat) :
    intervalStep b d tUs = { b with
      tx := { b.tx with
        txIdx := b.tx.seqLen, idxStartUs := tUs, txState := .complete, txPin := false
        pinTrace := tracedTo b.tx tUs false }
      notifs := if b.tx.txCb = 0#32 then b.notifs else b.notifs ++ [.tx b.tx.txCb true] } := by
  rw [← hi]
  exact (if_neg (Nat.not_lt.2 h)).trans ((if_pos hi).trans (endOfFrame_of_last tUs hr))

end

end

/-- Settles O41. -/
theorem txUpdateInMark : Obligations.TxUpdateInMark := by
  intro s b d n hl hf hc hd hm half after
  have hrun : exec .txUpdate s = _ := execTxUpdate_of_inFrame hl hf hc
  rw [intervalStep_of_mark hd hm] at hrun
  exact ⟨fun hearly => by rw [hrun, carrier_of_not_due hearly],
    fun hdue => by rw [hrun, carrier_of_due hdue]⟩

/-- Settles O42. -/
theorem txUpdateInSpaceAndAdvance : Obligations.TxUpdateInSpaceAndAdvance := by
  intro s b d n hl hf hc hi after
  have hrun : exec .txUpdate s = _ := execTxUpdate_of_inFrame hl hf hc
  refine ⟨fun hd hm => by rw [hrun, intervalStep_of_space hd hm], fun hd hne => ?_⟩
  rw [hrun, intervalStep_of_advance hd (mt (add_one_eq_iff hi).1 hne), add_one_eq_ofNat]

/-- Settles O43. -/
theorem txUpdateEndsFrame : Obligations.TxUpdateEndsFrame := by
  intro s b d n hl hf hc hd hlast
  have hrun : exec .txUpdate s = _ := execTxUpdate_of_inFrame hl hf hc
  have hnext := (add_one_eq_iff (by omega)).2 hlast
  refine ⟨fun hr => ?_, fun hr => ?_⟩
  · rw [hrun, intervalStep_of_repeat hd hnext hr, add_one_eq_ofNat]
  · rw [hrun, intervalStep_of_complete hd hnext hr]

/-! What an instruction makes of the addressed instance. -/

/-- The addressed instance after an end is the one it ended in, with its response. -/
theorem Ends.replaced {s u t : State} {b b' c : Block} {res : Word32} {stat : Status}
    (e : Ends u c res stat t) (hl : Live s b) (hb' : t.blocks[s.port.block]? = some b')
    (hu : u.blocks = s.blocks) (hp : u.port = s.port) : b' = replied c res stat := by
  obtain ⟨-, -, h⟩ | ⟨hne, -⟩ := block_after hu hp e hl hl.1 hb'
  · exact h
  · exact absurd rfl hne

theorem ends_of_exec {i : Instr} {s u t : State} {c : Block} {res : Word32} {stat : Status}
    (h : exec i s = .next t) (hrun : exec i s = .next (withSelf u (replied c res stat))) :
    Ends u c res stat t := by
  rw [h] at hrun
  exact Host.Outcome.next.inj hrun

/-- The starts: with TX_UPDATE, the instructions that can move `txState`. -/
def startsTx : Instr → Bool
  | .txNec _ | .txRc5 _ | .txSony _ | .txRaw _ _ => true
  | _ => false

/-- What an instruction `i` other than TX_UPDATE keeps of the transmitter of `b`, which it makes into `c`:
its state, if `i` is no start, and the low level of its pin. -/
def TxKept (i : Instr) (b c : Block) : Prop :=
  (startsTx i = false → c.tx.txState = b.tx.txState) ∧ (b.tx.txPin = false → c.tx.txPin = false)

theorem TxKept.of_eq {i : Instr} {b c : Block} (hs : c.tx.txState = b.tx.txState)
    (hp : c.tx.txPin = b.tx.txPin) : TxKept i b c :=
  ⟨fun _ => hs, fun h => hp.trans h⟩

@[simp] theorem timeoutStep_tx (b : Block) : (timeoutStep b).tx = b.tx := by
  rw [timeoutStep_eq]

theorem decodeStep_tx {b b' : Block} (h : decodeStep b = .ok b') : b'.tx = b.tx := by
  obtain ⟨xs, -, rfl⟩ := decodeStep_eq_ok h
  rfl

/-- An end replaces the addressed instance; its response is not part of the transmitter. -/
theorem Ends.txKept {i : Instr} {s u t : State} {b c : Block} {res : Word32} {stat : Status}
    (e : Ends u c res stat t) (hu : u.blocks = s.blocks) (hp : u.port = s.port)
    (hc : TxKept i b c) : ∃ c', t.blocks = s.blocks.set s.port.block c' ∧ TxKept i b c' :=
  ⟨replied c res stat, by rw [e, withSelf, hu, hp], hc⟩

/-- Every start that is not refused drives the pin low, and so does TEARDOWN; nothing else but TX_UPDATE
touches the pin. -/
theorem effect_txKept {i : Instr} {s t : State} {b : Block} (e : Effect s b t i)
    (hi : i ≠ .txUpdate) : ∃ c, t.blocks = s.blocks.set s.port.block c ∧ TxKept i b c := by
  cases i with
  | rxStart | rxStartPeriodic _ =>
    obtain ⟨-, e⟩ | ⟨-, -, e⟩ := e <;> exact e.txKept rfl rfl (.of_eq rfl rfl)
  | rxStop | rxStopPeriodic =>
    exact Ends.txKept e (unbindPin_blocks s b) (unbindPin_port s b) (.of_eq rfl rfl)
  | rxUpdate =>
    obtain ⟨-, e⟩ | ⟨-, -, b', hd, e⟩ | ⟨-, -, -, e⟩ | ⟨-, -, -, e⟩ | ⟨-, -, e⟩ | ⟨-, -, e⟩ := e
    · exact e.txKept rfl rfl (.of_eq rfl rfl)
    · have htx := decodeStep_tx hd
      exact e.txKept rfl rfl (.of_eq (by rw [htx]) (by rw [htx]))
    · exact e.txKept rfl rfl (.of_eq (by rw [timeoutStep_tx]) (by rw [timeoutStep_tx]))
    · exact e.txKept rfl rfl (.of_eq rfl rfl)
    · exact e.txKept rfl rfl (.of_eq rfl rfl)
    · exact e.txKept (unbindPin_blocks s b) (unbindPin_port s b) (.of_eq rfl rfl)
  | rxGetRaw _ =>
    obtain ⟨-, v, -, e⟩ | ⟨-, e⟩ := e <;> exact e.txKept rfl rfl (.of_eq rfl rfl)
  | rxSetTimeout _ | txSetCarrier _ =>
    obtain ⟨-, -, e⟩ | ⟨-, e⟩ := e <;> exact e.txKept rfl rfl (.of_eq rfl rfl)
  | rxSetCallback _ | rxSetMinPw _ | rxSetMaxPw _ | txSetCallback _ | txSetPower _
  | txSetRepeat _ => exact Ends.txKept e rfl rfl (.of_eq rfl rfl)
  | rxIsReceiving | rxIsDetected | rxGetCode | rxGetProtocol | rxGetRawLen | txIsTransmitting
  | txIsComplete =>
    obtain ⟨res, e⟩ := e
    exact e.txKept rfl rfl (.of_eq rfl rfl)
  | txNec _ | txRc5 _ | txSony _ =>
    obtain ⟨-, e⟩ | ⟨-, e⟩ := e
    · exact e.txKept rfl rfl (.of_eq rfl rfl)
    · exact e.txKept rfl rfl ⟨nofun, fun _ => rfl⟩
  | txRaw _ _ =>
    obtain ⟨-, e⟩ | ⟨-, -, e⟩ | ⟨-, -, -, -, e⟩ := e
    · exact e.txKept rfl rfl (.of_eq rfl rfl)
    · exact e.txKept rfl rfl (.of_eq rfl rfl)
    · exact e.txKept rfl rfl ⟨nofun, fun _ => rfl⟩
  | txUpdate => exact absurd rfl hi
  | edge => exact e.elim
  | teardown =>
    refine ⟨tornDown b s.port.tUs, ?_, fun _ => rfl, fun _ => rfl⟩
    rw [show t = _ from e, withSelf, unbindPin_blocks, unbindPin_port, tornDown]

/-- The same of every instance, whichever one the instruction addresses. -/
theorem exec_txKept {i : Instr} {s t : State} {k : Nat} {b b' : Block} (h : exec i s = .next t)
    (hi : i ≠ .txUpdate) (hb : s.blocks[k]? = some b) (hb' : t.blocks[k]? = some b') :
    TxKept i b b' := by
  by_cases hedge : i = .edge
  · subst hedge
    obtain rfl | ⟨j, a, r, -, ha, -, -, rfl⟩ := execEdge_cases h
    · rw [Option.some.inj (hb.symm.trans hb')]
      exact .of_eq rfl rfl
    · obtain ⟨-, rfl, rfl⟩ | ⟨-, rfl⟩ := block_after_set ha hb hb' <;> exact .of_eq rfl rfl
  · obtain ⟨a, hl, e⟩ := exec_effect h hedge
    obtain ⟨c, hblocks, hc⟩ := effect_txKept e hi
    obtain ⟨-, rfl, rfl⟩ | ⟨-, rfl⟩ := block_after_set hl.1 hb (hblocks ▸ hb')
    · exact hc
    · exact .of_eq rfl rfl

/-! The transition table (R229). -/

@[simp] theorem gapStep_txState (t : Transmitter) (tUs : Word64) :
    (gapStep t tUs).txState = t.txState := by
  obtain ⟨-, h⟩ | ⟨-, h⟩ := gapStep_cases t tUs <;> rw [h]

/-- The row of a step within a frame: only the end of the last repeat completes the transmission. -/
theorem intervalStep_txState {b : Block} (d : Word32) (tUs : Word64) (ht : b.tx.txState = .transmitting)
    (hi : b.tx.txIdx.toNat < b.tx.seqLen.toNat) :
    (intervalStep b d tUs).tx.txState =
      if d.toNat ≤ (tUs - b.tx.idxStartUs).toNat ∧ b.tx.txIdx.toNat + 1 = b.tx.seqLen.toNat ∧
        b.tx.repeatCount.toNat ≤ b.tx.repeatsDone.toNat
      then .complete else .transmitting := by
  simp only [← add_one_eq_iff hi]
  obtain ⟨hd, -, h⟩ | ⟨hd, -, h⟩ | ⟨hd, -, h⟩ | ⟨-, hne, h⟩ | ⟨-, -, hr, h⟩ | ⟨hd, hlast, hr, h⟩ :=
    intervalStep_cases b d tUs <;> rw [h]
  · exact ht.trans (if_neg fun hc => Nat.not_le.2 hd hc.1).symm
  · exact ht.trans (if_neg fun hc => Nat.not_le.2 hd hc.1).symm
  · exact ht.trans (if_neg fun hc => Nat.not_le.2 hd hc.1).symm
  · exact ht.trans (if_neg fun hc => hne hc.2.1).symm
  · exact ht.trans (if_neg fun hc => Nat.not_le.2 hr hc.2.2).symm
  · exact (if_pos ⟨hd, hlast, hr⟩).symm

section
variable {s t : State} {b b' : Block} (hl : Live s b) (hb' : t.blocks[s.port.block]? = some b')
include hl hb'

/-- An encoded transmission is refused only while one is running already. -/
theorem encoded_txState {xs : List Word32} {len : Nat}
    (e : (b.tx.txState = .transmitting ∧ Ends s b 0#32 .busy t) ∨
      (b.tx.txState ≠ .transmitting ∧ Ends s (startEncoded b xs len s.port.tUs) 1#32 .ok t)) :
    b'.tx.txState = .transmitting := by
  obtain ⟨ht, e⟩ | ⟨-, e⟩ := e <;> rw [e.replaced hl hb' rfl rfl]
  · exact ht
  · rfl

theorem txRaw_txState {base len : Word16} (e : Effect s b t (.txRaw base len)) :
    b'.tx.txState =
      if len.toNat ≠ 0 ∧ len.toNat ≤ 128 ∧ base.toNat + len.toNat ≤ s.params.hostseqWords
      then .transmitting else b.tx.txState := by
  obtain ⟨ht, e⟩ | ⟨-, hbad, e⟩ | ⟨-, h1, h2, h3, e⟩ := e <;> rw [e.replaced hl hb' rfl rfl]
  · rw [ht, ite_self]
    exact ht
  · rw [if_neg (by omega)]
    rfl
  · rw [if_pos ⟨Nat.ne_of_gt h1, h2, h3⟩]
    rfl

end

/-- Settles O47. The starts' rows are read from `Effect`, those of TX_UPDATE from what it makes of each
state, and the last from `exec_txKept`. -/
theorem transmitterTransitions : Obligations.TransmitterTransitions := by
  intro i s t b b' hl h hb'
  have heffect (hi : i ≠ .edge) : Effect s b t i := by
    obtain ⟨a, ha, e⟩ := exec_effect h hi
    rwa [hl.unique ha.1] at e
  have hafter {u c} (hrun : exec i s = .next (withSelf u (replied c 0#32 .ok)))
      (hu : u.blocks = s.blocks) (hp : u.port = s.port) : b' = replied c 0#32 .ok :=
    (ends_of_exec h hrun).replaced hl hb' hu hp
  refine ⟨fun hi => ?_, fun base len hi => ?_, fun hi ht => ?_, fun hi ht hs => ?_,
    fun hi ht hs hg => ?_, fun d n hi hf hlt hc => ?_, fun h1 h2 h3 h4 h5 => ?_⟩
  · obtain ⟨c, rfl⟩ | ⟨c, rfl⟩ | ⟨c, rfl⟩ := hi <;> exact encoded_txState hl hb' (heffect nofun)
  · subst hi
    exact txRaw_txState hl hb' (heffect nofun)
  · subst hi
    cases hst : b.tx.txState with
    | idle => rw [hafter (execTxUpdate_of_idle hl hst) rfl rfl]; exact hst
    | transmitting => exact absurd hst ht
    | complete => rw [hafter (execTxUpdate_of_result hl (.inl hst)) rfl rfl]; rfl
    | error => rw [hafter (execTxUpdate_of_result hl (.inr hst)) rfl rfl]; rfl
  · subst hi
    rw [hafter (execTxUpdate_of_noSequence hl ht hs) rfl rfl, errorStep_eq]
    rfl
  · subst hi
    rw [hafter (execTxUpdate_of_gap hl ht hs hg) rfl rfl]
    exact (gapStep_txState ..).trans ht
  · subst hi
    rw [hafter (execTxUpdate_of_inFrame hl hf hc) rfl rfl]
    exact intervalStep_txState d s.port.tUs hf.1 hlt
  · refine (exec_txKept h h5 hl.1 hb').1 ?_
    cases i with
    | txNec c => exact absurd rfl (h1 c)
    | txRc5 c => exact absurd rfl (h2 c)
    | txSony c => exact absurd rfl (h3 c)
    | txRaw base len => exact absurd rfl (h4 base len)
    | _ => rfl

/-! Intervals, the gap and the pin (R249, R250). -/

theorem intervalStep_txIdx_of_early {b : Block} {d : Word32} {tUs : Word64}
    (h : (tUs - b.tx.idxStartUs).toNat < d.toNat) :
    (intervalStep b d tUs).tx.txIdx = b.tx.txIdx := by
  obtain hm | hm := Nat.mod_two_eq_zero_or_one b.tx.txIdx.toNat
  · rw [intervalStep_of_mark h hm]
    obtain hc | hc := carrier_cases b.tx tUs <;> rw [hc]
  · rw [intervalStep_of_space h hm]

/-- Settles O48. Before its time has passed an interval's step keeps the index, and the gap's step keeps
the gap. -/
theorem intervalsAreNeverShortened : Obligations.IntervalsAreNeverShortened := by
  intro s t b b' d n hl h hb'
  refine ⟨fun hf hc hmoved => Nat.le_of_not_lt fun hearly => hmoved ?_, fun ht hg hended => ?_⟩
  · rw [(ends_of_exec h (execTxUpdate_of_inFrame hl hf hc)).replaced hl hb' rfl rfl]
    exact intervalStep_txIdx_of_early hearly
  · by_cases hs : b.tx.seqSrc = .none
    · rw [(ends_of_exec h (execTxUpdate_of_noSequence hl ht hs)).replaced hl hb' rfl rfl,
        errorStep_eq] at hended
      exact absurd (hg.symm.trans hended) nofun
    · rw [(ends_of_exec h (execTxUpdate_of_gap hl ht hs hg)).replaced hl hb' rfl rfl] at hended
      obtain ⟨-, hstep⟩ | ⟨hlate, -⟩ := gapStep_cases b.tx s.port.tUs
      · rw [hstep] at hended
        exact absurd (hg.symm.trans hended) nofun
      · exact hlate

/-- Within a frame only the carrier's toggle can raise the pin, and it keeps the index (R242). -/
theorem intervalStep_rises {b : Block} {d : Word32} {tUs : Word64} (hlow : b.tx.txPin = false)
    (hhigh : (intervalStep b d tUs).tx.txPin = true) :
    b.tx.txIdx.toNat % 2 = 0 ∧ (intervalStep b d tUs).tx.txIdx = b.tx.txIdx := by
  obtain ⟨-, hm, h⟩ | ⟨-, hm, h⟩ | ⟨-, -, h⟩ | ⟨-, -, h⟩ | ⟨-, -, -, h⟩ | ⟨-, -, -, h⟩ :=
    intervalStep_cases b d tUs <;> rw [h] at hhigh ⊢
  · exact ⟨hm, rfl⟩
  · exact ⟨hm, rfl⟩
  · cases hhigh
  · exact absurd (hlow.symm.trans hhigh) nofun
  · cases hhigh
  · cases hhigh

@[simp] theorem gapStep_txPin (t : Transmitter) (tUs : Word64) :
    (gapStep t tUs).txPin = false := by
  obtain ⟨-, h⟩ | ⟨-, h⟩ := gapStep_cases t tUs <;> rw [h]

/-- Outside a frame TX_UPDATE leaves the pin as it is or drives it low. -/
theorem txUpdate_rises {s t : State} {b b' : Block} (hl : Live s b)
    (hb' : t.blocks[s.port.block]? = some b') (e : Effect s b t .txUpdate)
    (hlow : b.tx.txPin = false) (hhigh : b'.tx.txPin = true) :
    InFrame b.tx ∧ b.tx.txIdx.toNat % 2 = 0 ∧ b'.tx.txIdx = b.tx.txIdx := by
  obtain ⟨-, e⟩ | ⟨-, e⟩ | ⟨-, -, e⟩ | ⟨-, -, -, e⟩ | ⟨hf, d, n, -, e⟩ := e <;>
    obtain rfl := e.replaced hl hb' rfl rfl
  · exact absurd (hlow.symm.trans hhigh) nofun
  · exact absurd (hlow.symm.trans hhigh) nofun
  · rw [errorStep_eq] at hhigh
    cases hhigh
  · exact absurd ((gapStep_txPin ..).symm.trans hhigh) nofun
  · exact ⟨hf, intervalStep_rises hlow hhigh⟩

/-- Settles O49. -/
theorem pinRisesOnlyInMarks : Obligations.PinRisesOnlyInMarks := by
  intro i s t k b b' h hb hb' hlow hhigh
  by_cases hi : i = .txUpdate
  · subst hi
    obtain ⟨a, hl, e⟩ := exec_effect h nofun
    obtain ⟨u, c, hblocks, hport, -, -, -, ht⟩ := effect_shape e
    obtain ⟨rfl, rfl, -⟩ | ⟨-, rfl⟩ := block_after hblocks hport ht hl hb hb'
    · exact ⟨rfl, rfl, txUpdate_rises hl hb' e hlow hhigh⟩
    · exact absurd (hlow.symm.trans hhigh) nofun
  · have hkept := (exec_txKept h hi hb hb').2 hlow
    exact absurd (hkept.symm.trans hhigh) nofun

end Sys2Proof.Machine
end

section
/-! SUPPORT. The statement of 44_encoder.md: the entries of `encodeNec` after its 32 positions, and each
encoder's output as a whole. -/

namespace Sys2Proof.Machine

/-- The trailing mark and the 0 µs entry after it (R261, R262) follow the 2 entries of the preamble and the
64 of the positions. -/
theorem encodeNec_getElem?_trailer (c : Word32) (j : Nat) :
    (encodeNec c)[66 + j]? = [562#32, 0#32][j]? := by
  have hlen : ([9000#32, 4500#32] ++ necPairs c 32).length = 66 := by simp [length_necPairs]
  rw [encodeNec, List.getElem?_append_right (by omega), hlen, Nat.add_sub_cancel_left]

/-- Settles O37: preamble and positions are `encodeNec_get` and `encodeSony_get`; the RC5 output is constant
because both halves of a bit last equally long. -/
theorem encoderOutputs : Obligations.EncoderOutputs := by
  refine ⟨fun c => ?_, fun c => ⟨length_encodeSony c, encodeSony_get c⟩, encodeRc5_eq⟩
  obtain ⟨hmark, hspace, hpositions⟩ := encodeNec_get c
  exact ⟨length_encodeNec c, hmark, hspace, hpositions,
    encodeNec_getElem?_trailer c 0, encodeNec_getElem?_trailer c 1⟩

end Sys2Proof.Machine
end

section
/-! SUPPORT. The statements of 60_exceptions.md: every input with a move completes, how each command is
answered, who notifies, and what the instances and the two sides of an instance leave of each other. -/

namespace Sys2Proof.Machine

/-! Completion (R305). -/

/-- To a live instance an input is refused only where its rule refuses it. -/
theorem refused_of_onSelf {s : State} {b : Block} {f : Block → Host.Outcome State Fault Refusal}
    {r : Refusal} (hl : Live s b) (h : onSelf s f = .refused r) : f b = .refused r := by
  rwa [onSelf_of_live hl] at h

theorem execEdge_not_refused {s : State} {r : Refusal} : execEdge s ≠ .refused r := by
  intro h
  unfold execEdge at h
  split at h
  · cases h
  · split at h
    · cases h
    · split at h
      · cases h
      · split at h <;> cases h

theorem execRxUpdate_not_refused {s : State} {b : Block} {r : Refusal} (hl : Live s b) :
    execRxUpdate s ≠ .refused r := by
  intro h
  have h := refused_of_onSelf hl h
  split at h
  · cases h
  · split at h
    · split at h <;> cases h
    · split at h <;> cases h
  · cases h
  · cases h
  · cases h

theorem execTxUpdate_not_refused {s : State} {b : Block} {r : Refusal} (hl : Live s b) :
    execTxUpdate s ≠ .refused r := by
  intro h
  have h := refused_of_onSelf hl h
  split at h
  · cases h
  · cases h
  · cases h
  · split at h
    · cases h
    · split at h
      · cases h
      · split at h <;> cases h

/-- No instruction's rule refuses a live instance. -/
theorem exec_not_refused {i : Instr} {s : State} {b : Block} {r : Refusal} (hl : Live s b) :
    exec i s ≠ .refused r := by
  cases i with
  | rxUpdate => exact execRxUpdate_not_refused hl
  | txUpdate => exact execTxUpdate_not_refused hl
  | edge => exact execEdge_not_refused
  | rxStart | rxStartPeriodic _ | txRaw _ _ =>
    intro h
    have h := refused_of_onSelf hl h
    split at h
    · cases h
    · split at h <;> cases h
  | rxGetRaw _ =>
    intro h
    have h := refused_of_onSelf hl h
    split at h
    · split at h <;> cases h
    · cases h
  | rxSetTimeout _ | txSetCarrier _ | txNec _ | txRc5 _ | txSony _ =>
    intro h
    have h := refused_of_onSelf hl h
    split at h <;> cases h
  | rxStop | rxStopPeriodic | rxIsReceiving | rxIsDetected | rxGetCode | rxGetProtocol
  | rxGetRawLen | rxSetCallback _ | rxSetMinPw _ | rxSetMaxPw _ | txIsTransmitting | txIsComplete
  | txSetCallback _ | txSetPower _ | txSetRepeat _ | teardown =>
    intro h
    cases refused_of_onSelf hl h

/-- From a state with the invariants an edge, and every instruction to a live instance, completes. -/
theorem exec_completes {i : Instr} {s : State} (hI : Inv s) (hm : i = .edge ∨ ∃ b, Live s b) :
    ∃ t, exec i s = .next t := by
  cases hx : exec i s with
  | next t => exact ⟨t, rfl⟩
  | fault r => exact absurd hx (exec_no_fault hI)
  | refused r =>
    obtain rfl | ⟨b, hl⟩ := hm
    · exact absurd hx execEdge_not_refused
    · exact absurd hx (exec_not_refused hl)

/-- Settles O14: the invariants leave no fault (`exec_no_fault`), a live instance no refusal
(`exec_not_refused`). -/
theorem everyInputWithAMoveCompletes : Obligations.EveryInputWithAMoveCompletes := by
  intro s hI hmove
  rcases hin : s.inputs with _ | ⟨i, rest⟩
  · exact ⟨s, step_of_no_input hin⟩
  · obtain ⟨hwf, hlive⟩ := hmove i rest hin
    have hIt := inv_taken hI i rest
    rw [step_of_input hin]
    cases i with
    | cmd k w tUs tMs =>
      cases hd : decode (.command w) with
      | instr ins =>
        rw [runInput_cmd hd]
        exact exec_completes hIt (.inr hlive)
      | illegal why =>
        obtain ⟨b, hl⟩ := hlive
        simp only [runInput, hd]
        exact ⟨_, illegalWord_of_live (s := taken s (.cmd k w tUs tMs) rest) hl⟩
    | edge pin tUs => exact exec_completes hIt (.inl rfl)
    | teardown k tUs => exact exec_completes (i := .teardown) hIt (.inr hlive)
    | hostWrite a v => exact ⟨_, hostWrite_of_lt _ v (of_decide_eq_true hwf)⟩

/-! How a command is answered (R300, R302, R303). -/

/-- What makes instruction `i`, taken by instance `b` of `s`, answer BUSY. -/
def BusyCause (s : State) (b : Block) : Instr → Prop
  | .rxStart | .rxStartPeriodic _ => b.rx.rxState = .receiving ∨ ¬PinFreeOrOwn s b
  | .txNec _ | .txRc5 _ | .txSony _ | .txRaw _ _ => b.tx.txState = .transmitting
  | _ => False

/-- What makes it answer INVALID_CONFIG. -/
def ConfigCause (s : State) (b : Block) : Instr → Prop
  | .rxSetTimeout ms => ms.toNat < 100 ∨ 10000 < ms.toNat
  | .txSetCarrier f => f.toNat < 30000 ∨ 60000 < f.toNat
  | .txRaw base len => b.tx.txState ≠ .transmitting ∧
      (len.toNat = 0 ∨ 128 < len.toNat ∨ s.params.hostseqWords < base.toNat + len.toNat)
  | .rxGetRaw j => b.rx.rawLen.toNat ≤ j.toNat
  | _ => False

theorem busyCause_iff {s : State} {b : Block} {i : Instr} : BusyCause s b i ↔
    ((i = .rxStart ∨ ∃ h, i = .rxStartPeriodic h) ∧
      (b.rx.rxState = .receiving ∨ ¬PinFreeOrOwn s b)) ∨
    (((∃ c, i = .txNec c) ∨ (∃ c, i = .txRc5 c) ∨ (∃ c, i = .txSony c) ∨
      ∃ base len, i = .txRaw base len) ∧ b.tx.txState = .transmitting) := by
  cases i <;> simp [BusyCause]

theorem configCause_iff {s : State} {b : Block} {i : Instr} : ConfigCause s b i ↔
    (∃ ms, i = .rxSetTimeout ms ∧ (ms.toNat < 100 ∨ 10000 < ms.toNat)) ∨
    (∃ f, i = .txSetCarrier f ∧ (f.toNat < 30000 ∨ 60000 < f.toNat)) ∨
    (∃ base len, i = .txRaw base len ∧ b.tx.txState ≠ .transmitting ∧
      (len.toNat = 0 ∨ 128 < len.toNat ∨ s.params.hostseqWords < base.toNat + len.toNat)) ∨
    (∃ j, i = .rxGetRaw j ∧ b.rx.rawLen.toNat ≤ j.toNat) := by
  cases i <;> simp [ConfigCause]

/-- BUSY goes before INVALID_CONFIG (R303). -/
theorem BusyCause.not_configCause {s : State} {b : Block} {i : Instr} (h : BusyCause s b i) :
    ¬ConfigCause s b i := by
  cases i with
  | txRaw base len => exact fun hc => hc.1 h
  | rxStart | rxStartPeriodic _ | txNec _ | txRc5 _ | txSony _ => exact id
  | _ => exact h.elim

/-- How instruction `i`, taken by the live instance `b` of `s`, is answered in `t`: with OK and whatever
else it does, or refused by its cause, with RES 0 and nothing changed but the response. -/
inductive Answered (s : State) (b : Block) (t : State) (i : Instr) : Prop
  | ok {u : State} {c : Block} {res : Word32} (e : Ends u c res .ok t) (hu : u.blocks = s.blocks)
      (hp : u.port = s.port) (hc : c.responses = b.responses) (hbusy : ¬BusyCause s b i)
      (hconfig : ¬ConfigCause s b i)
  | busy (e : Ends s b 0#32 .busy t) (h : BusyCause s b i)
  | invalidConfig (e : Ends s b 0#32 .invalidConfig t) (h : ConfigCause s b i)

/-- Every case in which a command can end is one of the three. -/
theorem effect_answered {i : Instr} {s t : State} {b : Block} (e : Effect s b t i)
    (hi : i ≠ .teardown) : Answered s b t i := by
  cases i with
  | rxStart | rxStartPeriodic _ =>
    obtain ⟨hbusy, e⟩ | ⟨hr, hf, e⟩ := e
    · exact .busy e hbusy
    · exact .ok e rfl rfl rfl (not_or.2 ⟨hr, not_not.2 hf⟩) id
  | rxStop | rxStopPeriodic => exact .ok e (unbindPin_blocks s b) (unbindPin_port s b) rfl id id
  | rxUpdate =>
    obtain ⟨-, e⟩ | ⟨-, -, b', hd, e⟩ | ⟨-, -, -, e⟩ | ⟨-, -, -, e⟩ | ⟨-, -, e⟩ | ⟨-, -, e⟩ := e
    · exact .ok e rfl rfl rfl id id
    · exact .ok e rfl rfl (decodeStep_responses hd) id id
    · exact .ok e rfl rfl (timeoutStep_responses b) id id
    · exact .ok e rfl rfl rfl id id
    · exact .ok e rfl rfl rfl id id
    · exact .ok e (unbindPin_blocks s b) (unbindPin_port s b) rfl id id
  | rxGetRaw _ =>
    obtain ⟨hlt, v, -, e⟩ | ⟨hle, e⟩ := e
    · exact .ok e rfl rfl rfl id (Nat.not_le.2 hlt)
    · exact .invalidConfig e hle
  | rxSetTimeout _ | txSetCarrier _ =>
    obtain ⟨hlo, hhi, e⟩ | ⟨hout, e⟩ := e
    · exact .ok e rfl rfl rfl id (not_or.2 ⟨Nat.not_lt.2 hlo, Nat.not_lt.2 hhi⟩)
    · exact .invalidConfig e hout
  | rxSetCallback _ | rxSetMinPw _ | rxSetMaxPw _ | txSetCallback _ | txSetPower _
  | txSetRepeat _ => exact .ok e rfl rfl rfl id id
  | rxIsReceiving | rxIsDetected | rxGetCode | rxGetProtocol | rxGetRawLen | txIsTransmitting
  | txIsComplete =>
    obtain ⟨res, e⟩ := e
    exact .ok e rfl rfl rfl id id
  | txNec _ | txRc5 _ | txSony _ =>
    obtain ⟨ht, e⟩ | ⟨ht, e⟩ := e
    · exact .busy e ht
    · exact .ok e rfl rfl rfl ht id
  | txRaw _ _ =>
    obtain ⟨ht, e⟩ | ⟨ht, hbad, e⟩ | ⟨ht, h1, h2, h3, e⟩ := e
    · exact .busy e ht
    · exact .invalidConfig e ⟨ht, hbad⟩
    · exact .ok e rfl rfl rfl ht (fun hc => by obtain ⟨-, hbad⟩ := hc; omega)
  | txUpdate =>
    obtain ⟨-, e⟩ | ⟨-, e⟩ | ⟨-, -, e⟩ | ⟨-, -, -, e⟩ | ⟨-, d, n, -, e⟩ := e
    · exact .ok e rfl rfl rfl id id
    · exact .ok e rfl rfl rfl id id
    · exact .ok e rfl rfl (errorStep_responses ..) id id
    · exact .ok e rfl rfl rfl id id
    · exact .ok e rfl rfl (intervalStep_responses ..) id id
  | edge => exact e.elim
  | teardown => exact absurd rfl hi

theorem not_added_of_kept {xs ys : List Response} {r : Response} (hk : ys = xs)
    (hr : ys = xs ++ [r]) : False := by
  simp [hk] at hr

/-- An instruction that adds a response to the addressed instance is a command, and answers as one. -/
theorem exec_answered {i : Instr} {s t : State} {b b' : Block} {r : Response}
    (h : exec i s = .next t) (hb : s.blocks[s.port.block]? = some b)
    (hb' : t.blocks[s.port.block]? = some b') (hr : b'.responses = b.responses ++ [r]) :
    Live s b ∧ Answered s b t i := by
  have hside : sideOf i ≠ .neither := fun hn =>
    not_added_of_kept ((oneResponsePerCommand i s t _ b b' h hb hb').2 (.inl hn)) hr
  obtain ⟨hedge, hteardown⟩ : i ≠ .edge ∧ i ≠ .teardown := by
    rwa [ne_eq, sideOf_eq_neither_iff, not_or] at hside
  obtain ⟨a, hl, e⟩ := exec_effect h hedge
  obtain rfl := hl.unique hb
  exact ⟨hl, effect_answered e hteardown⟩

/-- The response that an end adds is the one it ends with. -/
theorem Ends.response {s u t : State} {b b' c : Block} {res : Word32} {stat : Status} {r : Response}
    (e : Ends u c res stat t) (hl : Live s b) (hb' : t.blocks[s.port.block]? = some b')
    (hu : u.blocks = s.blocks) (hp : u.port = s.port) (hc : c.responses = b.responses)
    (hr : b'.responses = b.responses ++ [r]) : r = ⟨res, stat⟩ := by
  rw [e.replaced hl hb' hu hp, replied, hc] at hr
  exact (List.cons.inj (List.append_cancel_left hr)).1.symm

/-- Settles O51: of the three ways to be answered, each has its cause and its status. -/
theorem statusOfEachCommand : Obligations.StatusOfEachCommand := by
  intro i s t b b' r hl h hb' hr
  rw [← busyCause_iff, ← configCause_iff]
  obtain ⟨-, ⟨e, hu, hp, hc, hbusy, hconfig⟩ | ⟨e, hbusy⟩ | ⟨e, hconfig⟩⟩ :=
    exec_answered h hl.1 hb' hr
  · obtain rfl := e.response hl hb' hu hp hc hr
    exact ⟨fun hs => absurd rfl hs, nofun, ⟨nofun, fun h => absurd h hbusy⟩,
      ⟨nofun, fun h => absurd h hconfig⟩⟩
  · obtain rfl := e.response hl hb' rfl rfl rfl hr
    exact ⟨fun _ => rfl, nofun, ⟨fun _ => hbusy, fun _ => rfl⟩,
      ⟨nofun, fun h => absurd h hbusy.not_configCause⟩⟩
  · obtain rfl := e.response hl hb' rfl rfl rfl hr
    exact ⟨fun _ => rfl, nofun, ⟨nofun, fun h => absurd hconfig h.not_configCause⟩,
      ⟨fun _ => hconfig, fun _ => rfl⟩⟩

/-- An instruction whose response is not OK adds that response, with RES 0, and changes nothing else. -/
theorem exec_of_rejected {i : Instr} {s t : State} {b b' : Block} {r : Response}
    (h : exec i s = .next t) (hb : s.blocks[s.port.block]? = some b)
    (hb' : t.blocks[s.port.block]? = some b') (hr : b'.responses = b.responses ++ [r])
    (hs : r.stat ≠ .ok) : t = withSelf s (replied b 0#32 r.stat) := by
  obtain ⟨hl, ⟨e, hu, hp, hc, -, -⟩ | ⟨e, -⟩ | ⟨e, -⟩⟩ := exec_answered h hb hb' hr
  · rw [e.response hl hb' hu hp hc hr] at hs
    exact absurd rfl hs
  · rw [e.response hl hb' rfl rfl rfl hr]
    exact e
  · rw [e.response hl hb' rfl rfl rfl hr]
    exact e

theorem illegalWord_of_response {s t : State} {b b' : Block} {r : Response}
    (h : illegalWord s = .next t) (hb : s.blocks[s.port.block]? = some b)
    (hb' : t.blocks[s.port.block]? = some b') (hr : b'.responses = b.responses ++ [r]) :
    t = withSelf s (replied b 0#32 r.stat) := by
  obtain ⟨a, hl, e⟩ := illegalWord_eq_next h
  obtain rfl := hl.unique hb
  rw [e.response hl hb' rfl rfl rfl hr]
  exact e

/-- Settles O52: a word that decodes is `exec_of_rejected`, an illegal one `illegalWord_of_response`. -/
theorem rejectedCommandsWriteNothing : Obligations.RejectedCommandsWriteNothing := by
  intro s t k w tUs tMs rest b b' r hin h hb hb' hr hs
  change t = withSelf (taken s (.cmd k w tUs tMs) rest) (replied b 0#32 r.stat)
  rw [step_of_input hin] at h
  cases hd : decode (.command w) with
  | instr ins =>
    rw [runInput_cmd hd] at h
    exact exec_of_rejected h hb hb' hr hs
  | illegal why =>
    simp only [runInput, hd] at h
    exact illegalWord_of_response h hb hb' hr

/-! Notifications (R309). -/

/-- The change from instance `b` to `c` is a decode step or a timeout step. -/
def RxOutcome (b c : Block) : Prop :=
  b.rx.rxState = .receiving ∧ (c.rx.rxState = .signalDetected ∨ c.rx.rxState = .timeout)

/-- The change from instance `b` to `c` ends a transmission. -/
def TxOutcome (b c : Block) : Prop :=
  b.tx.txState = .transmitting ∧ (c.tx.txState = .complete ∨ c.tx.txState = .error)

/-- The RX event of such a step, if a callback is set. -/
def rxEvents (b c : Block) : List Notification :=
  if b.rx.rxCb = 0#32 then [] else [.rx b.rx.rxCb c.rx.rxCode c.rx.rxProto c.rx.rxValid]

/-- The TX event of such an end, if a callback is set. -/
def txEvents (b c : Block) : List Notification :=
  if b.tx.txCb = 0#32 then [] else [.tx b.tx.txCb (decide (c.tx.txState = .complete))]

/-- The change from `b` to `c` emits `events` when `outcome` holds, and nothing otherwise. -/
def Notified (b c : Block) (outcome : Prop) (events : List Notification) : Prop :=
  (outcome → c.notifs = b.notifs ++ events) ∧ (¬outcome → c.notifs = b.notifs)

theorem Notified.of_outcome {b c : Block} {p : Prop} {ev : List Notification} (hp : p)
    (h : c.notifs = b.notifs ++ ev) : Notified b c p ev :=
  ⟨fun _ => h, fun hn => absurd hp hn⟩

theorem Notified.of_none {b c : Block} {p : Prop} {ev : List Notification} (hp : ¬p)
    (h : c.notifs = b.notifs) : Notified b c p ev :=
  ⟨fun hn => absurd hn hp, fun _ => h⟩

theorem append_ite_nil {α : Type} (p : Prop) [Decidable p] (xs ys : List α) :
    (if p then xs else xs ++ ys) = xs ++ if p then [] else ys := by
  split
  · exact (List.append_nil xs).symm
  · rfl

theorem rxUpdate_notified {s t : State} {b b' : Block} (hl : Live s b)
    (hb' : t.blocks[s.port.block]? = some b') (e : Effect s b t .rxUpdate) :
    Notified b b' (RxOutcome b b') (rxEvents b b') := by
  obtain ⟨hr, e⟩ | ⟨hr, -, c, hd, e⟩ | ⟨hr, -, -, e⟩ | ⟨hr, -, -, e⟩ | ⟨hr, -, e⟩ | ⟨hr, -, e⟩ := e
  · obtain rfl := e.replaced hl hb' rfl rfl
    exact .of_none (fun ho => by simp [RxOutcome, hr] at ho) rfl
  · obtain rfl := e.replaced hl hb' rfl rfl
    obtain ⟨xs, -, rfl⟩ := decodeStep_eq_ok hd
    exact .of_outcome ⟨hr, .inl rfl⟩ (append_ite_nil ..)
  · obtain rfl := e.replaced hl hb' rfl rfl
    rw [timeoutStep_eq]
    exact .of_outcome ⟨hr, .inr rfl⟩ (append_ite_nil ..)
  · obtain rfl := e.replaced hl hb' rfl rfl
    exact .of_none (fun ho => by simp [RxOutcome, replied, hr] at ho) rfl
  · obtain rfl := e.replaced hl hb' rfl rfl
    exact .of_none (fun ho => by simp [RxOutcome, replied] at ho) rfl
  · obtain rfl := e.replaced hl hb' (unbindPin_blocks s b) (unbindPin_port s b)
    exact .of_none (fun ho => by simp [RxOutcome, replied] at ho) rfl

/-- Within a frame only the end of the last repeat notifies. -/
theorem intervalStep_notified {b : Block} (d : Word32) (tUs : Word64)
    (ht : b.tx.txState = .transmitting) :
    Notified b (intervalStep b d tUs) (TxOutcome b (intervalStep b d tUs))
      (txEvents b (intervalStep b d tUs)) := by
  obtain ⟨-, -, h⟩ | ⟨-, -, h⟩ | ⟨-, -, h⟩ | ⟨-, -, h⟩ | ⟨-, -, -, h⟩ | ⟨-, -, -, h⟩ :=
    intervalStep_cases b d tUs <;> rw [h]
  · exact .of_none (fun ho => by simp [TxOutcome, ht] at ho) rfl
  · exact .of_none (fun ho => by simp [TxOutcome, ht] at ho) rfl
  · exact .of_none (fun ho => by simp [TxOutcome, ht] at ho) rfl
  · exact .of_none (fun ho => by simp [TxOutcome, ht] at ho) rfl
  · exact .of_none (fun ho => by simp [TxOutcome, ht] at ho) rfl
  · exact .of_outcome ⟨ht, .inl rfl⟩ (append_ite_nil ..)

theorem txUpdate_notified {s t : State} {b b' : Block} (hl : Live s b)
    (hb' : t.blocks[s.port.block]? = some b') (e : Effect s b t .txUpdate) :
    Notified b b' (TxOutcome b b') (txEvents b b') := by
  obtain ⟨hr, e⟩ | ⟨-, e⟩ | ⟨ht, -, e⟩ | ⟨ht, -, -, e⟩ | ⟨hf, d, n, -, e⟩ := e <;>
    obtain rfl := e.replaced hl hb' rfl rfl
  · exact .of_none (fun ho => by simp [TxOutcome, hr] at ho) rfl
  · exact .of_none (fun ho => by simp [TxOutcome, replied] at ho) rfl
  · rw [errorStep_eq]
    exact .of_outcome ⟨ht, .inr rfl⟩ (append_ite_nil ..)
  · exact .of_none (fun ho => by simp [TxOutcome, replied, ht] at ho) rfl
  · exact intervalStep_notified d s.port.tUs hf.1

/-- An end that replaces the addressed instance by `c` adds no notification of its own. -/
theorem Ends.keeps_notifs {s u t : State} {b c : Block} {res : Word32} {stat : Status}
    (e : Ends u c res stat t) (hu : u.blocks = s.blocks) (hp : u.port = s.port)
    (hc : c.notifs = b.notifs) :
    ∃ c', t.blocks = s.blocks.set s.port.block c' ∧ c'.notifs = b.notifs :=
  ⟨replied c res stat, by rw [e, withSelf, hu, hp], hc⟩

theorem effect_keeps_notifs {i : Instr} {s t : State} {b : Block} (e : Effect s b t i)
    (hrx : i ≠ .rxUpdate) (htx : i ≠ .txUpdate) :
    ∃ c, t.blocks = s.blocks.set s.port.block c ∧ c.notifs = b.notifs := by
  cases i with
  | rxStart | rxStartPeriodic _ =>
    obtain ⟨-, e⟩ | ⟨-, -, e⟩ := e <;> exact e.keeps_notifs rfl rfl rfl
  | rxStop | rxStopPeriodic =>
    exact Ends.keeps_notifs e (unbindPin_blocks s b) (unbindPin_port s b) rfl
  | rxUpdate => exact absurd rfl hrx
  | rxGetRaw _ =>
    obtain ⟨-, v, -, e⟩ | ⟨-, e⟩ := e <;> exact e.keeps_notifs rfl rfl rfl
  | rxSetTimeout _ | txSetCarrier _ =>
    obtain ⟨-, -, e⟩ | ⟨-, e⟩ := e <;> exact e.keeps_notifs rfl rfl rfl
  | rxSetCallback _ | rxSetMinPw _ | rxSetMaxPw _ | txSetCallback _ | txSetPower _
  | txSetRepeat _ => exact Ends.keeps_notifs e rfl rfl rfl
  | rxIsReceiving | rxIsDetected | rxGetCode | rxGetProtocol | rxGetRawLen | txIsTransmitting
  | txIsComplete =>
    obtain ⟨res, e⟩ := e
    exact e.keeps_notifs rfl rfl rfl
  | txNec _ | txRc5 _ | txSony _ =>
    obtain ⟨-, e⟩ | ⟨-, e⟩ := e <;> exact e.keeps_notifs rfl rfl rfl
  | txRaw _ _ =>
    obtain ⟨-, e⟩ | ⟨-, -, e⟩ | ⟨-, -, -, -, e⟩ := e <;> exact e.keeps_notifs rfl rfl rfl
  | txUpdate => exact absurd rfl htx
  | edge => exact e.elim
  | teardown =>
    refine ⟨tornDown b s.port.tUs, ?_, rfl⟩
    rw [show t = _ from e, withSelf, unbindPin_blocks, unbindPin_port, tornDown]

theorem exec_keeps_notifs {i : Instr} {s t : State} {k : Nat} {b b' : Block}
    (h : exec i s = .next t) (hrx : i ≠ .rxUpdate) (htx : i ≠ .txUpdate)
    (hb : s.blocks[k]? = some b) (hb' : t.blocks[k]? = some b') : b'.notifs = b.notifs := by
  by_cases hedge : i = .edge
  · subst hedge
    obtain rfl | ⟨j, a, r, -, ha, -, -, rfl⟩ := execEdge_cases h
    · rw [Option.some.inj (hb.symm.trans hb')]
    · obtain ⟨-, rfl, rfl⟩ | ⟨-, rfl⟩ := block_after_set ha hb hb' <;> rfl
  · obtain ⟨a, hl, e⟩ := exec_effect h hedge
    obtain ⟨c, hblocks, hc⟩ := effect_keeps_notifs e hrx htx
    obtain ⟨-, rfl, rfl⟩ | ⟨-, rfl⟩ := block_after_set hl.1 hb (hblocks ▸ hb')
    · exact hc
    · rfl

/-- An instruction other than an edge changes no instance but the one it addresses (R322). -/
theorem exec_keeps_others {i : Instr} {s t : State} {k : Nat} {b b' : Block}
    (h : exec i s = .next t) (hi : i ≠ .edge) (hk : k ≠ s.port.block)
    (hb : s.blocks[k]? = some b) (hb' : t.blocks[k]? = some b') : b' = b := by
  obtain ⟨a, hl, e⟩ := exec_effect h hi
  obtain ⟨u, c, hblocks, hport, -, -, -, ht⟩ := effect_shape e
  obtain ⟨hk', -⟩ | ⟨-, hsame⟩ := block_after hblocks hport ht hl hb hb'
  · exact absurd hk' hk
  · exact hsame

theorem exec_rxUpdate_notified {s t : State} {k : Nat} {b b' : Block}
    (h : exec .rxUpdate s = .next t) (hb : s.blocks[k]? = some b) (hb' : t.blocks[k]? = some b') :
    Notified b b' (k = s.port.block ∧ RxOutcome b b') (rxEvents b b') := by
  by_cases hk : k = s.port.block
  · subst hk
    obtain ⟨a, hl, e⟩ := exec_effect h nofun
    obtain rfl := hl.unique hb
    simpa only [true_and] using rxUpdate_notified hl hb' e
  · exact .of_none (fun ho => hk ho.1) (congrArg _ (exec_keeps_others h nofun hk hb hb'))

theorem exec_txUpdate_notified {s t : State} {k : Nat} {b b' : Block}
    (h : exec .txUpdate s = .next t) (hb : s.blocks[k]? = some b) (hb' : t.blocks[k]? = some b') :
    Notified b b' (k = s.port.block ∧ TxOutcome b b') (txEvents b b') := by
  by_cases hk : k = s.port.block
  · subst hk
    obtain ⟨a, hl, e⟩ := exec_effect h nofun
    obtain rfl := hl.unique hb
    simpa only [true_and] using txUpdate_notified hl hb' e
  · exact .of_none (fun ho => hk ho.1) (congrArg _ (exec_keeps_others h nofun hk hb hb'))

theorem rxEvents_of_callback {b : Block} (c : Block) (h : b.rx.rxCb ≠ 0#32) :
    rxEvents b c = [.rx b.rx.rxCb c.rx.rxCode c.rx.rxProto c.rx.rxValid] := if_neg h

theorem rxEvents_of_none {b : Block} (c : Block) (h : b.rx.rxCb = 0#32) : rxEvents b c = [] :=
  if_pos h

theorem txEvents_of_callback {b : Block} (c : Block) (h : b.tx.txCb ≠ 0#32) :
    txEvents b c = [.tx b.tx.txCb (decide (c.tx.txState = .complete))] := if_neg h

theorem txEvents_of_none {b : Block} (c : Block) (h : b.tx.txCb = 0#32) : txEvents b c = [] :=
  if_pos h

/-- Settles O53: RX_UPDATE and TX_UPDATE each notify of their own outcome, and nothing else notifies. -/
theorem oneNotificationPerOutcome : Obligations.OneNotificationPerOutcome := by
  intro i s t k b b' h hb hb' rxOutcome txOutcome
  by_cases hrx : i = .rxUpdate
  · subst hrx
    obtain ⟨hemits, hnone⟩ := exec_rxUpdate_notified h hb hb'
    have hout : rxOutcome ↔ k = s.port.block ∧ RxOutcome b b' := by simp [rxOutcome, RxOutcome]
    have hother : ¬txOutcome := fun ho => nomatch ho.2.1
    refine ⟨fun ho hcb => ?_, fun ho => absurd ho hother, fun ho hcb => ?_,
      fun ho => absurd ho hother, fun ho _ => hnone (mt hout.2 ho)⟩
    · rw [hemits (hout.1 ho), rxEvents_of_callback _ hcb]
    · rw [hemits (hout.1 ho), rxEvents_of_none _ hcb, List.append_nil]
  · by_cases htx : i = .txUpdate
    · subst htx
      obtain ⟨hemits, hnone⟩ := exec_txUpdate_notified h hb hb'
      have hout : txOutcome ↔ k = s.port.block ∧ TxOutcome b b' := by simp [txOutcome, TxOutcome]
      have hother : ¬rxOutcome := fun ho => nomatch ho.2.1
      refine ⟨fun ho => absurd ho hother, fun ho hcb => ?_, fun ho => absurd ho hother,
        fun ho hcb => ?_, fun _ ho => hnone (mt hout.2 ho)⟩
      · rw [hemits (hout.1 ho), txEvents_of_callback _ hcb]
      · rw [hemits (hout.1 ho), txEvents_of_none _ hcb, List.append_nil]
    · exact ⟨fun ho => absurd ho.2.1 hrx, fun ho => absurd ho.2.1 htx, fun ho => absurd ho.2.1 hrx,
        fun ho => absurd ho.2.1 htx, fun _ _ => exec_keeps_notifs h hrx htx hb hb'⟩

/-! Instances and sides (R58, R322). -/

/-- An end changes the binding table and the draws only where the state it ends in did. -/
theorem Ends.replaces {s u t : State} {c : Block} {res : Word32} {stat : Status}
    (e : Ends u c res stat t) (hu : u.blocks = s.blocks) (hp : u.port = s.port) :
    t.blocks = s.blocks.set s.port.block (replied c res stat) ∧ t.pinOwner = u.pinOwner ∧
      t.drawCount = u.drawCount := by
  rw [e, withSelf, hu, hp]
  exact ⟨rfl, rfl, rfl⟩

theorem Ends.keepsTx {s u t : State} {b c : Block} {res : Word32} {stat : Status}
    (e : Ends u c res stat t) (hu : u.blocks = s.blocks) (hp : u.port = s.port)
    (hd : u.drawCount = s.drawCount) (hc : c.tx = b.tx) :
    ∃ c', t.blocks = s.blocks.set s.port.block c' ∧ c'.tx = b.tx ∧ t.drawCount = s.drawCount := by
  obtain ⟨hblocks, -, hdraws⟩ := e.replaces hu hp
  exact ⟨_, hblocks, hc, hdraws.trans hd⟩

theorem Ends.keepsRx {s u t : State} {b c : Block} {res : Word32} {stat : Status}
    (e : Ends u c res stat t) (hu : u.blocks = s.blocks) (hp : u.port = s.port)
    (ho : u.pinOwner = s.pinOwner) (hc : c.rx = b.rx) :
    ∃ c', t.blocks = s.blocks.set s.port.block c' ∧ c'.rx = b.rx ∧ t.pinOwner = s.pinOwner := by
  obtain ⟨hblocks, howner, -⟩ := e.replaces hu hp
  exact ⟨_, hblocks, hc, howner.trans ho⟩

/-- A receiver command writes no transmitter, and draws nothing. -/
theorem receiver_keepsTx {i : Instr} {s t : State} {b : Block} (hi : sideOf i = .receiver)
    (e : Effect s b t i) : ∃ c, t.blocks = s.blocks.set s.port.block c ∧ c.tx = b.tx ∧
      t.drawCount = s.drawCount := by
  have hunbind := unbindPin_drawCount s b
  cases i with
  | rxStart | rxStartPeriodic _ =>
    obtain ⟨-, e⟩ | ⟨-, -, e⟩ := e <;> exact e.keepsTx rfl rfl rfl rfl
  | rxStop | rxStopPeriodic =>
    exact Ends.keepsTx e (unbindPin_blocks s b) (unbindPin_port s b) hunbind rfl
  | rxUpdate =>
    obtain ⟨-, e⟩ | ⟨-, -, b', hd, e⟩ | ⟨-, -, -, e⟩ | ⟨-, -, -, e⟩ | ⟨-, -, e⟩ | ⟨-, -, e⟩ := e
    · exact e.keepsTx rfl rfl rfl rfl
    · exact e.keepsTx rfl rfl rfl (decodeStep_tx hd)
    · exact e.keepsTx rfl rfl rfl (timeoutStep_tx b)
    · exact e.keepsTx rfl rfl rfl rfl
    · exact e.keepsTx rfl rfl rfl rfl
    · exact e.keepsTx (unbindPin_blocks s b) (unbindPin_port s b) hunbind rfl
  | rxIsReceiving | rxIsDetected | rxGetCode | rxGetProtocol | rxGetRawLen =>
    obtain ⟨res, e⟩ := e
    exact e.keepsTx rfl rfl rfl rfl
  | rxGetRaw _ =>
    obtain ⟨-, v, -, e⟩ | ⟨-, e⟩ := e <;> exact e.keepsTx rfl rfl rfl rfl
  | rxSetTimeout _ =>
    obtain ⟨-, -, e⟩ | ⟨-, e⟩ := e <;> exact e.keepsTx rfl rfl rfl rfl
  | rxSetCallback _ | rxSetMinPw _ | rxSetMaxPw _ => exact Ends.keepsTx e rfl rfl rfl rfl
  | _ => cases hi

/-- A transmitter command writes no receiver and no binding. -/
theorem transmitter_keepsRx {i : Instr} {s t : State} {b : Block} (hi : sideOf i = .transmitter)
    (e : Effect s b t i) : ∃ c, t.blocks = s.blocks.set s.port.block c ∧ c.rx = b.rx ∧
      t.pinOwner = s.pinOwner := by
  cases i with
  | txNec _ | txRc5 _ | txSony _ =>
    obtain ⟨-, e⟩ | ⟨-, e⟩ := e <;> exact e.keepsRx rfl rfl rfl rfl
  | txRaw _ _ =>
    obtain ⟨-, e⟩ | ⟨-, -, e⟩ | ⟨-, -, -, -, e⟩ := e <;> exact e.keepsRx rfl rfl rfl rfl
  | txUpdate =>
    obtain ⟨-, e⟩ | ⟨-, e⟩ | ⟨-, -, e⟩ | ⟨-, -, -, e⟩ | ⟨-, d, n, -, e⟩ := e
    · exact e.keepsRx rfl rfl rfl rfl
    · exact e.keepsRx rfl rfl rfl rfl
    · exact e.keepsRx rfl rfl rfl (by rw [errorStep_eq])
    · exact e.keepsRx rfl rfl rfl rfl
    · exact e.keepsRx rfl rfl rfl (intervalStep_rx ..)
  | txIsTransmitting | txIsComplete =>
    obtain ⟨res, e⟩ := e
    exact e.keepsRx rfl rfl rfl rfl
  | txSetCarrier _ =>
    obtain ⟨-, -, e⟩ | ⟨-, e⟩ := e <;> exact e.keepsRx rfl rfl rfl rfl
  | txSetCallback _ | txSetPower _ | txSetRepeat _ => exact Ends.keepsRx e rfl rfl rfl rfl
  | _ => cases hi

section
variable {i : Instr} {s t : State} {k : Nat} {b b' : Block} (hb : s.blocks[k]? = some b)
  (hb' : t.blocks[k]? = some b')
include hb hb'

/-- An edge changes no instance but the one its pin is bound to. -/
theorem edge_keeps_unbound (h : execEdge s = .next t) (hk : readCell? s.pinOwner s.port.pin ≠ some k) :
    b' = b := by
  obtain rfl | ⟨j, a, r, hj, ha, -, -, rfl⟩ := execEdge_cases h
  · exact Option.some.inj (hb'.symm.trans hb)
  · obtain ⟨rfl, -, -⟩ | ⟨-, hsame⟩ := block_after_set ha hb hb'
    · exact absurd hj hk
    · exact hsame

theorem edge_keepsTx (h : execEdge s = .next t) : b'.tx = b.tx ∧ t.drawCount = s.drawCount := by
  obtain rfl | ⟨j, a, r, -, ha, -, -, rfl⟩ := execEdge_cases h
  · exact ⟨by rw [Option.some.inj (hb'.symm.trans hb)], rfl⟩
  · obtain ⟨-, rfl, rfl⟩ | ⟨-, rfl⟩ := block_after_set ha hb hb' <;> exact ⟨rfl, rfl⟩

theorem exec_receiver_keepsTx (hi : sideOf i = .receiver) (h : exec i s = .next t) :
    b'.tx = b.tx ∧ t.drawCount = s.drawCount := by
  obtain ⟨a, hl, e⟩ := exec_effect h (by rintro rfl; cases hi)
  obtain ⟨c, hblocks, hc, hdraws⟩ := receiver_keepsTx hi e
  obtain ⟨-, rfl, rfl⟩ | ⟨-, rfl⟩ := block_after_set hl.1 hb (hblocks ▸ hb')
  · exact ⟨hc, hdraws⟩
  · exact ⟨rfl, hdraws⟩

theorem exec_transmitter_keepsRx (hi : sideOf i = .transmitter) (h : exec i s = .next t) :
    b'.rx = b.rx ∧ t.pinOwner = s.pinOwner := by
  obtain ⟨a, hl, e⟩ := exec_effect h (by rintro rfl; cases hi)
  obtain ⟨c, hblocks, hc, howner⟩ := transmitter_keepsRx hi e
  obtain ⟨-, rfl, rfl⟩ | ⟨-, rfl⟩ := block_after_set hl.1 hb (hblocks ▸ hb')
  · exact ⟨hc, howner⟩
  · exact ⟨rfl, howner⟩

end

/-- Settles O54: each clause is the frame of its side or of an edge. -/
theorem instancesAndSidesAreIndependent : Obligations.InstancesAndSidesAreIndependent := by
  intro i s t k b b' h hb hb'
  refine ⟨fun hi hk => exec_keeps_others h hi hk hb hb', fun hi => ?_, fun hi => ?_,
    fun hi => exec_transmitter_keepsRx hb hb' hi h⟩
  · subst hi
    exact edge_keeps_unbound hb hb' h
  · obtain hi | rfl := hi
    · exact exec_receiver_keepsTx hb hb' hi h
    · exact edge_keepsTx hb hb' h

/-! What a side does not read (R16, R322). -/

/-- The outcome `o` with its next state put through `hide`. -/
def hidden (hide : State → State) (o : Host.Outcome State Fault Refusal) :
    Host.Outcome State Fault Refusal :=
  andThen o fun t => .next (hide t)

theorem hidden_ite {hide : State → State} {p : Prop} [Decidable p]
    {x y x' y' : Host.Outcome State Fault Refusal} (hx : x' = hidden hide x)
    (hy : y' = hidden hide y) : (if p then x' else y') = hidden hide (if p then x else y) := by
  split
  · exact hx
  · exact hy

/-- `hide` puts every instance through `f` and leaves the port; `f` keeps the lifecycle bit, and a
response added after it is the same as one added before. -/
structure Hides (hide : State → State) (f : Block → Block) : Prop where
  blocks : ∀ s, (hide s).blocks = s.blocks.map f
  port : ∀ s, (hide s).port = s.port
  put : ∀ s k b, hide (putBlock s k b) = putBlock (hide s) k (f b)
  dead : ∀ b, (f b).dead = b.dead
  respond : ∀ b res stat, f (respond b res stat) = respond (f b) res stat

section
variable {hide : State → State} {f : Block → Block} (H : Hides hide f)
include H

theorem Hides.onSelf {s : State} {m m' : Block → Host.Outcome State Fault Refusal}
    (h : ∀ b, m' (f b) = hidden hide (m b)) :
    Machine.onSelf (hide s) m' = hidden hide (Machine.onSelf s m) := by
  unfold Machine.onSelf self?
  rw [H.blocks, H.port, List.getElem?_map]
  cases s.blocks[s.port.block]? with
  | none => rfl
  | some b =>
    simp only [Option.map_some, H.dead]
    exact hidden_ite rfl (h b)

theorem Hides.answer {u u' : State} {c c' : Block} {res : Word32} {stat : Status}
    (hu : u' = hide u) (hc : c' = f c) :
    Machine.answer u' c' res stat = hidden hide (Machine.answer u c res stat) := by
  subst hu hc
  simp only [Machine.answer, putSelf, ← H.respond, H.port, ← H.put]
  rfl

end

/-- An instance with another receiver. -/
def hideRx (g : Receiver → Receiver) (b : Block) : Block := { b with rx := g b.rx }

/-- A state with other receivers and another binding table. -/
def hideReceivers (g : Receiver → Receiver) (table : Cells Nat) (s : State) : State :=
  { s with blocks := s.blocks.map (hideRx g), pinOwner := table }

section
variable (g : Receiver → Receiver) (table : Cells Nat)

theorem hides_hideReceivers : Hides (hideReceivers g table) (hideRx g) where
  blocks _ := rfl
  port _ := rfl
  put s k b := by simp only [hideReceivers, putBlock, List.map_set]
  dead _ := rfl
  respond _ _ _ := rfl

theorem errorStep_hideRx (b : Block) (tUs : Word64) :
    errorStep (hideRx g b) tUs = hideRx g (errorStep b tUs) := by
  simp only [errorStep_eq]
  rfl

theorem endOfFrame_hideRx (b : Block) (tUs : Word64) :
    endOfFrame (hideRx g b) tUs = hideRx g (endOfFrame b tUs) := by
  obtain hr | hr := Nat.lt_or_ge b.tx.repeatsDone.toNat b.tx.repeatCount.toNat
  · rw [endOfFrame_of_repeat tUs hr, endOfFrame_of_repeat (b := hideRx g b) tUs hr]
    rfl
  · rw [endOfFrame_of_last tUs hr, endOfFrame_of_last (b := hideRx g b) tUs hr]
    rfl

theorem intervalStep_hideRx (b : Block) (d : Word32) (tUs : Word64) :
    intervalStep (hideRx g b) d tUs = hideRx g (intervalStep b d tUs) := by
  unfold intervalStep
  rw [apply_ite (hideRx g)]
  refine ite_congr rfl (fun _ => ?_) fun _ => ?_
  · rw [apply_ite (hideRx g)]
    rfl
  · rw [apply_ite (hideRx g), ← endOfFrame_hideRx]
    rfl

theorem memRead_hideReceivers (s : State) (a : Nat) :
    memRead (hideReceivers g table s) a =
      (memRead s a).map fun p => (p.1, hideReceivers g table p.2) := by
  rw [memRead, memRead, apply_ite (Except.map _)]
  refine ite_congr rfl (fun _ => ?_) fun _ => rfl
  have hw : hostWord? (hideReceivers g table s).params.byteOrder (hideReceivers g table s).hostMem a =
      hostWord? s.params.byteOrder s.hostMem a := rfl
  rw [hw]
  cases hostWord? s.params.byteOrder s.hostMem a <;> rfl

/-- The current interval is read from the transmitter and host memory alone (R16, R238). -/
theorem curInterval_hideReceivers (s : State) (t : Transmitter) :
    curInterval (hideReceivers g table s) t =
      (curInterval s t).map fun p => (p.1, hideReceivers g table p.2) := by
  unfold curInterval
  cases t.seqSrc with
  | none => rfl
  | internal => simp only; cases readCell? t.txBuf t.txIdx.toNat <;> rfl
  | host base => exact memRead_hideReceivers ..

theorem execTxUpdate_hideReceivers (s : State) :
    execTxUpdate (hideReceivers g table s) =
      hidden (hideReceivers g table) (execTxUpdate s) := by
  have H := hides_hideReceivers g table
  refine H.onSelf fun b => ?_
  have htx : (hideRx g b).tx = b.tx := rfl
  simp only [htx]
  split
  · exact H.answer rfl rfl
  · exact H.answer rfl rfl
  · exact H.answer rfl rfl
  · refine hidden_ite (H.answer rfl (errorStep_hideRx ..)) (hidden_ite (H.answer rfl rfl) ?_)
    rw [curInterval_hideReceivers]
    cases curInterval s b.tx with
    | error f => rfl
    | ok p => exact H.answer rfl (intervalStep_hideRx ..)

/-- A transmitter command makes the same of every instance and of the shared state, whatever the receivers
and the table hold. -/
theorem exec_hideReceivers {i : Instr} (hi : sideOf i = .transmitter) (s : State) :
    exec i (hideReceivers g table s) = hidden (hideReceivers g table) (exec i s) := by
  have H := hides_hideReceivers g table
  cases i with
  | txNec _ | txRc5 _ | txSony _ | txSetCarrier _ =>
    exact H.onSelf fun b => hidden_ite (H.answer rfl rfl) (H.answer rfl rfl)
  | txRaw _ _ =>
    exact H.onSelf fun b => hidden_ite (H.answer rfl rfl)
      (hidden_ite (H.answer rfl rfl) (H.answer rfl rfl))
  | txUpdate => exact execTxUpdate_hideReceivers g table s
  | txIsTransmitting | txIsComplete | txSetCallback _ | txSetPower _ | txSetRepeat _ =>
    exact H.onSelf fun b => H.answer rfl rfl
  | _ => cases hi

end

/-- Settles O55. The statement's `hide` is `hideReceivers`. -/
theorem transmitterIgnoresReceiver : Obligations.TransmitterIgnoresReceiver := by
  intro i s g table hi hide
  have h := exec_hideReceivers g table hi s
  change exec i (hide s) = hidden hide (exec i s) at h
  rw [h]
  cases exec i s <;> rfl

/-- An instance with another transmitter. -/
def hideTx (g : Transmitter → Transmitter) (b : Block) : Block := { b with tx := g b.tx }

/-- A state with other transmitters, host memory and draw count. -/
def hideTransmitters (g : Transmitter → Transmitter) (mem : List Host.Cell) (n : Nat) (s : State) :
    State :=
  { s with blocks := s.blocks.map (hideTx g), hostMem := mem, drawCount := n }

section
variable (g : Transmitter → Transmitter) (mem : List Host.Cell) (n : Nat)

theorem hides_hideTransmitters : Hides (hideTransmitters g mem n) (hideTx g) where
  blocks _ := rfl
  port _ := rfl
  put s k b := by simp only [hideTransmitters, putBlock, List.map_set]
  dead _ := rfl
  respond _ _ _ := rfl

theorem unbindPin_hideTransmitters (s : State) (b : Block) :
    unbindPin (hideTransmitters g mem n s) (hideTx g b) = hideTransmitters g mem n (unbindPin s b) := by
  rw [unbindPin, unbindPin, apply_ite (hideTransmitters g mem n)]
  rfl

theorem decodeStep_hideTx (b : Block) :
    decodeStep (hideTx g b) = (decodeStep b).map (hideTx g) := by
  have hrx : (hideTx g b).rx = b.rx := rfl
  unfold decodeStep
  rw [hrx]
  cases snapshot { b.rx with rxState := .decoding } with
  | error f => rfl
  | ok r =>
    simp only [notifyRx_eq]
    cases readCells? r.rawBuf 0 r.rawLen.toNat <;> rfl

theorem timeoutStep_hideTx (b : Block) : timeoutStep (hideTx g b) = hideTx g (timeoutStep b) := by
  simp only [timeoutStep_eq]
  rfl

theorem exitStep_hideTransmitters (s : State) (b : Block) :
    exitStep (hideTransmitters g mem n s) (hideTx g b) =
      (hideTransmitters g mem n (exitStep s b).1, hideTx g (exitStep s b).2) := by
  cases hp : b.rx.periodic with
  | true => rw [exitStep_of_periodic s hp, exitStep_of_periodic (b := hideTx g b) _ hp]; rfl
  | false =>
    rw [exitStep_of_single s hp, exitStep_of_single (b := hideTx g b) _ hp,
      unbindPin_hideTransmitters]
    rfl

theorem execRxUpdate_hideTransmitters (s : State) :
    execRxUpdate (hideTransmitters g mem n s) =
      hidden (hideTransmitters g mem n) (execRxUpdate s) := by
  have H := hides_hideTransmitters g mem n
  refine H.onSelf fun b => ?_
  have hrx : (hideTx g b).rx = b.rx := rfl
  simp only [hrx]
  split
  · exact H.answer rfl rfl
  · refine hidden_ite ?_ (hidden_ite (H.answer rfl (timeoutStep_hideTx ..)) (H.answer rfl rfl))
    rw [decodeStep_hideTx]
    cases decodeStep b with
    | error f => rfl
    | ok c => exact H.answer rfl rfl
  · rw [exitStep_hideTransmitters]
    exact H.answer rfl rfl
  · rw [exitStep_hideTransmitters]
    exact H.answer rfl rfl
  · rfl

theorem execRxGetRaw_hideTransmitters (j : Word32) (s : State) :
    execRxGetRaw j (hideTransmitters g mem n s) =
      hidden (hideTransmitters g mem n) (execRxGetRaw j s) := by
  have H := hides_hideTransmitters g mem n
  refine H.onSelf fun b => hidden_ite ?_ (H.answer rfl rfl)
  have hrx : (hideTx g b).rx = b.rx := rfl
  rw [hrx]
  cases readCell? b.rx.rawBuf j.toNat with
  | none => rfl
  | some v => exact H.answer rfl rfl

theorem execEdge_hideTransmitters (s : State) :
    execEdge (hideTransmitters g mem n s) =
      hidden (hideTransmitters g mem n) (execEdge s) := by
  have H := hides_hideTransmitters g mem n
  have howner : readCell? (hideTransmitters g mem n s).pinOwner (hideTransmitters g mem n s).port.pin =
      readCell? s.pinOwner s.port.pin := rfl
  unfold execEdge
  rw [howner]
  cases readCell? s.pinOwner s.port.pin with
  | none => rfl
  | some k =>
    simp only [H.blocks, List.getElem?_map]
    cases s.blocks[k]? with
    | none => rfl
    | some b =>
      have hrx : (hideTx g b).rx = b.rx := rfl
      simp only [Option.map_some, H.dead, H.port, hrx]
      refine hidden_ite rfl ?_
      cases edgeStep b.rx s.port.tUs with
      | error f => rfl
      | ok r => exact congrArg Host.Outcome.next (H.put s k { b with rx := r }).symm

/-- A receiver command or an edge makes the same of every instance and of the binding table, whatever the
transmitters, host memory and the draw count hold. -/
theorem exec_hideTransmitters {i : Instr} (hi : sideOf i = .receiver ∨ i = .edge) (s : State) :
    exec i (hideTransmitters g mem n s) = hidden (hideTransmitters g mem n) (exec i s) := by
  have H := hides_hideTransmitters g mem n
  have hunbind := unbindPin_hideTransmitters g mem n s
  cases i with
  | rxStart | rxStartPeriodic _ =>
    exact H.onSelf fun b => hidden_ite (H.answer rfl rfl)
      (hidden_ite (H.answer rfl rfl) (H.answer rfl rfl))
  | rxStop | rxStopPeriodic => exact H.onSelf fun b => H.answer (hunbind b) rfl
  | rxUpdate => exact execRxUpdate_hideTransmitters g mem n s
  | rxGetRaw j => exact execRxGetRaw_hideTransmitters g mem n j s
  | rxSetTimeout _ =>
    exact H.onSelf fun b => hidden_ite (H.answer rfl rfl) (H.answer rfl rfl)
  | rxIsReceiving | rxIsDetected | rxGetCode | rxGetProtocol | rxGetRawLen | rxSetCallback _
  | rxSetMinPw _ | rxSetMaxPw _ => exact H.onSelf fun b => H.answer rfl rfl
  | edge => exact execEdge_hideTransmitters g mem n s
  | _ => exact hi.elim nofun nofun

end

/-- Settles O56. The statement's `hide` is `hideTransmitters`. -/
theorem receiverIgnoresTransmitter : Obligations.ReceiverIgnoresTransmitter := by
  intro i s g mem n hi hide
  have h := exec_hideTransmitters g mem n hi s
  change exec i (hide s) = hidden hide (exec i s) at h
  rw [h]
  cases exec i s <;> rfl

end Sys2Proof.Machine
end

section
/-! SUPPORT. The statements of 70_reset_and_hazards.md: TEARDOWN, and the timestamps that no rule reads
before one writes them (R342). -/

namespace Sys2Proof.Machine

/-! TEARDOWN (R347). -/

/-- Settles O57. Of the shared state only the table changes, by the release (R171). -/
theorem teardown : Obligations.Teardown := by
  intro s b hl
  refine ⟨_, released_unbindPin s b, (onSelf_of_live hl _).trans ?_⟩
  rw [← unbindPin_eq, pinOut_eq]
  rfl

/-! Masked outcomes (R342). A lemma `op_mask` says that `op` makes the same, masked, of its arguments and of
its masked arguments. -/

theorem hides_maskState : Hides maskState maskBlock where
  blocks _ := rfl
  port _ := rfl
  put s k b := by simp only [maskState_eq, putBlock, List.map_set]
  dead _ := rfl
  respond _ _ _ := rfl

theorem maskOutcome_next {t t' : State} (h : maskState t' = maskState t) :
    maskOutcome (.next t') = maskOutcome (.next t) := congrArg Host.Outcome.next h

theorem maskState_putBlock {s s' : State} {b b' : Block} (k : Nat) (hs : maskState s' = maskState s)
    (hb : maskBlock b' = maskBlock b) :
    maskState (putBlock s' k b') = maskState (putBlock s k b) := by
  rw [hides_maskState.put, hides_maskState.put, hs, hb]

theorem apply_ite_congr {α β : Type} (f : α → β) {p : Prop} [Decidable p] {x y x' y' : α}
    (hx : f x' = f x) (hy : f y' = f y) : f (if p then x' else y') = f (if p then x else y) := by
  split
  · exact hx
  · exact hy

theorem maskOutcome_ite {p : Prop} [Decidable p] {x y x' y' : Host.Outcome State Fault Refusal}
    (hx : maskOutcome x' = maskOutcome x) (hy : maskOutcome y' = maskOutcome y) :
    maskOutcome (if p then x' else y') = maskOutcome (if p then x else y) :=
  apply_ite_congr maskOutcome hx hy

/-- Two results that can be a fault and are equal after `mask` are the same fault, or values that are equal
after `mask`. -/
theorem except_map_cases {α : Type} {mask : α → α} {x x' : Except Fault α}
    (h : x'.map mask = x.map mask) :
    (∃ f, x' = .error f ∧ x = .error f) ∨
      ∃ a a', x' = .ok a' ∧ x = .ok a ∧ mask a' = mask a := by
  cases x with
  | error f =>
    cases x' with
    | error f' => exact .inl ⟨f, congrArg _ (Except.error.inj h), rfl⟩
    | ok a' => cases h
  | ok a =>
    cases x' with
    | error f' => cases h
    | ok a' => exact .inr ⟨a, a', rfl, rfl, Except.ok.inj h⟩

/-! The receiver. -/

/-- Receivers that differ only in timestamps, and in none that a rule may read, are equal masked. -/
theorem maskRx_congr {r r' : Receiver}
    (heq : r' = { r with lastEdgeUs := r'.lastEdgeUs, rxStartMs := r'.rxStartMs })
    (hlast : r.haveLast = true → r'.lastEdgeUs = r.lastEdgeUs)
    (hstart : r.rxState = .receiving → r'.rxStartMs = r.rxStartMs) : maskRx r' = maskRx r := by
  rw [heq]
  simp only [maskRx]
  congr 1
  · exact ite_congr rfl hlast fun _ => rfl
  · exact ite_congr rfl hstart fun _ => rfl

theorem decodeStep_of_unwritten {b : Block}
    (h : readCells? b.rx.capBuf 0 b.rx.capLen.toNat = none) :
    decodeStep b = .error .unwrittenCell := by
  simp only [decodeStep, snapshot, h]

theorem decodeStep_mask (b : Block) :
    (decodeStep (maskBlock b)).map maskBlock = (decodeStep b).map maskBlock := by
  have hbuf : readCells? (maskBlock b).rx.capBuf 0 (maskBlock b).rx.capLen.toNat =
      readCells? b.rx.capBuf 0 b.rx.capLen.toNat := rfl
  cases hx : readCells? b.rx.capBuf 0 b.rx.capLen.toNat with
  | none => rw [decodeStep_of_unwritten hx, decodeStep_of_unwritten (hbuf.trans hx)]
  | some xs =>
    obtain ⟨c, hc⟩ := decodeStep_of_written hx
    obtain ⟨c', hc'⟩ := decodeStep_of_written (hbuf.trans hx)
    obtain ⟨ys, hy, rfl⟩ := decodeStep_eq_ok hc
    obtain ⟨ys', hy', rfl⟩ := decodeStep_eq_ok hc'
    obtain rfl : ys' = ys := Option.some.inj (hy'.symm.trans hy)
    rw [hc, hc']
    refine congrArg Except.ok (maskBlock_congr rfl ?_ (maskTx_idem _) rfl rfl rfl)
    exact maskRx_congr rfl (if_pos ·) nofun

theorem timeoutStep_mask (b : Block) :
    maskBlock (timeoutStep (maskBlock b)) = maskBlock (timeoutStep b) := by
  simp only [timeoutStep_eq]
  exact maskBlock_congr rfl (maskRx_congr rfl (if_pos ·) nofun) (maskTx_idem _) rfl rfl rfl

theorem answer_exitStep_mask (s : State) (b : Block) :
    maskOutcome (answer (exitStep (maskState s) (maskBlock b)).1
      (exitStep (maskState s) (maskBlock b)).2 0#32 .ok) =
    maskOutcome (answer (exitStep s b).1 (exitStep s b).2 0#32 .ok) := by
  cases hp : b.rx.periodic with
  | true =>
    rw [exitStep_of_periodic s hp, exitStep_of_periodic (b := maskBlock b) _ hp]
    exact mask_rx (maskRx_reenter ..)
  | false =>
    rw [exitStep_of_single s hp, exitStep_of_single (b := maskBlock b) _ hp, unbind_mask]
    exact answer_mask (maskState_idem _) (rx_mask (maskRx_idle (unbound b.rx)))

theorem execRxUpdate_mask (s : State) :
    maskOutcome (execRxUpdate (maskState s)) = maskOutcome (execRxUpdate s) := by
  refine onSelf_mask fun b => ?_
  have hstate : (maskBlock b).rx.rxState = b.rx.rxState := rfl
  rw [hstate]
  cases hr : b.rx.rxState with
  | idle => exact mask_same
  | receiving =>
    have hstart : (maskRx b.rx).rxStartMs = b.rx.rxStartMs := if_pos hr
    have htimed : timedOut (maskBlock b).rx (maskState s).port.tMs = timedOut b.rx s.port.tMs := by
      rw [timedOut, timedOut, ← hstart]
      rfl
    refine maskOutcome_ite ?_ ?_
    · obtain ⟨f, h', h⟩ | ⟨c, c', h', h, hc⟩ := except_map_cases (decodeStep_mask b)
      · rw [h', h]
      · rw [h', h]
        exact answer_mask (maskState_idem s) hc
    · rw [htimed]
      exact maskOutcome_ite (answer_mask (maskState_idem s) (timeoutStep_mask b)) mask_same
  | signalDetected | timeout => exact answer_exitStep_mask s b
  | decoding => rfl

theorem execRxGetRaw_mask (j : Word32) (s : State) :
    maskOutcome (execRxGetRaw j (maskState s)) = maskOutcome (execRxGetRaw j s) := by
  refine onSelf_mask fun b => maskOutcome_ite ?_ mask_same
  have hbuf : (maskBlock b).rx.rawBuf = b.rx.rawBuf := rfl
  rw [hbuf]
  cases readCell? b.rx.rawBuf j.toNat with
  | none => rfl
  | some v => exact mask_same

theorem stop_mask (s : State) (b : Block) (res : Word32) :
    maskOutcome (answer (unbindPin (maskState s) (maskBlock b))
      { maskBlock b with rx := stopped (maskBlock b).rx } res .ok) =
    maskOutcome (answer (unbindPin s b) { b with rx := stopped b.rx } res .ok) := by
  rw [unbind_mask]
  exact answer_mask (maskState_idem _) (rx_mask (maskRx_idle (stopped b.rx)))

theorem edgeStep_map_mask (r : Receiver) (tUs : Word64) :
    (edgeStep (maskRx r) tUs).map maskRx = (edgeStep r tUs).map maskRx := by
  have h := edgeStep_mask r tUs
  revert h
  cases edgeStep (maskRx r) tUs <;> cases edgeStep r tUs <;> exact id

theorem execEdge_mask (s : State) :
    maskOutcome (execEdge (maskState s)) = maskOutcome (execEdge s) := by
  have howner : readCell? (maskState s).pinOwner (maskState s).port.pin =
      readCell? s.pinOwner s.port.pin := rfl
  have hsame := maskOutcome_next (maskState_idem s)
  unfold execEdge
  rw [howner]
  cases readCell? s.pinOwner s.port.pin with
  | none => exact hsame
  | some k =>
    simp only [hides_maskState.blocks, List.getElem?_map]
    cases s.blocks[k]? with
    | none => exact hsame
    | some b =>
      refine maskOutcome_ite hsame ?_
      obtain ⟨f, h', h⟩ | ⟨r, r', h', h, hr⟩ := except_map_cases
        (x' := edgeStep (maskBlock b).rx (maskState s).port.tUs) (edgeStep_map_mask b.rx s.port.tUs)
      · rw [h', h]
      · rw [h', h]
        exact maskOutcome_next (maskState_putBlock k (maskState_idem s) (rx_mask hr))

/-! The transmitter. -/

/-- Transmitters that differ only in timestamps, and in none that a rule may read, are equal masked. -/
theorem maskTx_congr {t t' : Transmitter}
    (heq : t' = { t with
      idxStartUs := t'.idxStartUs, lastToggleUs := t'.lastToggleUs, gapStartUs := t'.gapStartUs })
    (hrun : t.txState = .transmitting →
      t'.idxStartUs = t.idxStartUs ∧ t'.lastToggleUs = t.lastToggleUs)
    (hgap : t.inGap = true → t'.gapStartUs = t.gapStartUs) : maskTx t' = maskTx t := by
  rw [heq]
  simp only [maskTx]
  congr 1
  · exact ite_congr rfl (fun h => (hrun h).1) fun _ => rfl
  · exact ite_congr rfl hgap fun _ => rfl
  · exact ite_congr rfl (fun h => (hrun h).2) fun _ => rfl

theorem startEncoded_mask (b : Block) (xs : List Word32) (len : Nat) (tUs : Word64) :
    maskBlock (startEncoded (maskBlock b) xs len tUs) = maskBlock (startEncoded b xs len tUs) :=
  tx_mask rfl

theorem errorStep_mask (b : Block) (tUs : Word64) :
    maskBlock (errorStep (maskBlock b) tUs) = maskBlock (errorStep b tUs) := by
  simp only [errorStep_eq]
  exact maskBlock_congr rfl (maskRx_idem _) (maskTx_congr rfl nofun (if_pos ·)) rfl rfl rfl

theorem endOfFrame_mask (b : Block) (tUs : Word64) :
    maskBlock (endOfFrame (maskBlock b) tUs) = maskBlock (endOfFrame b tUs) := by
  obtain hr | hr := Nat.lt_or_ge b.tx.repeatsDone.toNat b.tx.repeatCount.toNat
  · rw [endOfFrame_of_repeat tUs hr, endOfFrame_of_repeat (b := maskBlock b) tUs hr]
    exact maskBlock_congr rfl (maskRx_idem _)
      (maskTx_congr rfl (fun h => ⟨if_pos h, if_pos h⟩) fun _ => rfl) rfl rfl rfl
  · rw [endOfFrame_of_last tUs hr, endOfFrame_of_last (b := maskBlock b) tUs hr]
    exact maskBlock_congr rfl (maskRx_idem _) (maskTx_congr rfl nofun (if_pos ·)) rfl rfl rfl

/-- While transmitting, the carrier reads the time of its last toggle as it is. -/
theorem carrier_mask {t : Transmitter} (ht : t.txState = .transmitting) (tUs : Word64) :
    maskTx (carrier (maskTx t) tUs) = maskTx (carrier t tUs) := by
  have hlast : (maskTx t).lastToggleUs = t.lastToggleUs := if_pos ht
  unfold carrier
  rw [hlast]
  refine apply_ite_congr maskTx ?_ (maskTx_idem t)
  exact maskTx_congr rfl (fun h => ⟨if_pos h, rfl⟩) (if_pos ·)

/-- While transmitting, entering an index writes the one time that is read there. -/
theorem advance_mask {b : Block} (ht : b.tx.txState = .transmitting) (idx : Word8) (tUs : Word64) :
    ({ maskBlock b with tx := { maskTx b.tx with txIdx := idx, idxStartUs := tUs } } : Block) =
      maskBlock { b with tx := { b.tx with txIdx := idx, idxStartUs := tUs } } := by
  simp only [maskBlock, maskTx, ht, if_true]

theorem intervalStep_mask {b : Block} (ht : b.tx.txState = .transmitting) (d : Word32)
    (tUs : Word64) :
    maskBlock (intervalStep (maskBlock b) d tUs) = maskBlock (intervalStep b d tUs) := by
  have hstart : (maskBlock b).tx.idxStartUs = b.tx.idxStartUs := if_pos ht
  unfold intervalStep
  rw [hstart]
  refine apply_ite_congr maskBlock (apply_ite_congr maskBlock ?_ ?_) ?_
  · exact tx_mask (carrier_mask ht tUs)
  · exact tx_mask (maskTx_idem (pinOut b.tx tUs false))
  · have hnext := advance_mask ht (b.tx.txIdx + 1#8) tUs
    refine apply_ite_congr maskBlock ?_ ?_
    · exact (congrArg (maskBlock <| endOfFrame · tUs) hnext).trans (endOfFrame_mask ..)
    · exact (congrArg maskBlock hnext).trans (maskBlock_idem _)

/-- Masks the state that a read of the current interval answers with its duration. -/
def maskRead (p : Word32 × State) : Word32 × State := (p.1, maskState p.2)

theorem curInterval_map_mask (s : State) (t : Transmitter) :
    (curInterval (maskState s) (maskTx t)).map maskRead = (curInterval s t).map maskRead := by
  rw [curInterval_mask]
  cases curInterval s t with
  | error f => rfl
  | ok p => exact congrArg (fun u => Except.ok (p.1, u)) (maskState_idem p.2)

/-- While transmitting, masking keeps every timestamp that is read: in a gap all of them (`maskTx_of_gap`),
within a frame those of `intervalStep_mask`. -/
theorem execTxUpdate_mask (s : State) :
    maskOutcome (execTxUpdate (maskState s)) = maskOutcome (execTxUpdate s) := by
  refine onSelf_mask fun b => ?_
  have hstate : (maskBlock b).tx.txState = b.tx.txState := rfl
  rw [hstate]
  cases ht : b.tx.txState with
  | idle => exact mask_same
  | complete | error => exact mask_tx (maskTx_congr rfl nofun (if_pos ·))
  | transmitting =>
    refine maskOutcome_ite (answer_mask (maskState_idem s) (errorStep_mask b s.port.tUs)) ?_
    cases hg : b.tx.inGap with
    | true =>
      have htx : (maskBlock b).tx = b.tx := maskTx_of_gap ht hg
      rw [htx, hg]
      exact mask_tx rfl
    | false =>
      have hgap : (maskBlock b).tx.inGap = false := hg
      rw [hgap]
      obtain ⟨f, h', h⟩ | ⟨⟨d, u⟩, ⟨d', u'⟩, h', h, hread⟩ := except_map_cases
        (x' := curInterval (maskState s) (maskBlock b).tx) (curInterval_map_mask s b.tx)
      · rw [h', h]
        rfl
      · rw [h', h]
        obtain ⟨rfl, hu⟩ := Prod.mk.inj hread
        exact answer_mask hu (intervalStep_mask ht d' s.port.tUs)

/-! Every instruction, and the step. -/

theorem exec_mask (i : Instr) (s : State) :
    maskOutcome (exec i (maskState s)) = maskOutcome (exec i s) := by
  cases i with
  | rxStart => exact onSelf_mask fun b => start_mask s b _ _ _ (maskRx_enterBound ..)
  | rxStartPeriodic h =>
    exact onSelf_mask fun b => start_mask s b _ _ _
      (maskRx_enterBound { b.rx with rxCb := h, periodic := true } s.port.tMs)
  | rxStop | rxStopPeriodic => exact onSelf_mask fun b => stop_mask s b _
  | rxUpdate => exact execRxUpdate_mask s
  | rxGetRaw j => exact execRxGetRaw_mask j s
  | rxSetCallback h =>
    exact onSelf_mask fun b => mask_rx (maskRx_idem { b.rx with rxCb := h })
  | rxSetTimeout ms =>
    exact onSelf_mask fun b =>
      maskOutcome_ite (mask_rx (maskRx_idem { b.rx with timeoutMs := ms })) mask_same
  | rxSetMinPw us =>
    exact onSelf_mask fun b => mask_rx (maskRx_idem { b.rx with pwMin := us })
  | rxSetMaxPw us =>
    exact onSelf_mask fun b => mask_rx (maskRx_idem { b.rx with pwMax := us })
  | txNec _ | txRc5 _ | txSony _ =>
    exact onSelf_mask fun b =>
      maskOutcome_ite mask_same (answer_mask (maskState_idem s) (startEncoded_mask ..))
  | txRaw _ _ =>
    exact onSelf_mask fun b =>
      maskOutcome_ite mask_same (maskOutcome_ite mask_same (mask_tx rfl))
  | txUpdate => exact execTxUpdate_mask s
  | txSetCallback h =>
    exact onSelf_mask fun b => mask_tx (maskTx_idem { b.tx with txCb := h })
  | txSetCarrier f =>
    exact onSelf_mask fun b =>
      maskOutcome_ite mask_same (mask_tx (maskTx_idem { b.tx with carrierHz := f }))
  | txSetPower p =>
    exact onSelf_mask fun b => mask_tx (maskTx_idem { b.tx with power := p })
  | txSetRepeat n =>
    exact onSelf_mask fun b => mask_tx (maskTx_idem { b.tx with repeatCount := n })
  | edge => exact execEdge_mask s
  | teardown =>
    refine onSelf_mask fun b => maskOutcome_next ?_
    rw [unbind_mask]
    exact maskState_putBlock _ (maskState_idem _) (maskBlock_idem (tornDown b s.port.tUs))
  | rxIsReceiving | rxIsDetected | rxGetCode | rxGetProtocol | rxGetRawLen | txIsTransmitting
  | txIsComplete => exact onSelf_mask fun b => mask_same

theorem illegalWord_mask (s : State) :
    maskOutcome (illegalWord (maskState s)) = maskOutcome (illegalWord s) :=
  onSelf_mask fun _ => mask_same

theorem hostWrite_mask (s : State) (a : Nat) (v : Word32) :
    maskOutcome (hostWrite (maskState s) a v) = maskOutcome (hostWrite s a v) :=
  maskOutcome_ite (maskOutcome_next (maskState_idem
    { s with hostMem := writeHostWord s.params.byteOrder s.hostMem a v })) rfl

theorem runInput_mask (i : Input) (s : State) :
    maskOutcome (runInput i (maskState s)) = maskOutcome (runInput i s) := by
  cases i with
  | cmd k w tUs tMs =>
    cases hd : decode (.command w) with
    | instr ins =>
      rw [runInput_cmd hd, runInput_cmd hd]
      exact exec_mask ins (deliver (.cmd k w tUs tMs) s)
    | illegal why =>
      simp only [runInput, hd]
      exact illegalWord_mask (deliver (.cmd k w tUs tMs) s)
  | edge pin tUs => exact exec_mask .edge (deliver (.edge pin tUs) s)
  | teardown k tUs => exact exec_mask .teardown (deliver (.teardown k tUs) s)
  | hostWrite a v => exact hostWrite_mask s a v

/-- Settles O17. Masking leaves the inputs, so that both states take the same one. -/
theorem unspecifiedTimestampsAreNeverRead : Obligations.UnspecifiedTimestampsAreNeverRead := by
  intro s
  have hinputs : (maskState s).inputs = s.inputs := rfl
  cases hi : s.inputs with
  | nil =>
    rw [step_of_no_input hi, step_of_no_input (hinputs.trans hi)]
    exact maskOutcome_next (maskState_idem s)
  | cons i rest =>
    rw [step_of_input hi, step_of_input (hinputs.trans hi)]
    exact runInput_mask i { s with inputs := rest }

end Sys2Proof.Machine
end
